-- ==== Sys2Proof/Word.lean ====
section
/-! DEFINITION. The word types of the block (00_scope.md R10, R11). -/

namespace Sys2Proof

/-- 8 bits (R10). -/
abbrev Byte := BitVec 8

/-- 16 bits (R10): `ACC.val`, the immediate operand, a `letter`. -/
abbrev Word := BitVec 16

/-- A buffer capacity or cursor, 14 bits (10_state.md R20). -/
abbrev Cursor := BitVec 14

/-- A command word, 32 bits, bit 31 the most significant (30_encoding.md R72). -/
abbrev CmdWord := BitVec 32

end Sys2Proof
end

