-- ==== Sys2Proof/Syntax.lean ====
section
/-! DEFINITION. The commands as data (30_encoding.md R71), one constructor per row of the opcode table. -/

namespace Sys2Proof

/-- The nine commands (R71). The operands have the width of the field that carries them (R73 to R75);
their ranges (R77) are `Instr.wellFormed`. -/
inductive Instr where
  /-- `INIT in_cap, out_cap` (40_lifecycle.md R90). -/
  | init (inCap outCap : Cursor)
  /-- `DESTROY` (40_lifecycle.md R91). -/
  | destroy
  /-- `WRITE_BYTE v` (42_primitive_writers.md R111). -/
  | writeByte (v : Byte)
  /-- `WRITE_WORD v` (42_primitive_writers.md R112). -/
  | writeWord (v : Word)
  /-- `WRITE_MARKER code` (42_primitive_writers.md R113). -/
  | writeMarker (code : Byte)
  /-- `WRITE_BITS L, val` (43_bit_writer.md R122). -/
  | writeBits (len : BitVec 5) (val : Word)
  /-- `WRITE_ALIGN_BITS` (43_bit_writer.md R126). -/
  | writeAlignBits
  /-- `REFILL_IN` (41_buffer.md R103). -/
  | refillIn
  /-- `DRAIN_OUT` (41_buffer.md R101). -/
  | drainOut
deriving DecidableEq, Repr

end Sys2Proof
end

