-- ==== Sys2Proof/WellFormed.lean ====
section
/-! DEFINITION. The operand ranges of the commands (30_encoding.md R76 'constraint beyond the mask', R77). -/

namespace Sys2Proof

/-- `INCAP ≥ 1` and `OUTCAP ≥ 1` (R76). -/
def capsLegal (inCap outCap : Cursor) : Bool :=
  inCap != 0#14 && outCap != 0#14

/-- `LEN ≤ 16` (R76). -/
def lenLegal (len : BitVec 5) : Bool :=
  decide (len.toNat ≤ 16)

/-- `shr(DATA, LEN) = 0`, that is `val < 2^L` (R76, R77). -/
def valueFits (len : BitVec 5) (val : Word) : Bool :=
  val >>> len.toNat == 0#16

/-- Every operand lies in its range (R77). -/
def Instr.wellFormed : Instr → Bool
  | .init inCap outCap => capsLegal inCap outCap
  | .destroy => true
  | .writeByte _ => true
  | .writeWord _ => true
  | .writeMarker _ => true
  | .writeBits len val => lenLegal len && valueFits len val
  | .writeAlignBits => true
  | .refillIn => true
  | .drainOut => true

end Sys2Proof
end

