-- ==== Sys2Proof/Decode.lean ====
section
/-! DEFINITION. Decoding and encoding of command words (30_encoding.md R72 to R79, opcode_table.json). -/

namespace Sys2Proof

/-- Why a word matches no row of the opcode map (R79). Each is the same fault, `IllegalCommand`. -/
inductive Illegal where
  /-- `OP` is `0x0` or `0xA` to `0xF`. -/
  | reservedOpcode
  /-- Format D with `Z ≠ 0`. -/
  | reservedBitsSet
  /-- `LEN ≠ 0` in a format-D command other than WRITE_BITS. -/
  | lenNotZero
  /-- `DATA[15:8] ≠ 0` in WRITE_BYTE or WRITE_MARKER, `DATA ≠ 0` in a command without operand. -/
  | dataNotZero
  /-- WRITE_BITS with `LEN > 16`. -/
  | lenTooLarge
  /-- WRITE_BITS with `DATA ≥ 2^LEN`. -/
  | valueTooWide
  /-- INIT with `INCAP = 0` or `OUTCAP = 0`. -/
  | zeroCapacity
deriving DecidableEq, Repr

/-- `CW[31:28]` (R73, R74). -/
def fieldOp (w : CmdWord) : BitVec 4 := w.extractLsb' 28 4

/-- `CW[27:21]` (R73). -/
def fieldZ (w : CmdWord) : BitVec 7 := w.extractLsb' 21 7

/-- `CW[20:16]` (R73). -/
def fieldLen (w : CmdWord) : BitVec 5 := w.extractLsb' 16 5

/-- `CW[15:0]` (R73). -/
def fieldData (w : CmdWord) : Word := w.extractLsb' 0 16

/-- `DATA[15:8]` (R75). -/
def fieldDataHigh (w : CmdWord) : Byte := w.extractLsb' 8 8

/-- `DATA[7:0]` (R75). -/
def fieldDataLow (w : CmdWord) : Byte := w.extractLsb' 0 8

/-- `CW[27:14]` (R74). -/
def fieldInCap (w : CmdWord) : Cursor := w.extractLsb' 14 14

/-- `CW[13:0]` (R74). -/
def fieldOutCap (w : CmdWord) : Cursor := w.extractLsb' 0 14

/-- Format C (R74), INIT only. -/
def decodeInit (w : CmdWord) : Except Illegal Instr :=
  if capsLegal (fieldInCap w) (fieldOutCap w) then .ok (.init (fieldInCap w) (fieldOutCap w))
  else .error .zeroCapacity

/-- Format D with `Z` and `LEN` zero and no operand (R73, R79). -/
def decodePlain (i : Instr) (w : CmdWord) : Except Illegal Instr :=
  if fieldZ w ≠ 0#7 then .error .reservedBitsSet
  else if fieldLen w ≠ 0#5 then .error .lenNotZero
  else if fieldData w ≠ 0#16 then .error .dataNotZero
  else .ok i

/-- Format D with an 8-bit operand in `DATA[7:0]` (R75, R79). -/
def decodeByte (mk : Byte → Instr) (w : CmdWord) : Except Illegal Instr :=
  if fieldZ w ≠ 0#7 then .error .reservedBitsSet
  else if fieldLen w ≠ 0#5 then .error .lenNotZero
  else if fieldDataHigh w ≠ 0#8 then .error .dataNotZero
  else .ok (mk (fieldDataLow w))

/-- Format D with a 16-bit operand in `DATA` (R75, R79). -/
def decodeWord (mk : Word → Instr) (w : CmdWord) : Except Illegal Instr :=
  if fieldZ w ≠ 0#7 then .error .reservedBitsSet
  else if fieldLen w ≠ 0#5 then .error .lenNotZero
  else .ok (mk (fieldData w))

/-- WRITE_BITS: `L = LEN`, `val = DATA` (R75, R76). -/
def decodeBits (w : CmdWord) : Except Illegal Instr :=
  if fieldZ w ≠ 0#7 then .error .reservedBitsSet
  else if !lenLegal (fieldLen w) then .error .lenTooLarge
  else if !valueFits (fieldLen w) (fieldData w) then .error .valueTooWide
  else .ok (.writeBits (fieldLen w) (fieldData w))

/-- The opcode map (R76): a word is the row it matches, or illegal by name (R79). -/
def decode (w : CmdWord) : Except Illegal Instr :=
  match (fieldOp w).toNat with
  | 1 => decodeInit w
  | 2 => decodePlain .destroy w
  | 3 => decodeByte .writeByte w
  | 4 => decodeWord .writeWord w
  | 5 => decodeByte .writeMarker w
  | 6 => decodeBits w
  | 7 => decodePlain .writeAlignBits w
  | 8 => decodePlain .refillIn w
  | 9 => decodePlain .drainOut w
  | _ => .error .reservedOpcode

/-- A format-D word from its fields, `Z = 0` (R73). -/
def formatD (op : BitVec 4) (len : BitVec 5) (data : Word) : CmdWord :=
  ((op ++ 0#7) ++ len) ++ data

/-- A format-C word from its fields (R74). -/
def formatC (op : BitVec 4) (inCap outCap : Cursor) : CmdWord :=
  (op ++ inCap) ++ outCap

/-- The word of a command (R73 to R76). -/
def encode : Instr → CmdWord
  | .init inCap outCap => formatC 0x1#4 inCap outCap
  | .destroy => formatD 0x2#4 0#5 0#16
  | .writeByte v => formatD 0x3#4 0#5 (v.setWidth 16)
  | .writeWord v => formatD 0x4#4 0#5 v
  | .writeMarker code => formatD 0x5#4 0#5 (code.setWidth 16)
  | .writeBits len val => formatD 0x6#4 len val
  | .writeAlignBits => formatD 0x7#4 0#5 0#16
  | .refillIn => formatD 0x8#4 0#5 0#16
  | .drainOut => formatD 0x9#4 0#5 0#16

/-- A row of the opcode map (R76): a word selects it when `w & mask = match` and the constraint holds; its operands
are then read from the word (R75). -/
structure OpcodeRow where
  mask : CmdWord
  matchBits : CmdWord
  constraint : CmdWord → Bool
  read : CmdWord → Instr

/-- The word selects the row (R76). -/
def OpcodeRow.selects (r : OpcodeRow) (w : CmdWord) : Prop :=
  w &&& r.mask = r.matchBits ∧ r.constraint w = true

/-- The row of a command (R76, opcode_table.json). -/
def rowOf : Instr → OpcodeRow
  | .init _ _ => ⟨0xF0000000#32, 0x10000000#32, fun w => capsLegal (fieldInCap w) (fieldOutCap w),
      fun w => .init (fieldInCap w) (fieldOutCap w)⟩
  | .destroy => ⟨0xFFFFFFFF#32, 0x20000000#32, fun _ => true, fun _ => .destroy⟩
  | .writeByte _ => ⟨0xFFFFFF00#32, 0x30000000#32, fun _ => true, fun w => .writeByte (fieldDataLow w)⟩
  | .writeWord _ => ⟨0xFFFF0000#32, 0x40000000#32, fun _ => true, fun w => .writeWord (fieldData w)⟩
  | .writeMarker _ => ⟨0xFFFFFF00#32, 0x50000000#32, fun _ => true, fun w => .writeMarker (fieldDataLow w)⟩
  | .writeBits _ _ => ⟨0xFFE00000#32, 0x60000000#32, fun w => lenLegal (fieldLen w) && valueFits (fieldLen w) (fieldData w),
      fun w => .writeBits (fieldLen w) (fieldData w)⟩
  | .writeAlignBits => ⟨0xFFFFFFFF#32, 0x70000000#32, fun _ => true, fun _ => .writeAlignBits⟩
  | .refillIn => ⟨0xFFFFFFFF#32, 0x80000000#32, fun _ => true, fun _ => .refillIn⟩
  | .drainOut => ⟨0xFFFFFFFF#32, 0x90000000#32, fun _ => true, fun _ => .drainOut⟩

/-- The opcode map, one row per command (R76). -/
def opcodeMap : List OpcodeRow :=
  [rowOf (.init 0 0), rowOf .destroy, rowOf (.writeByte 0), rowOf (.writeWord 0), rowOf (.writeMarker 0),
   rowOf (.writeBits 0 0), rowOf .writeAlignBits, rowOf .refillIn, rowOf .drainOut]

/-- The command that the decoder reads from a word numbered as the opcode table numbers it. Every command
is one 32-bit word (R72) that the command port carries whole, so no byte order enters. -/
def decodeTableWord (nbits w : Nat) : Option Instr :=
  if nbits ≤ 32 ∧ w < 2 ^ nbits then
    match decode (BitVec.ofNat 32 w) with
    | .ok i => some i
    | .error _ => none
  else none

end Sys2Proof
end

