-- ==== Sys2Proof/Config.lean ====
section
/-! DEFINITION. The implementation parameters (00_scope.md R9) and the free values (93_implementation_defined.md). -/

namespace Sys2Proof

/-- The values of `ALIGN_ON_BOUNDARY` (R9, 90_conflicts.md C1). -/
inductive AlignOnBoundary where
  /-- Eight 1-bits are added when the pending length is a multiple of 8; the normative value. -/
  | pad8
  /-- `NONE`: nothing is added then. -/
  | noPad
deriving DecidableEq, Repr

/-- The parameters that R9 leaves to the implementation. A state holds them as data that no step changes
(log entry 1), so a statement about every state is a statement for every value of them. -/
structure Params where
  /-- `N_IN_MAX`, bytes of storage behind the input buffer, 1 to 16383. -/
  nInMax : Cursor
  /-- `N_OUT_MAX`, bytes of storage behind the output buffer, 1 to 16383. -/
  nOutMax : Cursor
  /-- `REVERSED_DEBUG`, default false (41_buffer.md R105). -/
  reversedDebug : Bool
  /-- `ALIGN_ON_BOUNDARY`, default PAD8 (43_bit_writer.md R126). -/
  alignOnBoundary : AlignOnBoundary
deriving DecidableEq, Repr

/-- Free value: how many bytes a sink or source transaction moves when the state fixes no answer
(20_memory.md R59, R61; 93_implementation_defined.md U10, U11). Log entry 3. -/
opaque Config.freeCount : Nat → Nat

/-- Free value: whether hardware reset is asserted right after such a transaction's answer, or right after a seek
(70_reset_and_hazards.md R160, U18). Log entry 3. -/
opaque Config.freeReset : Nat → Bool

/-- Free value: the source position after a seek to a negative position (U9). Log entry 12. -/
opaque Config.freeSeekPosition : Nat → Nat

/-- Free value: the byte of output storage at an offset that nothing has written since the storage last
became unspecified (U6); the first argument counts those times. Log entry 9. -/
opaque Config.unwrittenByte : Nat → Nat → Byte

end Sys2Proof
end

