-- ==== Sys2Proof/Machine/State.lean ====
section
/-! DEFINITION. The state of the block and of its environment as plain data (10_state.md R20, R32, R33, R39). -/

namespace Sys2Proof.Machine

/-- `MODE` (R21). The code 3 never occurs (R37) and has no constructor. -/
inductive Mode where
  | uninit
  | ready
  | faulted
deriving DecidableEq, Repr

/-- The fault kinds (60_exceptions.md R140). The codes 6 and 7 never occur. -/
inductive FaultKind where
  | allocationError
  | shortReadError
  | shortWriteError
  | bufferWriteError
  | illegalCommand
deriving DecidableEq, Repr

/-- The bit accumulator (R23, R24). -/
structure Acc where
  /-- `ACC.len`: the number of pending bits. -/
  len : BitVec 5
  /-- `ACC.val`: the pending bits, left-justified from bit 15 down. -/
  val : Word
deriving DecidableEq, Repr

/-- Buffer storage: the written offsets with their bytes, offsets strictly rising. An offset that is not listed
is unwritten: reading it gives no byte (R39, R40 'unspecified'). -/
abbrev Memory := List Host.Cell

/-- A buffer (R27, R29): capacity, cursor, storage. -/
structure Buffer where
  cap : Cursor
  pos : Cursor
  mem : Memory
deriving DecidableEq, Repr

/-- What can arrive on the command port and the reset input (R32, 70_reset_and_hazards.md R160). -/
inductive Stimulus where
  /-- A command word. -/
  | word (w : CmdWord)
  /-- A command word, and hardware reset asserted before the command makes its first transaction, or before it completes
  where it makes none: the command is abandoned (R160, log entry 8). -/
  | wordThenReset (w : CmdWord)
  /-- Hardware reset is asserted. -/
  | reset
deriving DecidableEq, Repr

/-- The environment's answer to a sink or source transaction (00_scope.md R14, 60_exceptions.md R157). -/
inductive Answer where
  /-- `k` bytes are moved, or as many as the transaction allows if `k` is more. -/
  | take (k : Nat)
  /-- The same, and reset is asserted before the command goes on (R160, U18). -/
  | takeThenReset (k : Nat)
  /-- The transaction is never answered (U13): the command hangs until a reset is asserted (R160, log entry 19). -/
  | never
deriving DecidableEq, Repr

/-- The completion status on the command port (R32). -/
inductive Completion where
  | done
  | fault
deriving DecidableEq, Repr

/-- One transaction or event of the block on one of its ports (R14, R32). -/
inductive PortEvent where
  /-- `SinkWrite(bytes)` answered `accepted`; a transaction that reset cut off before its answer stands here with 0. -/
  | sinkWrite (bytes : List Byte) (accepted : Nat)
  /-- `SourceRead(n)` answered `data`; a transaction that reset cut off before its answer stands here with no data. -/
  | sourceRead (n : Nat) (data : List Byte)
  /-- `SourceSeek(delta)`. -/
  | sourceSeek (delta : Int)
  /-- `Hook(kind)` on the fault port. -/
  | hook (kind : FaultKind)
  /-- The completion of a command on the command port. -/
  | completed (status : Completion)
deriving DecidableEq, Repr

/-- The environment (R33): none of it is owned by the block, and reset leaves all of it (R39). -/
structure Env where
  /-- What is still to arrive on the command port and the reset input, the next first. -/
  port : List Stimulus
  /-- The answers to the coming sink transactions, the next first; past the last, free values answer. -/
  sinkAnswers : List Answer
  /-- The answers to the coming source transactions, the next first; past the last, free values answer. -/
  sourceAnswers : List Answer
  /-- Whether reset is asserted right after each of the coming `SourceSeek` transactions (R160), the next first; past the
  last, free values decide. -/
  seekResets : List Bool
  /-- The model's own counter of environment choices taken from free values (log entry 10). -/
  freeTick : Nat
  /-- `SINK`: the bytes the output file has accepted, in order (20_memory.md R60). -/
  sink : List Byte
  /-- `SRC`: the bytes of the input file. -/
  src : List Byte
  /-- `SRC`: the input file's position. -/
  srcPos : Nat
  /-- `HOOKS`: the fault port's events (60_exceptions.md R148). -/
  hooks : List FaultKind
  /-- Every transaction and completion on the block's ports, in order (00_scope.md R7; log entry 16). -/
  log : List PortEvent
deriving DecidableEq, Repr

/-- The complete state: the registers of R20, the parameters of R9, the environment of R33. -/
structure State where
  /-- The parameters (00_scope.md R9); no step changes them. -/
  params : Params
  /-- `MODE` (R21). -/
  mode : Mode
  /-- `FAULT` (R22); `none` is the code 0. -/
  fault : Option FaultKind
  /-- `ACC` (R23, R24). -/
  acc : Acc
  /-- `OUT` (R27). -/
  out : Buffer
  /-- `IN` (R29). -/
  inp : Buffer
  /-- The model's own counter of how often the storage became unspecified (log entry 10). -/
  epoch : Nat
  /-- The environment (R33). -/
  env : Env
deriving DecidableEq, Repr

/-- Why the model stops. The block's own fatal errors are not here: they are next states (60_exceptions.md R148). -/
inductive Fault where
  /-- Raised for a word offered while `MODE = FAULTED` with no reset to come: it is not accepted and no command has a step
  (30_encoding.md R78, 60_exceptions.md R151, U5 'stuck'). Safe: the spec gives no next step. -/
  | notAccepted
  /-- Raised by a transaction that the environment never answers, with no reset to come (70_reset_and_hazards.md R176 'hangs
  the block in the middle of a command', U13 'stuck'). Safe: the spec gives no next step. -/
  | unanswered
  /-- Raised by a store at `OUT.pos ≥ OUT.cap` or a drain with `OUT.pos > OUT.cap`: the offset does not exist
  (20_memory.md R50). Safe: no run reaches it (42_primitive_writers.md R110). -/
  | outOfRange
deriving DecidableEq, Repr

/-- Why the model refuses an instruction. -/
inductive Refusal where
  /-- Raised by an arm of `exec` for an instruction without a meaning; no arm does. Safe: the run stops. -/
  | notModelled (mnemonic : String)
deriving DecidableEq, Repr

/-- The state right after hardware reset (R39), in an environment that has done nothing yet (log entry 13),
with the parameters' defaults (R9) and the largest storage for the two OPEN ones (log entry 1). -/
def State.reset : State where
  params := { nInMax := 16383#14, nOutMax := 16383#14, reversedDebug := false, alignOnBoundary := .pad8 }
  mode := .uninit
  fault := none
  acc := { len := 0#5, val := 0#16 }
  out := { cap := 0#14, pos := 0#14, mem := [] }
  inp := { cap := 0#14, pos := 0#14, mem := [] }
  epoch := 0
  env := { port := [], sinkAnswers := [], sourceAnswers := [], seekResets := [], freeTick := 0, sink := [], src := [], srcPos := 0, hooks := [], log := [] }

end Sys2Proof.Machine
end

