-- ==== Sys2Proof/Machine/Operands.lean ====
section
/-! DEFINITION. The arithmetic on operands: byte order and the shifts of the bit writer (00_scope.md R12). -/

namespace Sys2Proof.Machine

/-- `hi8(w) = w[15:8]` (R12). -/
def hi8 (w : Word) : Byte := w.extractLsb' 8 8

/-- `lo8(w) = w[7:0]` (R12). -/
def lo8 (w : Word) : Byte := w.extractLsb' 0 8

/-- `shr(v, n)`: logical right shift, 0 from 16 on (R12). -/
def shr (v : Word) (n : Nat) : Word := v >>> n

/-- `shl16(v, n)`: left shift cut to 16 bits, 0 from 16 on (R12, D18). -/
def shl16 (v : Word) (n : Nat) : Word := v <<< n

/-- `ones(n) = 2^n - 1` (R12). -/
def ones (n : Nat) : Word := BitVec.ofNat 16 (2 ^ n - 1)

/-- `total = L + ACC.len`, a natural number (43_bit_writer.md R121, R124). -/
def totalBits (len : Nat) (a : Acc) : Nat := len + a.len.toNat

/-- `r = ACC.len mod 8`, the source's `over_flow` (43_bit_writer.md R126). -/
def alignRemainder (a : Acc) : Nat := a.len.toNat % 8

/-- `n`, the length of the padding code (43_bit_writer.md R126, 90_conflicts.md C1). -/
def padLength (p : AlignOnBoundary) (a : Acc) : Nat :=
  if p = .noPad ∧ alignRemainder a = 0 then 0 else 8 - alignRemainder a

/-- The distance of the reversed debug rewind, `-2 * IN.cap` (41_buffer.md R105). -/
def rewindDelta (cap : Cursor) : Int := -2 * (cap.toNat : Int)

end Sys2Proof.Machine
end

