-- ==== Sys2Proof/Machine/Flags.lean ====
section
/-! DEFINITION. The block has no flags (10_state.md R36): here stand the conditions that R36 lists, each computed and
consumed inside one command, and the codes that the status port shows. -/

namespace Sys2Proof.Machine

/-- `overflow ≥ 0`: the code fills or overflows the 16-bit window (43_bit_writer.md R121). -/
def windowFilled (total : Nat) : Bool := decide (16 ≤ total)

/-- `b = 0xFF`: a stuffing byte follows (43_bit_writer.md R120). -/
def needsStuffing (b : Byte) : Bool := b == 0xFF#8

/-- `OUT.pos = OUT.cap`: the buffer must be drained (42_primitive_writers.md R110). -/
def bufferFull (b : Buffer) : Bool := b.pos == b.cap

/-- `ACC.len = 8`: exactly one byte is pending after the padding (43_bit_writer.md R126). -/
def bytePending (a : Acc) : Bool := a.len == 8#5

/-- `k < n`: a short write or a short read (41_buffer.md R100, R102). -/
def short (k n : Nat) : Bool := decide (k < n)

/-- The code of `MODE` (10_state.md R20). -/
def Mode.code : Mode → BitVec 2
  | .uninit => 0#2
  | .ready => 1#2
  | .faulted => 2#2

/-- The code of a kind in `FAULT` (60_exceptions.md R140). -/
def FaultKind.code : FaultKind → BitVec 3
  | .allocationError => 1#3
  | .shortReadError => 2#3
  | .shortWriteError => 3#3
  | .bufferWriteError => 4#3
  | .illegalCommand => 5#3

/-- `MODE` on the status port (10_state.md R32). -/
def State.statusMode (s : State) : BitVec 2 := s.mode.code

/-- `FAULT` on the status port (10_state.md R32): 0 while no fault was raised. -/
def State.statusFault (s : State) : BitVec 3 :=
  match s.fault with
  | none => 0#3
  | some kind => kind.code

end Sys2Proof.Machine
end

