-- ==== Sys2Proof/Machine/Ops.lean ====
section
/-! DEFINITION. The named operations that the commands are made of: storage, the environment's transactions
(00_scope.md R14), reset (70_reset_and_hazards.md R160), fault entry (60_exceptions.md R148), Drain (41_buffer.md R100),
WriteByte (42_primitive_writers.md R110) and the acceptance of a command (30_encoding.md R78). -/

namespace Sys2Proof.Machine

/-! ## Storage -/

/-- The byte at an offset, none where nothing is written. -/
def Memory.read : Memory → Nat → Option Byte
  | [], _ => none
  | (b, v) :: m, a => if a = b then some v else Memory.read m a

/-- Store one byte, offsets kept strictly rising. -/
def Memory.write : Memory → Nat → Byte → Memory
  | [], a, v => [(a, v)]
  | (b, w) :: m, a, v =>
    if a < b then (a, v) :: (b, w) :: m
    else if a = b then (a, v) :: m
    else (b, w) :: Memory.write m a v

/-- Store bytes at consecutive offsets, the first at `a`. -/
def Memory.store (m : Memory) (a : Nat) : List Byte → Memory
  | [] => m
  | b :: bs => Memory.store (Memory.write m a b) (a + 1) bs

/-- Store zero at the offsets `0 .. n-1`. -/
def Memory.zeroFill (m : Memory) (n : Nat) : Memory :=
  Memory.store m 0 (List.replicate n 0#8)

/-- The canonical form: offsets strictly rise. (An unlisted offset reads as no byte, so no entry equals it.) -/
abbrev Memory.wf (m : Memory) : Prop := m.Pairwise (fun x y => x.1 < y.1)

/-- `OUT.mem[i]`; at an unwritten offset a free value (U6, log entry 9). -/
def State.outByte (s : State) (i : Nat) : Byte :=
  match Memory.read s.out.mem i with
  | some b => b
  | none => Config.unwrittenByte s.epoch i

/-- `OUT.mem[0 .. OUT.pos-1]`: the emitted bytes not yet drained, oldest first (10_state.md R27). -/
def State.buffered (s : State) : List Byte :=
  (List.range s.out.pos.toNat).map s.outByte

/-- `SINK ++ OUT.mem[0 .. OUT.pos-1]` (20_memory.md R64). -/
def State.stream (s : State) : List Byte := s.env.sink ++ s.buffered

/-! ## What the block says on its ports -/

/-- Record one event on a port. -/
def State.say (e : PortEvent) (s : State) : State :=
  { s with env := { s.env with log := s.env.log ++ [e] } }

/-- The completion of a command. -/
def State.complete (c : Completion) (s : State) : State := s.say (.completed c)

/-! ## Reset -/

/-- Hardware reset (R160): the block's registers take the values of 10_state.md R39, its storage becomes
unspecified, the parameters and the environment stay. -/
def resetBlock (s : State) : State :=
  { State.reset with params := s.params, epoch := s.epoch + 1, env := s.env }

/-- The stimulus asserts reset. -/
def Stimulus.resets : Stimulus → Bool
  | .word _ => false
  | .wordThenReset _ => true
  | .reset => true

/-- A reset is still to come. -/
def State.resetToCome (s : State) : Bool := s.env.port.any Stimulus.resets

/-- The stimuli from the first reset on: the words before it find a block that accepts none. -/
def State.portFromReset (s : State) : List Stimulus := s.env.port.dropWhile fun x => !x.resets

/-- A block that waits for an answer hangs until reset is asserted (R176); the next reset to come abandons the command
(R160), and what was offered before it was never accepted (log entry 7). -/
def resetWhileHung (s : State) : State :=
  resetBlock { s with env := { s.env with port := s.portFromReset.tail } }

/-! ## Faults -/

/-- `raise Fault(kind)` (R148): the kind is recorded, the block becomes FAULTED, the hook is signalled once, the
command completes with status fault; `ACC`, `OUT` and `IN` keep their values. There is no return (R151). -/
def raise (kind : FaultKind) (s : State) : State :=
  { s with
    fault := some kind
    mode := .faulted
    env := { s.env with
      hooks := s.env.hooks ++ [kind]
      log := s.env.log ++ [.hook kind, .completed .fault] } }

/-! ## The environment's choices -/

/-- The answer of the environment where the state fixes none: free values, always an answer (R176; log entry 4). -/
def freeAnswer (tick : Nat) : Answer :=
  if Config.freeReset tick then .takeThenReset (Config.freeCount tick) else .take (Config.freeCount tick)

/-- The sink's answer to its next transaction. -/
def State.sinkAnswer (s : State) : Answer :=
  match s.env.sinkAnswers with
  | a :: _ => a
  | [] => freeAnswer s.env.freeTick

/-- The sink's next answer is used up: the first fixed one, or one choice of the free values. -/
def State.popSink (s : State) : State :=
  { s with env := { s.env with
      sinkAnswers := s.env.sinkAnswers.tail
      freeTick := if s.env.sinkAnswers.isEmpty then s.env.freeTick + 1 else s.env.freeTick } }

/-- The source stream's answer to its next transaction. -/
def State.sourceAnswer (s : State) : Answer :=
  match s.env.sourceAnswers with
  | a :: _ => a
  | [] => freeAnswer s.env.freeTick

/-- The source stream's next answer is used up: the first fixed one, or one choice of the free values. -/
def State.popSource (s : State) : State :=
  { s with env := { s.env with
      sourceAnswers := s.env.sourceAnswers.tail
      freeTick := if s.env.sourceAnswers.isEmpty then s.env.freeTick + 1 else s.env.freeTick } }

/-- `SinkWrite(bytes) -> k` (20_memory.md R59): the sink appends the first `k` bytes. -/
def sinkWrite (bytes : List Byte) (k : Nat) (s : State) : State :=
  { s with env := { s.env with
      sink := s.env.sink ++ bytes.take k
      log := s.env.log ++ [.sinkWrite bytes k] } }

/-- The bytes that a read answered with `k` delivers: at most `n`, from the file's position on (20_memory.md R61). -/
def State.sourceData (s : State) (n k : Nat) : List Byte :=
  (s.env.src.drop s.env.srcPos).take (min k n)

/-- `SourceRead(n) -> data` (20_memory.md R61): the file's position advances by the length of `data`. -/
def sourceRead (n : Nat) (data : List Byte) (s : State) : State :=
  { s with env := { s.env with
      srcPos := s.env.srcPos + data.length
      log := s.env.log ++ [.sourceRead n data] } }

/-- The position a seek aims at; negative is out of range. -/
def seekTarget (delta : Int) (s : State) : Int := (s.env.srcPos : Int) + delta

/-- `SourceSeek(delta)` (20_memory.md R62): the position moves by `delta`; where it would be negative it is a free
value (U9, log entry 12). R32 calls the source port one 'with answer', but R102 and R157 give a seek none: that the block
waits for nothing here, so that a seek cannot hang it, is the model's choice (log entry 22). -/
def sourceSeek (delta : Int) (s : State) : State :=
  { s with env := { s.env with
      srcPos := if 0 ≤ seekTarget delta s then (seekTarget delta s).toNat else Config.freeSeekPosition s.env.freeTick
      freeTick := if 0 ≤ seekTarget delta s then s.env.freeTick else s.env.freeTick + 1
      log := s.env.log ++ [.sourceSeek delta] } }

/-- Whether reset is asserted right after the next seek (R160). -/
def State.seekReset (s : State) : Bool :=
  match s.env.seekResets with
  | b :: _ => b
  | [] => Config.freeReset s.env.freeTick

/-- That choice is used up: the first fixed one, or one choice of the free values. -/
def State.popSeek (s : State) : State :=
  { s with env := { s.env with
      seekResets := s.env.seekResets.tail
      freeTick := if s.env.seekResets.isEmpty then s.env.freeTick + 1 else s.env.freeTick } }

/-! ## Running a procedure -/

/-- How a procedure ends (00_scope.md R15, R16). -/
inductive Run where
  /-- It ran to its end. -/
  | ok (s : State)
  /-- The command ended inside it: a fault was raised, or reset was asserted. -/
  | ended (s : State)
  /-- The model stops. -/
  | stop (f : Fault)
deriving DecidableEq, Repr

/-- Statements run in the order written (R16); after the end of the command nothing more runs (R15). -/
def Run.andThen (r : Run) (next : State → Run) : Run :=
  match r with
  | .ok s => next s
  | .ended s => .ended s
  | .stop f => .stop f

/-- The end of a command: a procedure that ran to its end completes with `done`. -/
def Run.outcome : Run → Host.Outcome State Fault Refusal
  | .ok s => .next (s.complete .done)
  | .ended s => .next s
  | .stop f => .fault f

/-! ## Drain -/

/-- What Drain answers its caller (41_buffer.md R100), and the two ends that are not the block's. -/
inductive Drained where
  | ok (s : State)
  | fail (s : State)
  /-- Reset was asserted right after the sink's answer, or instead of it (U18). -/
  | ended (s : State)
  /-- The model stops. -/
  | stop (f : Fault)
deriving DecidableEq, Repr

/-- The drained region is zero-filled and the cursor reset (41_buffer.md R100, 'on success'). -/
def clearOut (s : State) : State :=
  { s with out := { s.out with mem := Memory.zeroFill s.out.mem s.out.pos.toNat, pos := 0#14 } }

/-- `Drain()` (41_buffer.md R100). -/
def drain (s : State) : Drained :=
  if s.out.pos = 0#14 then .ok s
  else if s.out.cap < s.out.pos then .stop .outOfRange
  else
    match s.sinkAnswer with
    | .never =>
      if s.resetToCome then .ended (resetWhileHung (sinkWrite s.buffered 0 s.popSink)) else .stop .unanswered
    | .takeThenReset k => .ended (resetBlock (sinkWrite s.buffered (min k s.out.pos.toNat) s.popSink))
    | .take k =>
      if short k s.out.pos.toNat then .fail (sinkWrite s.buffered k s.popSink)
      else .ok (clearOut (sinkWrite s.buffered s.out.pos.toNat s.popSink))

/-- `if Drain() = fail: raise Fault(kind)`. -/
def drainOr (kind : FaultKind) (s : State) : Run :=
  match drain s with
  | .ok s' => .ok s'
  | .fail s' => .ended (raise kind s')
  | .ended s' => .ended s'
  | .stop f => .stop f

/-! ## WriteByte -/

/-- `OUT.mem[OUT.pos] <- v; OUT.pos <- OUT.pos + 1` (42_primitive_writers.md R110). -/
def pushByte (v : Byte) (s : State) : State :=
  { s with out := { s.out with mem := Memory.write s.out.mem s.out.pos.toNat v, pos := s.out.pos + 1#14 } }

/-- `WriteByte(v)` (42_primitive_writers.md R110). -/
def writeByte (v : Byte) (s : State) : Run :=
  if s.out.pos < s.out.cap then
    if bufferFull (pushByte v s).out then drainOr .bufferWriteError (pushByte v s) else .ok (pushByte v s)
  else .stop .outOfRange

/-! ## Acceptance -/

/-- A word that is no legal command, or a command in the wrong mode: `raise Fault(IllegalCommand)`, unless the block
is FAULTED and accepts nothing (30_encoding.md R78, R79, R80). -/
def rejectWord (s : State) : Host.Outcome State Fault Refusal :=
  match s.mode with
  | .faulted => .fault .notAccepted
  | .uninit => .next (raise .illegalCommand s)
  | .ready => .next (raise .illegalCommand s)

/-- The decode order (30_encoding.md R78) around a command's own pseudocode: its operands must be legal (R79) and the
mode the one it requires (R80). -/
def accept (need : Mode) (legal : Bool) (body : State → Run) (s : State) : Host.Outcome State Fault Refusal :=
  if legal = true ∧ s.mode = need then (body s).outcome else rejectWord s

/-! ## The next stimulus -/

/-- What the block takes in next, from the command port and the reset input. FAULTED accepts no word and only a reset
leaves it (60_exceptions.md R151): a reset behind offered words arrives all the same (70_reset_and_hazards.md R160),
and those words were never accepted (log entry 7). -/
def State.arrivals (s : State) : List Stimulus :=
  if s.mode = .faulted ∧ s.resetToCome = true then s.portFromReset else s.env.port

/-- The next arrival is past. -/
def State.popPort (s : State) : State :=
  { s with env := { s.env with port := s.arrivals.tail } }

end Sys2Proof.Machine
end

