-- ==== Sys2Proof/Machine/BitWriter.lean ====
section
/-! DEFINITION. The bit-level writer WRITE_BITS and WRITE_ALIGN_BITS (43_bit_writer.md). -/

namespace Sys2Proof.Machine

/-- `EmitStuffed(b)` (R120). -/
def emitStuffed (b : Byte) (s : State) : Run :=
  (writeByte b s).andThen fun s => if needsStuffing b then writeByte 0x00#8 s else .ok s

/-- Write `ACC`. -/
def setAcc (a : Acc) (s : State) : State := { s with acc := a }

/-- `letter`: the full 16-bit word of the overflow path, `overflow = total - 16` (R121). -/
def letterOf (len : Nat) (val : Word) (a : Acc) : Word :=
  a.val ||| shr val (totalBits len a - 16)

/-- `ACC` after `WriteBits(L, val)`: both paths of R121. -/
def accAfter (len : Nat) (val : Word) (a : Acc) : Acc :=
  if windowFilled (totalBits len a) then
    { len := BitVec.ofNat 5 (totalBits len a - 16), val := shl16 val (16 - (totalBits len a - 16)) }
  else
    { len := BitVec.ofNat 5 (totalBits len a), val := a.val ||| shl16 val (16 - totalBits len a) }

/-- `WriteBits(L, val)` (R121): `ACC` is written after both bytes are emitted (D29). -/
def writeBits (len : Nat) (val : Word) (s : State) : Run :=
  if windowFilled (totalBits len s.acc) then
    ((emitStuffed (hi8 (letterOf len val s.acc)) s).andThen (emitStuffed (lo8 (letterOf len val s.acc)))).andThen
      fun s' => .ok (setAcc (accAfter len val s.acc) s')
  else .ok (setAcc (accAfter len val s.acc) s)

/-- WRITE_BITS (R122). -/
def execWriteBits (len : BitVec 5) (val : Word) (s : State) : Host.Outcome State Fault Refusal :=
  accept .ready (lenLegal len && valueFits len val) (writeBits len.toNat val) s

/-- Step 3 of WRITE_ALIGN_BITS (R126): a byte left pending by the padding is emitted and `ACC` cleared (90_conflicts.md C2). -/
def flushByte (s : State) : Run :=
  if bytePending s.acc then
    (emitStuffed (hi8 s.acc.val) s).andThen fun s => .ok (setAcc { len := 0#5, val := 0#16 } s)
  else .ok s

/-- The pseudocode of R126: pad with 1-bits, then step 3. -/
def alignBody (s : State) : Run :=
  (writeBits (padLength s.params.alignOnBoundary s.acc) (ones (padLength s.params.alignOnBoundary s.acc)) s).andThen flushByte

/-- WRITE_ALIGN_BITS (R126). -/
def execWriteAlignBits (s : State) : Host.Outcome State Fault Refusal :=
  accept .ready true alignBody s

end Sys2Proof.Machine
end

