-- ==== Sys2Proof/Machine/BufferOps.lean ====
section
/-! DEFINITION. The buffer commands DRAIN_OUT and REFILL_IN (41_buffer.md); the procedure Drain is in Ops. -/

namespace Sys2Proof.Machine

/-- DRAIN_OUT (R101). -/
def execDrainOut (s : State) : Host.Outcome State Fault Refusal :=
  accept .ready true (drainOr .shortWriteError) s

/-- The whole input storage is cleared before the read (R102, D31). -/
def clearIn (s : State) : State :=
  { s with inp := { s.inp with mem := Memory.zeroFill s.inp.mem s.inp.cap.toNat } }

/-- The read is made and its bytes are in the storage from offset 0 on (R102). -/
def receive (data : List Byte) (s : State) : State :=
  { sourceRead s.inp.cap.toNat data s with inp := { s.inp with mem := Memory.store s.inp.mem 0 data } }

/-- `IN.pos <- 0` (R102). -/
def rewindIn (s : State) : State := { s with inp := { s.inp with pos := 0#14 } }

/-- The seek of the reversed debug mode (R105), after which reset may be asserted before the command completes (R160). -/
def seekBack (s : State) : Run :=
  if (sourceSeek (rewindDelta s.inp.cap) s).seekReset then
    .ended (resetBlock (sourceSeek (rewindDelta s.inp.cap) s).popSeek)
  else .ok (sourceSeek (rewindDelta s.inp.cap) s).popSeek

/-- Last statement of Refill (R102): the seek, in the reversed debug mode only. -/
def debugSeek (s : State) : Run :=
  if s.params.reversedDebug then seekBack s else .ok s

/-- `Refill()` (R102). -/
def refill (s : State) : Run :=
  match s.sourceAnswer with
  | .never => if s.resetToCome then .ended (resetWhileHung (receive [] (clearIn s.popSource))) else .stop .unanswered
  | .takeThenReset k => .ended (resetBlock (receive (s.sourceData s.inp.cap.toNat k) (clearIn s.popSource)))
  | .take k =>
    if short (s.sourceData s.inp.cap.toNat k).length s.inp.cap.toNat then
      .ended (raise .shortReadError (receive (s.sourceData s.inp.cap.toNat k) (clearIn s.popSource)))
    else
      debugSeek (rewindIn (receive (s.sourceData s.inp.cap.toNat k) (clearIn s.popSource)))

/-- REFILL_IN (R103). -/
def execRefillIn (s : State) : Host.Outcome State Fault Refusal :=
  accept .ready true refill s

end Sys2Proof.Machine
end

