-- ==== Sys2Proof/Machine/Lifecycle.lean ====
section
/-! DEFINITION. The lifecycle commands INIT and DESTROY (40_lifecycle.md). -/

namespace Sys2Proof.Machine

/-- The controller is created: capacities and cursors set, both storages unspecified, `ACC` empty, READY (R90, 10_state.md R40). -/
def create (inCap outCap : Cursor) (s : State) : State :=
  { s with
    inp := { cap := inCap, pos := 0#14, mem := [] }
    out := { cap := outCap, pos := 0#14, mem := [] }
    acc := { len := 0#5, val := 0#16 }
    epoch := s.epoch + 1
    mode := .ready }

/-- `INIT(in_cap, out_cap)`, the pseudocode of R90. -/
def initBody (inCap outCap : Cursor) (s : State) : Run :=
  if s.params.nInMax < inCap then .ended (raise .allocationError s)
  else if s.params.nOutMax < outCap then .ended (raise .allocationError s)
  else .ok (create inCap outCap s)

/-- INIT (40_lifecycle.md R90). -/
def execInit (inCap outCap : Cursor) (s : State) : Host.Outcome State Fault Refusal :=
  accept .uninit (capsLegal inCap outCap) (initBody inCap outCap) s

/-- `DESTROY`, the pseudocode of R91; only `MODE` changes after the drain (D26). -/
def destroyBody (s : State) : Run :=
  (drainOr .shortWriteError s).andThen fun s => .ok { s with mode := .uninit }

/-- DESTROY (40_lifecycle.md R91). -/
def execDestroy (s : State) : Host.Outcome State Fault Refusal :=
  accept .ready true destroyBody s

end Sys2Proof.Machine
end

