-- ==== Sys2Proof/Machine/Writers.lean ====
section
/-! DEFINITION. The primitive writers WRITE_BYTE, WRITE_WORD, WRITE_MARKER (42_primitive_writers.md). -/

namespace Sys2Proof.Machine

/-- WRITE_BYTE (R111). -/
def execWriteByte (v : Byte) (s : State) : Host.Outcome State Fault Refusal :=
  accept .ready true (writeByte v) s

/-- Two bytes, one after the other. -/
def writeTwo (first second : Byte) (s : State) : Run :=
  (writeByte first s).andThen (writeByte second)

/-- WRITE_WORD (R112): high byte first. -/
def execWriteWord (v : Word) (s : State) : Host.Outcome State Fault Refusal :=
  accept .ready true (writeTwo (hi8 v) (lo8 v)) s

/-- WRITE_MARKER (R113): the prefix `0xFF`, then the code, never stuffed. -/
def execWriteMarker (code : Byte) (s : State) : Host.Outcome State Fault Refusal :=
  accept .ready true (writeTwo 0xFF#8 code) s

end Sys2Proof.Machine
end

