-- ==== Sys2Proof/Machine/Dispatch.lean ====
section
/-! DEFINITION. The meaning of every command (30_encoding.md R71). -/

namespace Sys2Proof.Machine

def exec (i : Instr) (s : State) : Host.Outcome State Fault Refusal :=
  match i with
  | .init inCap outCap => Sys2Proof.Machine.execInit inCap outCap s
  | .destroy => Sys2Proof.Machine.execDestroy s
  | .writeByte v => Sys2Proof.Machine.execWriteByte v s
  | .writeWord v => Sys2Proof.Machine.execWriteWord v s
  | .writeMarker code => Sys2Proof.Machine.execWriteMarker code s
  | .writeBits len val => Sys2Proof.Machine.execWriteBits len val s
  | .writeAlignBits => Sys2Proof.Machine.execWriteAlignBits s
  | .refillIn => Sys2Proof.Machine.execRefillIn s
  | .drainOut => Sys2Proof.Machine.execDrainOut s

end Sys2Proof.Machine
end

