-- ==== Sys2Proof/Machine/Step.lean ====
section
/-! DEFINITION. One step: the next stimulus of the command port or the reset input (10_state.md R35, 30_encoding.md R78,
70_reset_and_hazards.md R160). -/

namespace Sys2Proof.Machine

/-- With nothing on the port the block waits with all state held (60_exceptions.md R155); a reset resets it in any mode
(R160), where it stands behind words that FAULTED does not accept too; a word is decoded and executed, or rejected
(30_encoding.md R78); a word whose command reset abandons at once changes nothing but what the reset does (R160). -/
def step (s : State) : Host.Outcome State Fault Refusal :=
  match s.arrivals with
  | [] => .next s
  | .reset :: _ => .next (resetBlock s.popPort)
  | .wordThenReset _ :: _ => .next (resetBlock s.popPort)
  | .word w :: _ =>
    match decode w with
    | .ok i => exec i s.popPort
    | .error _ => rejectWord s.popPort

/-- The command word is the next stimulus of the command port: the block fetches nothing, its commands arrive there (R35). -/
def State.withFetchWord (s : State) (nbits w : Nat) : State :=
  { s with env := { s.env with port := .word (BitVec.ofNat 32 (w % 2 ^ nbits)) :: s.env.port } }

end Sys2Proof.Machine
end

