-- ==== Sys2Proof/Safety.lean ====
section
/-! DEFINITION. What a safe run keeps, and the terms in which statements speak of the byte and bit stream
(10_state.md R25 to R30, 20_memory.md R60 and R64, 43_bit_writer.md R126 and R129). -/

namespace Sys2Proof.Machine

/-! ## Invariants -/

/-- The accumulator between commands: at most 15 pending bits (R26), every bit below them zero (R25). -/
abbrev AccOk (a : Acc) : Prop := a.len.toNat ≤ 15 ∧ a.val <<< a.len.toNat = 0#16

/-- A buffer's storage: canonical, and no byte at an offset beyond the capacity (20_memory.md R50). -/
abbrev BufferOk (b : Buffer) : Prop := Memory.wf b.mem ∧ ∀ c ∈ b.mem, c.1 < b.cap.toNat

/-- The accepted prefix of every sink transaction, concatenated in order (20_memory.md R60). -/
def acceptedOf : List PortEvent → List Byte
  | [] => []
  | .sinkWrite bytes k :: l => bytes.take k ++ acceptedOf l
  | .sourceRead _ _ :: l => acceptedOf l
  | .sourceSeek _ :: l => acceptedOf l
  | .hook _ :: l => acceptedOf l
  | .completed _ :: l => acceptedOf l

/-- The events on the fault port, in order (60_exceptions.md R148). -/
def hooksOf : List PortEvent → List FaultKind
  | [] => []
  | .hook kind :: l => kind :: hooksOf l
  | .sinkWrite _ _ :: l => hooksOf l
  | .sourceRead _ _ :: l => hooksOf l
  | .sourceSeek _ :: l => hooksOf l
  | .completed _ :: l => hooksOf l

/-- What holds between commands, in every mode. -/
structure State.Inv (s : State) : Prop where
  /-- `1 ≤ N_IN_MAX`, `1 ≤ N_OUT_MAX` (00_scope.md R9). -/
  params : s.params.nInMax ≠ 0#14 ∧ s.params.nOutMax ≠ 0#14
  /-- R25, R26. -/
  acc : AccOk s.acc
  /-- The output storage. -/
  out : BufferOk s.out
  /-- The input storage. -/
  inp : BufferOk s.inp
  /-- `0 ≤ OUT.pos ≤ OUT.cap` (R28). -/
  outPos : s.out.pos.toNat ≤ s.out.cap.toNat
  /-- `IN.pos` is 0 (R30). -/
  inPos : s.inp.pos = 0#14
  /-- Every byte that a drain reads has been stored (R40). -/
  written : ∀ i < s.out.pos.toNat, (Memory.read s.out.mem i).isSome = true
  /-- The capacities fit the physical storage (R37). -/
  caps : s.out.cap.toNat ≤ s.params.nOutMax.toNat ∧ s.inp.cap.toNat ≤ s.params.nInMax.toNat
  /-- In READY `OUT.pos < OUT.cap` (R28) and `IN.cap ≥ 1` (R37). -/
  ready : s.mode = .ready → s.out.pos.toNat < s.out.cap.toNat ∧ s.inp.cap ≠ 0#14
  /-- In UNINIT nothing is buffered (40_lifecycle.md R91). -/
  uninit : s.mode = .uninit → s.out.pos = 0#14
  /-- `FAULT` holds a kind exactly in FAULTED (R22, 60_exceptions.md R148). -/
  fault : s.mode = .faulted ↔ s.fault ≠ none
  /-- `SINK` is what the sink accepted (20_memory.md R60). -/
  sink : s.env.sink = acceptedOf s.env.log
  /-- `HOOKS` is what the fault port said. -/
  hooks : s.env.hooks = hooksOf s.env.log

/-! ## The byte stream -/

/-- A data byte with its stuffing byte (43_bit_writer.md R120). -/
def stuffed (b : Byte) : List Byte := if b = 0xFF#8 then [b, 0x00#8] else [b]

/-- Data bytes with their stuffing bytes. -/
def stuff (data : List Byte) : List Byte := data.flatMap stuffed

/-- Every `FF` is immediately followed by `00` (43_bit_writer.md R130). -/
def StuffedOk (l : List Byte) : Prop := ∀ i, l[i]? = some 0xFF#8 → l[i + 1]? = some 0x00#8

/-- The data bytes that `WriteBits(L, val)` emits (43_bit_writer.md R121, R122 'Bytes stored'). -/
def writeBitsData (len : Nat) (val : Word) (a : Acc) : List Byte :=
  if 16 ≤ len + a.len.toNat then [hi8 (letterOf len val a), lo8 (letterOf len val a)] else []

/-- What WRITE_ALIGN_BITS adds on a byte boundary (90_conflicts.md C1). -/
def boundaryPad : AlignOnBoundary → List Byte
  | .pad8 => [0xFF#8]
  | .noPad => []

/-- The data bytes that WRITE_ALIGN_BITS emits: the table of 43_bit_writer.md R126. -/
def alignData (p : AlignOnBoundary) (a : Acc) : List Byte :=
  if a.len.toNat = 0 then boundaryPad p
  else if a.len.toNat < 8 then [hi8 a.val ||| lo8 (ones (8 - a.len.toNat))]
  else if a.len.toNat = 8 then hi8 a.val :: boundaryPad p
  else [hi8 a.val, lo8 a.val ||| lo8 (ones (16 - a.len.toNat))]

/-- The bytes that a command adds to the stream when it completes with `done`. -/
def emitted (p : AlignOnBoundary) (a : Acc) : Instr → List Byte
  | .init _ _ => []
  | .destroy => []
  | .writeByte v => [v]
  | .writeWord v => [hi8 v, lo8 v]
  | .writeMarker code => [0xFF#8, code]
  | .writeBits len val => stuff (writeBitsData len.toNat val a)
  | .writeAlignBits => stuff (alignData p a)
  | .refillIn => []
  | .drainOut => []

/-! ## The bit stream -/

/-- The bits of a byte, the earliest first (20_memory.md R54). -/
def byteBits (b : Byte) : List Bool := (List.range 8).map fun j => b.getLsbD (7 - j)

/-- The bits of data bytes, the earliest first. -/
def dataBits (data : List Byte) : List Bool := data.flatMap byteBits

/-- The bits of a code, `val[L-1]` first (20_memory.md R54). -/
def codeBits (len : Nat) (val : Word) : List Bool := (List.range len).map fun j => val.getLsbD (len - 1 - j)

/-- The pending bits, `ACC.val[15]` first (10_state.md R24). -/
def pendingBits (a : Acc) : List Bool := (List.range a.len.toNat).map fun j => a.val.getLsbD (15 - j)

/-- WRITE_BITS for each code of a list, one after the other. -/
def writeCodes : List (BitVec 5 × Word) → State → Host.Outcome State Fault Refusal
  | [], s => .next s
  | c :: cs, s =>
    match exec (.writeBits c.1 c.2) s with
    | .next t => writeCodes cs t
    | .fault f => .fault f
    | .refused r => .refused r

/-! ## Words and faults -/

/-- The cases in which a word is illegal (30_encoding.md R79). -/
def illegalWord (w : CmdWord) : Prop :=
  fieldOp w = 0x0#4 ∨ 0xA#4 ≤ fieldOp w ∨
  (2#4 ≤ fieldOp w ∧ fieldOp w ≤ 9#4 ∧ fieldZ w ≠ 0#7) ∨
  (2#4 ≤ fieldOp w ∧ fieldOp w ≤ 9#4 ∧ fieldOp w ≠ 6#4 ∧ fieldLen w ≠ 0#5) ∨
  ((fieldOp w = 3#4 ∨ fieldOp w = 5#4) ∧ fieldDataHigh w ≠ 0#8) ∨
  ((fieldOp w = 2#4 ∨ fieldOp w = 7#4 ∨ fieldOp w = 8#4 ∨ fieldOp w = 9#4) ∧ fieldData w ≠ 0#16) ∨
  (fieldOp w = 6#4 ∧ (16 < (fieldLen w).toNat ∨ 2 ^ (fieldLen w).toNat ≤ (fieldData w).toNat)) ∨
  (fieldOp w = 1#4 ∧ (fieldInCap w = 0#14 ∨ fieldOutCap w = 0#14))

/-- The table of 60_exceptions.md R146: which command can raise which kind. -/
def mayRaise : Instr → FaultKind → Bool
  | _, .illegalCommand => true
  | .init _ _, .allocationError => true
  | .destroy, .shortWriteError => true
  | .drainOut, .shortWriteError => true
  | .writeByte _, .bufferWriteError => true
  | .writeWord _, .bufferWriteError => true
  | .writeMarker _, .bufferWriteError => true
  | .writeBits _ _, .bufferWriteError => true
  | .writeAlignBits, .bufferWriteError => true
  | .refillIn, .shortReadError => true
  | _, _ => false

/-- One command for every cell of that table that says yes. -/
def raiseCases : List (Instr × FaultKind) :=
  [(.init 1 1, .illegalCommand), (.destroy, .illegalCommand), (.writeByte 0, .illegalCommand),
   (.writeWord 0, .illegalCommand), (.writeMarker 0, .illegalCommand), (.writeBits 0 0, .illegalCommand),
   (.writeAlignBits, .illegalCommand), (.refillIn, .illegalCommand), (.drainOut, .illegalCommand),
   (.init 5 4, .allocationError), (.refillIn, .shortReadError), (.destroy, .shortWriteError),
   (.drainOut, .shortWriteError), (.writeByte 0, .bufferWriteError), (.writeWord 0, .bufferWriteError),
   (.writeMarker 0, .bufferWriteError), (.writeBits 16 0, .bufferWriteError), (.writeAlignBits, .bufferWriteError)]

/-- The last event on the ports is a completion with `done`. -/
def State.completedDone (s : State) : Prop := s.env.log.getLast? = some (.completed .done)

/-- How many sink transactions a record holds. -/
def countSinkWrites : List PortEvent → Nat
  | [] => 0
  | .sinkWrite _ _ :: l => countSinkWrites l + 1
  | .sourceRead _ _ :: l => countSinkWrites l
  | .sourceSeek _ :: l => countSinkWrites l
  | .hook _ :: l => countSinkWrites l
  | .completed _ :: l => countSinkWrites l

/-- The events of the source port. -/
def PortEvent.isSource : PortEvent → Bool
  | .sourceRead _ _ => true
  | .sourceSeek _ => true
  | .sinkWrite _ _ => false
  | .hook _ => false
  | .completed _ => false

/-- A sink transaction offers 1 to `cap` bytes and its answer is at most as many (20_memory.md R59); every other event
is unconstrained here. -/
def PortEvent.sinkWriteOk (cap : Nat) : PortEvent → Prop
  | .sinkWrite bytes k => 1 ≤ bytes.length ∧ bytes.length ≤ cap ∧ k ≤ bytes.length
  | .sourceRead _ _ => True
  | .sourceSeek _ => True
  | .hook _ => True
  | .completed _ => True

/-! ## The environment -/

/-- The answer lets a transaction of `n` bytes succeed. -/
def Answer.acceptsAll (n : Nat) : Answer → Bool
  | .take k => decide (n ≤ k)
  | .takeThenReset _ => false
  | .never => false

/-- The sink will accept everything during the next command, which drains at most four times (R175). -/
abbrev State.SinkAcceptsAll (s : State) : Prop :=
  4 ≤ s.env.sinkAnswers.length ∧ ∀ a ∈ s.env.sinkAnswers.take 4, a.acceptsAll s.out.cap.toNat = true

/-! ## Commands that do not complete -/

/-- A reset abandoned the command that ran in `s` (70_reset_and_hazards.md R160): the registers have their reset values, the
sink keeps what it accepted, the command neither raised a fault nor completed. -/
structure Abandoned (s t : State) : Prop where
  params : t.params = s.params
  mode : t.mode = .uninit
  fault : t.fault = none
  acc : t.acc = { len := 0#5, val := 0#16 }
  /-- The storage is unspecified: no offset is written. -/
  out : t.out = { cap := 0#14, pos := 0#14, mem := [] }
  inp : t.inp = { cap := 0#14, pos := 0#14, mem := [] }
  src : t.env.src = s.env.src
  hooks : t.env.hooks = s.env.hooks
  /-- What the command said on its ports before. -/
  log : ∃ l, t.env.log = s.env.log ++ l ∧ t.env.sink = s.env.sink ++ acceptedOf l ∧ hooksOf l = [] ∧
    ∀ c, PortEvent.completed c ∉ l

/-- The command waits for an answer that never comes, `sunk` accepted before (R176, U13): with no reset to come the model
stops, and the next reset to come abandons the command. -/
def Hangs (i : Instr) (s : State) (sunk : List Byte) : Prop :=
  (s.resetToCome = false → exec i s = .fault .unanswered) ∧
  (s.resetToCome = true → ∃ t, exec i s = .next t ∧ Abandoned s t ∧ t.env.sink = s.env.sink ++ sunk ∧
    t.env.port = s.portFromReset.tail)

end Sys2Proof.Machine
end

