-- ==== Sys2Proof/Certificates/Slice0/Obligations.lean ====
section
/-! DEFINITION. The statements for the provers, in the order of the spec's files: each is about every state unless its
hypotheses say otherwise. `s.Inv` is the invariant that `StepKeepsInvariant` states. -/

open Sys2Proof Sys2Proof.Machine

/-! ## Encoding (30_encoding.md) -/

/-- A word decodes to a command exactly when the command is well formed and the word is its encoding (R73 to R79). -/
def Obligations.DecodeAndEncodeAgree : Prop :=
  ∀ (w : CmdWord) (i : Instr), decode w = .ok i ↔ i.wellFormed = true ∧ encode i = w

/-- A word decodes by the row of the opcode map that it selects, and no word selects two rows (R76). -/
def Obligations.DecodeFollowsOpcodeMap : Prop :=
  (∀ (w : CmdWord) (i : Instr), decode w = .ok i ↔ ∃ r ∈ opcodeMap, r.selects w ∧ r.read w = i) ∧
  opcodeMap.Pairwise (fun r r' => ∀ w, ¬(r.selects w ∧ r'.selects w))

/-- The illegal words are those of R79's list, the all-zero and the all-ones word among them; an illegal word raises
IllegalCommand and changes no other state. -/
def Obligations.IllegalWordsRaiseIllegalCommand : Prop :=
  (∀ w : CmdWord, (∃ e, decode w = .error e) ↔ illegalWord w) ∧
  illegalWord 0x00000000#32 ∧ illegalWord 0xFFFFFFFF#32 ∧
  (∀ (w : CmdWord) (rest : List Stimulus) (s : State), illegalWord w → s.mode ≠ .faulted → s.env.port = .word w :: rest →
    step s = .next { s with
      mode := .faulted
      fault := some .illegalCommand
      env := { s.env with
        port := rest
        hooks := s.env.hooks ++ [.illegalCommand]
        log := s.env.log ++ [.hook .illegalCommand, .completed .fault] } })

/-- R85: the example words, and the two formulas. -/
def Obligations.EncodingExamples : Prop :=
  decode 0x10010004#32 = .ok (.init 4 4) ∧ decode 0x14001000#32 = .ok (.init 4096 4096) ∧
  decode 0x20000000#32 = .ok .destroy ∧ decode 0x300000AB#32 = .ok (.writeByte 0xAB) ∧
  decode 0x40001234#32 = .ok (.writeWord 0x1234) ∧ decode 0x500000D9#32 = .ok (.writeMarker 0xD9) ∧
  decode 0x6004000B#32 = .ok (.writeBits 4 0b1011) ∧ decode 0x6010FFFF#32 = .ok (.writeBits 16 0xFFFF) ∧
  decode 0x60000000#32 = .ok (.writeBits 0 0) ∧ decode 0x70000000#32 = .ok .writeAlignBits ∧
  decode 0x80000000#32 = .ok .refillIn ∧ decode 0x90000000#32 = .ok .drainOut ∧
  (∀ a b : Cursor, (encode (.init a b)).toNat = 0x10000000 + a.toNat * 2 ^ 14 + b.toNat) ∧
  (∀ (l : BitVec 5) (v : Word), (encode (.writeBits l v)).toNat = 0x60000000 + l.toNat * 2 ^ 16 + v.toNat)

/-- The mode requirement of each command (R80): INIT executes in UNINIT only, every other command in READY only; in the
wrong mode IllegalCommand is raised and no other state changes; in FAULTED nothing is accepted. -/
def Obligations.ModeRequirement : Prop :=
  ∀ (i : Instr) (s : State), i.wellFormed = true →
    (s.mode = .faulted → exec i s = .fault .notAccepted) ∧
    ((s.mode = .ready ∧ (∃ a b, i = .init a b)) ∨ (s.mode = .uninit ∧ ∀ a b, i ≠ .init a b) →
      exec i s = .next { s with
        mode := .faulted
        fault := some .illegalCommand
        env := { s.env with
          hooks := s.env.hooks ++ [.illegalCommand]
          log := s.env.log ++ [.hook .illegalCommand, .completed .fault] } }) ∧
    ((s.mode = .uninit ∧ (∃ a b, i = .init a b)) ∨ (s.mode = .ready ∧ ∀ a b, i ≠ .init a b) →
      s.fault = none → ∀ t, exec i s = .next t → t.fault ≠ some .illegalCommand)

/-- A step takes the next stimulus of the port: a word that decodes is executed in the state without it; in FAULTED, with
no reset to come, no word is accepted; with nothing on the port the block waits with all state held. (In FAULTED with a
reset to come the reset is next, see `FaultedIsTerminal`.) -/
def Obligations.StepRunsDecodedCommand : Prop :=
  (∀ (s : State) (w : CmdWord) (rest : List Stimulus) (i : Instr), s.env.port = .word w :: rest →
    (s.mode = .faulted → rest.any Stimulus.resets = false) → decode w = .ok i →
    step s = exec i { s with env := { s.env with port := rest } }) ∧
  (∀ (s : State) (w : CmdWord) (rest : List Stimulus), s.env.port = .word w :: rest → s.mode = .faulted →
    rest.any Stimulus.resets = false → step s = .fault .notAccepted) ∧
  (∀ s : State, s.env.port = [] → step s = .next s)

/-! ## Reset (10_state.md R39, 70_reset_and_hazards.md) -/

/-- The state after reset (R39, R161): every register at its value, no byte of storage written. The values of the
parameters that R9 leaves OPEN and of the environment are the model's choice (log entries 1 and 13) and not stated here. -/
def Obligations.ResetValues : Prop :=
  State.reset.mode = .uninit ∧ State.reset.fault = none ∧ State.reset.acc = { len := 0, val := 0 } ∧
  State.reset.out.cap = 0 ∧ State.reset.inp.cap = 0 ∧ State.reset.out.pos = 0 ∧ State.reset.inp.pos = 0 ∧
  (∀ a, Memory.read State.reset.out.mem a = none ∧ Memory.read State.reset.inp.mem a = none)

/-- Reset asserted between commands, in any mode, or right after a word was issued, whose command it abandons before that
made a transaction (R160): the registers take their reset values, the storage becomes unspecified (the model's counter
`epoch`, log entry 10, says so), parameters and environment stay. That a word and its abandonment are one stimulus is
the model's choice (log entry 8). -/
def Obligations.ResetFromAnyMode : Prop :=
  ∀ (s : State) (x : Stimulus) (rest : List Stimulus), x = .reset ∨ (∃ w, x = .wordThenReset w) → s.env.port = x :: rest →
    step s = .next
      { params := s.params, mode := .uninit, fault := none, acc := { len := 0, val := 0 },
        out := { cap := 0, pos := 0, mem := [] }, inp := { cap := 0, pos := 0, mem := [] },
        epoch := s.epoch + 1, env := { s.env with port := rest } }

/-- Reset asserted inside a command, right after a transaction (R160, U18): the command is abandoned, the sink keeps what it
accepted, the registers take their reset values. Said for every command with transactions: a writer (WRITE_BYTE,
WRITE_WORD, WRITE_MARKER, WRITE_BITS, WRITE_ALIGN_BITS) at any of its drains, after `accepted` ones that succeeded;
DESTROY and DRAIN_OUT; REFILL_IN after its read and, in the reversed debug mode, after its seek. That reset is asserted at
these points, and that they stand for every later point before the next transaction, is the model's choice (log entry 8);
before the first transaction see `ResetFromAnyMode`, during one that is not answered `UnansweredTransactionHangsTheBlock`. -/
def Obligations.ResetInsideCommandAbandonsIt : Prop :=
  (∀ (i : Instr) (s : State) (accepted rest : List Answer) (k : Nat), s.Inv → s.mode = .ready → i.wellFormed = true →
    s.env.sinkAnswers = accepted ++ .takeThenReset k :: rest → (∀ a ∈ accepted, a.acceptsAll s.out.cap.toNat = true) →
    (accepted.length + 1) * s.out.cap.toNat ≤
      s.out.pos.toNat + (emitted s.params.alignOnBoundary s.acc i).length →
    ∃ t, exec i s = .next t ∧ Abandoned s t ∧ t.env.sinkAnswers = rest ∧
      t.env.sink = s.env.sink ++ (s.buffered ++ emitted s.params.alignOnBoundary s.acc i).take
        (accepted.length * s.out.cap.toNat + min k s.out.cap.toNat)) ∧
  (∀ (i : Instr) (s : State) (k : Nat), i = .destroy ∨ i = .drainOut → s.mode = .ready → s.out.pos ≠ 0 →
    s.out.pos ≤ s.out.cap → s.sinkAnswer = .takeThenReset k →
    ∃ t, exec i s = .next t ∧ Abandoned s t ∧ t.env.sink = s.env.sink ++ s.buffered.take k) ∧
  (∀ (s : State) (k : Nat), s.mode = .ready → s.sourceAnswer = .takeThenReset k →
    ∃ t, exec .refillIn s = .next t ∧ Abandoned s t ∧ t.env.sink = s.env.sink ∧
      t.env.srcPos = s.env.srcPos + min (min k s.inp.cap.toNat) (s.env.src.length - s.env.srcPos)) ∧
  (∀ (s : State) (k : Nat) (rest : List Bool), s.mode = .ready → s.params.reversedDebug = true →
    s.sourceAnswer = .take k → s.inp.cap.toNat ≤ k → s.env.srcPos + s.inp.cap.toNat ≤ s.env.src.length →
    s.env.seekResets = true :: rest →
    ∃ t, exec .refillIn s = .next t ∧ Abandoned s t ∧ t.env.sink = s.env.sink ∧
      t.env.log = s.env.log ++
        [.sourceRead s.inp.cap.toNat ((s.env.src.drop s.env.srcPos).take s.inp.cap.toNat),
         .sourceSeek (-2 * (s.inp.cap.toNat : Int))])

/-- A transaction that is never answered hangs the block in the middle of the command (R176, U13 'stuck'), and a reset
asserted meanwhile abandons the command, the transaction unanswered (R160, U18): said for every command with answered
transactions, as in `ResetInsideCommandAbandonsIt`. That the model stops with `unanswered` while no reset is to come is log
entry 19, that the words offered before the reset were never accepted is log entry 7. -/
def Obligations.UnansweredTransactionHangsTheBlock : Prop :=
  (∀ (i : Instr) (s : State) (accepted rest : List Answer), s.Inv → s.mode = .ready → i.wellFormed = true →
    s.env.sinkAnswers = accepted ++ .never :: rest → (∀ a ∈ accepted, a.acceptsAll s.out.cap.toNat = true) →
    (accepted.length + 1) * s.out.cap.toNat ≤
      s.out.pos.toNat + (emitted s.params.alignOnBoundary s.acc i).length →
    Hangs i s ((s.buffered ++ emitted s.params.alignOnBoundary s.acc i).take (accepted.length * s.out.cap.toNat))) ∧
  (∀ (i : Instr) (s : State), i = .destroy ∨ i = .drainOut → s.mode = .ready → s.out.pos ≠ 0 →
    s.out.pos ≤ s.out.cap → s.sinkAnswer = .never → Hangs i s []) ∧
  (∀ s : State, s.mode = .ready → s.sourceAnswer = .never → Hangs .refillIn s [])

/-! ## Invariants -/

/-- The state after reset meets the invariant. -/
def Obligations.ResetMeetsInvariant : Prop := State.reset.Inv

/-- Every step from a state that meets the invariant leads to one that meets it: the accumulator's bits below the
pending ones are zero and at most 15 are pending (R25, R26), the cursors and capacities are in range (R28, R30, R37),
every byte a drain reads was stored (R40), storage is canonical, FAULT holds a kind exactly in FAULTED (R22), SINK and
HOOKS are what the ports' record says (R60). -/
def Obligations.StepKeepsInvariant : Prop :=
  ∀ s t : State, s.Inv → step s = .next t → t.Inv

/-- From a state that meets the invariant the model stops only where the spec gives no next step, with no reset to come: a
word offered in FAULTED (U5), a transaction that is never answered (U13). No store is out of bounds, and nothing is
refused. That only a listed `never` is no answer rests on log entry 4 (PRESUMED): the free values, which answer past the
end of a list, always answer, as R176 and D32 ask of the environment. -/
def Obligations.StepStopsOnlyWhereSpecIsStuck : Prop :=
  (∀ (s : State) (f : Fault), s.Inv → step s = .fault f →
    (f = .notAccepted ∧ s.mode = .faulted ∧ s.resetToCome = false) ∨
    (f = .unanswered ∧ s.resetToCome = false ∧
      (Answer.never ∈ s.env.sinkAnswers ∨ Answer.never ∈ s.env.sourceAnswers))) ∧
  (∀ (s : State) (r : Refusal), step s ≠ .refused r)

/-- The parameters never change (they are no registers, 10_state.md section 7), and no step changes the bytes of the input
file: the block only reads it and moves its position (20_memory.md section 4). That nothing else changes the file during
a run is the model's choice (log entry 23). -/
def Obligations.StepKeepsParameters : Prop :=
  ∀ s t : State, step s = .next t → t.params = s.params ∧ t.env.src = s.env.src

/-- The capacities are constant while READY (R37). -/
def Obligations.CapacitiesConstantWhileReady : Prop :=
  ∀ (i : Instr) (s t : State), s.mode = .ready → exec i s = .next t → t.mode = .ready →
    t.out.cap = s.out.cap ∧ t.inp.cap = s.inp.cap

/-- The codes on the status port (R20, R32, R140): MODE 0, 1, 2, FAULT 0 to 5, and FAULT is 0 exactly when no fault is held. -/
def Obligations.StatusPortCodes : Prop :=
  (∀ s : State, (s.statusMode = 0#2 ↔ s.mode = .uninit) ∧ (s.statusMode = 1#2 ↔ s.mode = .ready) ∧
    (s.statusMode = 2#2 ↔ s.mode = .faulted)) ∧
  (∀ s : State, (s.statusFault = 0#3 ↔ s.fault = none) ∧ (s.statusFault = 1#3 ↔ s.fault = some .allocationError) ∧
    (s.statusFault = 2#3 ↔ s.fault = some .shortReadError) ∧ (s.statusFault = 3#3 ↔ s.fault = some .shortWriteError) ∧
    (s.statusFault = 4#3 ↔ s.fault = some .bufferWriteError) ∧ (s.statusFault = 5#3 ↔ s.fault = some .illegalCommand)) ∧
  (∀ s : State, s.statusMode ≠ 3#2 ∧ s.statusFault ≠ 6#3 ∧ s.statusFault ≠ 7#3)

/-! ## Lifecycle (40_lifecycle.md) -/

/-- A successful INIT (R90, R40): the values of R40, nothing else changed but the completion. Storage is unspecified:
no offset is written, and the model's counter `epoch` says that the unwritten bytes are new. -/
def Obligations.InitCreatesController : Prop :=
  ∀ (a b : Cursor) (s : State), s.mode = .uninit → a ≠ 0 → b ≠ 0 → a ≤ s.params.nInMax → b ≤ s.params.nOutMax →
    exec (.init a b) s = .next { s with
      mode := .ready
      acc := { len := 0, val := 0 }
      inp := { cap := a, pos := 0, mem := [] }
      out := { cap := b, pos := 0, mem := [] }
      epoch := s.epoch + 1
      env := { s.env with log := s.env.log ++ [.completed .done] } }

/-- AllocationError (R141): raised by INIT exactly when a capacity exceeds its maximum; then nothing of IN, OUT or ACC
is written and no transaction is issued (R90). -/
def Obligations.InitAllocationError : Prop :=
  ∀ (a b : Cursor) (s : State), s.mode = .uninit → s.fault = none → a ≠ 0 → b ≠ 0 →
    ((s.params.nInMax < a ∨ s.params.nOutMax < b) →
      exec (.init a b) s = .next { s with
        mode := .faulted
        fault := some .allocationError
        env := { s.env with
          hooks := s.env.hooks ++ [.allocationError]
          log := s.env.log ++ [.hook .allocationError, .completed .fault] } }) ∧
    (¬(s.params.nInMax < a ∨ s.params.nOutMax < b) →
      ∀ t, exec (.init a b) s = .next t → t.fault ≠ some .allocationError)

/-- INIT while READY is illegal (R93). -/
def Obligations.InitWhileReadyIsIllegal : Prop :=
  ∀ (a b : Cursor) (s : State), s.mode = .ready →
    ∃ t, exec (.init a b) s = .next t ∧ t.mode = .faulted ∧ t.fault = some .illegalCommand ∧
      t.out = s.out ∧ t.inp = s.inp ∧ t.acc = s.acc

/-- DESTROY completes (R91): with nothing buffered, or when the sink accepts everything, the buffered bytes reach the
sink in one transaction (none if there are none), the drained offsets are zero, MODE is UNINIT, and nothing else
changes but what the sink's answer uses up: the pending bits stay in ACC and reach nothing. -/
def Obligations.DestroyFlushesThenReleases : Prop :=
  ∀ (s : State) (k : Nat), s.mode = .ready → s.out.pos ≤ s.out.cap →
    (s.out.pos = 0 ∨ (s.sinkAnswer = .take k ∧ s.out.pos.toNat ≤ k)) →
    ∃ t, exec .destroy s = .next t ∧
      t = { s with
        mode := .uninit
        out := { s.out with pos := 0, mem := t.out.mem }
        env := { s.env with
          sinkAnswers := t.env.sinkAnswers
          freeTick := t.env.freeTick
          sink := s.env.sink ++ s.buffered
          log := s.env.log ++ (if s.out.pos = 0 then [] else [.sinkWrite s.buffered s.out.pos.toNat]) ++ [.completed .done] } } ∧
      (∀ a, Memory.read t.out.mem a = if a < s.out.pos.toNat then some 0x00#8 else Memory.read s.out.mem a)

/-- The end of a run (R177): after a DESTROY that completed with `done`, MODE is UNINIT, FAULT is 0, nothing is buffered
and the sink holds every byte of the stream, in order. -/
def Obligations.CompletedDestroyIsFinal : Prop :=
  ∀ s t : State, s.Inv → s.mode = .ready → exec .destroy s = .next t → t.completedDone →
    t.mode = .uninit ∧ t.fault = none ∧ t.out.pos = 0 ∧ t.env.sink = s.stream

/-- Re-creation (R92): after a DESTROY that did not fault MODE is UNINIT and a new INIT is legal, with any capacities that
fit; neither command resets the sink: DESTROY appends the buffered bytes to it, INIT leaves it as it is. -/
def Obligations.InitAfterDestroyAppends : Prop :=
  ∀ (s t : State) (a b : Cursor), s.mode = .ready → exec .destroy s = .next t → t.completedDone →
    a ≠ 0 → b ≠ 0 → a ≤ s.params.nInMax → b ≤ s.params.nOutMax →
    t.mode = .uninit ∧ t.env.sink = s.env.sink ++ s.buffered ∧
    ∃ u, exec (.init a b) t = .next u ∧ u.mode = .ready ∧ u.inp.cap = a ∧ u.out.cap = b ∧ u.out.pos = 0 ∧
      u.env.sink = t.env.sink

/-- DESTROY and DRAIN_OUT do not flush the accumulator (R166): unless reset is asserted meanwhile (the model's counter
`epoch`, log entry 10, tells), ACC stays as it is, whether the drain succeeds or not. -/
def Obligations.DrainsLeaveAccumulatorAlone : Prop :=
  ∀ (i : Instr) (s t : State), i = .destroy ∨ i = .drainOut → exec i s = .next t → t.epoch = s.epoch → t.acc = s.acc

/-! ## Buffer operations (41_buffer.md) -/

/-- DRAIN_OUT completes (R101, R100): with nothing buffered it changes nothing and issues no transaction; else, when the
sink accepts everything, one transaction moves the buffered bytes to the sink, the drained offsets are zero and the
cursor is 0. -/
def Obligations.DrainOutMovesBufferToSink : Prop :=
  ∀ (s : State) (k : Nat), s.mode = .ready → s.out.pos ≤ s.out.cap →
    (s.out.pos = 0 → exec .drainOut s = .next { s with env := { s.env with log := s.env.log ++ [.completed .done] } }) ∧
    (s.out.pos ≠ 0 → s.sinkAnswer = .take k → s.out.pos.toNat ≤ k →
      ∃ t, exec .drainOut s = .next t ∧
        t = { s with
          out := { s.out with pos := 0, mem := t.out.mem }
          env := { s.env with
            sinkAnswers := t.env.sinkAnswers
            freeTick := t.env.freeTick
            sink := s.env.sink ++ s.buffered
            log := s.env.log ++ [.sinkWrite s.buffered s.out.pos.toNat, .completed .done] } } ∧
        (∀ a, Memory.read t.out.mem a = if a < s.out.pos.toNat then some 0x00#8 else Memory.read s.out.mem a))

/-- ShortWriteError (R143, R100, R150): a drain of DRAIN_OUT or DESTROY that the sink accepts only in part; the sink has
the first `k` bytes, OUT is unchanged, MODE is FAULTED. -/
def Obligations.ShortWriteIsFatal : Prop :=
  ∀ (i : Instr) (s : State) (k : Nat), i = .destroy ∨ i = .drainOut → s.mode = .ready → s.out.pos ≤ s.out.cap →
    s.sinkAnswer = .take k → k < s.out.pos.toNat →
    ∃ t, exec i s = .next t ∧
      t = { s with
        mode := .faulted
        fault := some .shortWriteError
        env := { s.env with
          sinkAnswers := t.env.sinkAnswers
          freeTick := t.env.freeTick
          sink := s.env.sink ++ s.buffered.take k
          hooks := s.env.hooks ++ [.shortWriteError]
          log := s.env.log ++ [.sinkWrite s.buffered k, .hook .shortWriteError, .completed .fault] } }

/-- REFILL_IN completes (R102, R103): one transaction takes `IN.cap` bytes from the input file at its position, they fill
the input buffer from offset 0, IN.pos is 0, the position advances, and nothing else changes. -/
def Obligations.RefillFillsInputBuffer : Prop :=
  ∀ (s : State) (k : Nat), s.mode = .ready → s.params.reversedDebug = false → s.sourceAnswer = .take k →
    s.inp.cap.toNat ≤ k → s.env.srcPos + s.inp.cap.toNat ≤ s.env.src.length →
    ∃ t, exec .refillIn s = .next t ∧
      t = { s with
        inp := { s.inp with pos := 0, mem := t.inp.mem }
        env := { s.env with
          sourceAnswers := t.env.sourceAnswers
          freeTick := t.env.freeTick
          srcPos := s.env.srcPos + s.inp.cap.toNat
          log := s.env.log ++
            [.sourceRead s.inp.cap.toNat ((s.env.src.drop s.env.srcPos).take s.inp.cap.toNat), .completed .done] } } ∧
      (∀ a, Memory.read t.inp.mem a =
        if a < s.inp.cap.toNat then s.env.src[s.env.srcPos + a]? else Memory.read s.inp.mem a)

/-- ShortReadError (R142, R102, R150): a refill answered with fewer than `IN.cap` bytes, because the environment or the
end of the file gives no more; the bytes that arrived stand in front of zeros, IN.pos is unchanged. -/
def Obligations.ShortReadIsFatal : Prop :=
  ∀ (s : State) (k : Nat), s.mode = .ready → s.sourceAnswer = .take k →
    min k (s.env.src.length - s.env.srcPos) < s.inp.cap.toNat →
    ∃ t, exec .refillIn s = .next t ∧
      t = { s with
        mode := .faulted
        fault := some .shortReadError
        inp := { s.inp with mem := t.inp.mem }
        env := { s.env with
          sourceAnswers := t.env.sourceAnswers
          freeTick := t.env.freeTick
          srcPos := s.env.srcPos + min k (s.env.src.length - s.env.srcPos)
          hooks := s.env.hooks ++ [.shortReadError]
          log := s.env.log ++
            [.sourceRead s.inp.cap.toNat ((s.env.src.drop s.env.srcPos).take k), .hook .shortReadError, .completed .fault] } } ∧
      (∀ a, Memory.read t.inp.mem a =
        if a < min k (s.env.src.length - s.env.srcPos) then s.env.src[s.env.srcPos + a]?
        else if a < s.inp.cap.toNat then some 0x00#8 else Memory.read s.inp.mem a)

/-- The reversed debug mode (R105): a successful refill ends with the seek by `-2 * IN.cap` on the source port; after the
block at `p` was read the position is `p - IN.cap`, where that is not negative (elsewhere it is a free value, log
entry 12); all else is as without the mode. Said where no reset follows the seek; where one does, see
`ResetInsideCommandAbandonsIt`. That the command does not wait for an answer to the seek is log entry 22. -/
def Obligations.ReversedDebugRewinds : Prop :=
  ∀ (s : State) (k : Nat) (rest : List Bool), s.mode = .ready → s.params.reversedDebug = true → s.sourceAnswer = .take k →
    s.inp.cap.toNat ≤ k → s.env.srcPos + s.inp.cap.toNat ≤ s.env.src.length → s.env.seekResets = false :: rest →
    ∃ t, exec .refillIn s = .next t ∧
      t = { s with
        inp := { s.inp with pos := 0, mem := t.inp.mem }
        env := { s.env with
          sourceAnswers := t.env.sourceAnswers
          seekResets := rest
          freeTick := t.env.freeTick
          srcPos := t.env.srcPos
          log := s.env.log ++
            [.sourceRead s.inp.cap.toNat ((s.env.src.drop s.env.srcPos).take s.inp.cap.toNat),
             .sourceSeek (-2 * (s.inp.cap.toNat : Int)), .completed .done] } } ∧
      (s.inp.cap.toNat ≤ s.env.srcPos → t.env.srcPos = s.env.srcPos - s.inp.cap.toNat) ∧
      (∀ a, Memory.read t.inp.mem a =
        if a < s.inp.cap.toNat then s.env.src[s.env.srcPos + a]? else Memory.read s.inp.mem a)

/-- REFILL_IN does not touch ACC, OUT or the sink (R103), however it ends, unless reset is asserted meanwhile (which
leaves UNINIT). -/
def Obligations.RefillTouchesOnlyInputSide : Prop :=
  ∀ s t : State, s.mode = .ready → exec .refillIn s = .next t → t.mode ≠ .uninit →
    t.acc = s.acc ∧ t.out = s.out ∧ t.env.sink = s.env.sink ∧ t.env.sinkAnswers = s.env.sinkAnswers ∧ t.inp.cap = s.inp.cap

/-! ## Primitive writers (42_primitive_writers.md) -/

/-- WRITE_BYTE that does not fill the buffer (R110, R111): the byte stands at OUT.pos, the cursor is one further, no
transaction is issued, nothing else changes. -/
def Obligations.WriteByteStoresAtCursor : Prop :=
  ∀ (v : Byte) (s : State), s.mode = .ready → s.out.pos.toNat + 1 < s.out.cap.toNat →
    ∃ t, exec (.writeByte v) s = .next t ∧
      t = { s with
        out := { s.out with pos := s.out.pos + 1, mem := t.out.mem }
        env := { s.env with log := s.env.log ++ [.completed .done] } } ∧
      (∀ a, Memory.read t.out.mem a = if a = s.out.pos.toNat then some v else Memory.read s.out.mem a)

/-- WRITE_BYTE that fills the buffer (R110, R111): one transaction of `OUT.cap` bytes whose last is the byte, after which
the cursor is 0 and every offset of the buffer is zero. -/
def Obligations.WriteByteDrainsFullBuffer : Prop :=
  ∀ (v : Byte) (s : State) (k : Nat), s.mode = .ready → s.out.pos.toNat + 1 = s.out.cap.toNat →
    s.sinkAnswer = .take k → s.out.cap.toNat ≤ k →
    ∃ t, exec (.writeByte v) s = .next t ∧
      t = { s with
        out := { s.out with pos := 0, mem := t.out.mem }
        env := { s.env with
          sinkAnswers := t.env.sinkAnswers
          freeTick := t.env.freeTick
          sink := s.env.sink ++ s.buffered ++ [v]
          log := s.env.log ++ [.sinkWrite (s.buffered ++ [v]) s.out.cap.toNat, .completed .done] } } ∧
      (∀ a, Memory.read t.out.mem a = if a < s.out.cap.toNat then some 0x00#8 else Memory.read s.out.mem a)

/-- BufferWriteError (R144, R110, R150): a byte that fills the buffer and whose drain the sink accepts only in part; the
byte is stored, `OUT.pos = OUT.cap`, the sink has the first `k` bytes. -/
def Obligations.BufferWriteErrorOnShortDrain : Prop :=
  ∀ (v : Byte) (s : State) (k : Nat), s.mode = .ready → s.out.pos.toNat + 1 = s.out.cap.toNat →
    s.sinkAnswer = .take k → k < s.out.cap.toNat →
    ∃ t, exec (.writeByte v) s = .next t ∧
      t = { s with
        mode := .faulted
        fault := some .bufferWriteError
        out := { s.out with pos := s.out.cap, mem := t.out.mem }
        env := { s.env with
          sinkAnswers := t.env.sinkAnswers
          freeTick := t.env.freeTick
          sink := s.env.sink ++ (s.buffered ++ [v]).take k
          hooks := s.env.hooks ++ [.bufferWriteError]
          log := s.env.log ++ [.sinkWrite (s.buffered ++ [v]) k, .hook .bufferWriteError, .completed .fault] } } ∧
      (∀ a, Memory.read t.out.mem a = if a = s.out.pos.toNat then some v else Memory.read s.out.mem a)

/-- WRITE_WORD with room for both bytes (R53, R112): the high byte stands at the lower offset, nothing is stuffed. -/
def Obligations.WriteWordIsBigEndian : Prop :=
  ∀ (v : Word) (s : State), s.mode = .ready → s.out.pos.toNat + 2 < s.out.cap.toNat →
    ∃ t, exec (.writeWord v) s = .next t ∧
      t = { s with
        out := { s.out with pos := s.out.pos + 2, mem := t.out.mem }
        env := { s.env with log := s.env.log ++ [.completed .done] } } ∧
      (∀ a, Memory.read t.out.mem a =
        if a = s.out.pos.toNat then some (v.extractLsb' 8 8)
        else if a = s.out.pos.toNat + 1 then some (v.extractLsb' 0 8) else Memory.read s.out.mem a)

/-- WRITE_MARKER with room for both bytes (R113): `FF` and the code as given, ACC (however many bits are pending)
undisturbed, nothing stuffed. -/
def Obligations.WriteMarkerIsLiteral : Prop :=
  ∀ (code : Byte) (s : State), s.mode = .ready → s.out.pos.toNat + 2 < s.out.cap.toNat →
    ∃ t, exec (.writeMarker code) s = .next t ∧
      t = { s with
        out := { s.out with pos := s.out.pos + 2, mem := t.out.mem }
        env := { s.env with log := s.env.log ++ [.completed .done] } } ∧
      (∀ a, Memory.read t.out.mem a =
        if a = s.out.pos.toNat then some 0xFF#8
        else if a = s.out.pos.toNat + 1 then some code else Memory.read s.out.mem a)

/-- WRITE_WORD and WRITE_MARKER are two WRITE_BYTEs (R84, R55): the states differ in the one completion more, whatever
drains fall between; and if the first byte's command faults, the single command ends in the same state. -/
def Obligations.WordAndMarkerAreTwoBytes : Prop :=
  ∀ (i : Instr) (b1 b2 : Byte) (s t : State), s.mode = .ready →
    (i = .writeWord (b1 ++ b2) ∨ (i = .writeMarker b2 ∧ b1 = 0xFF#8)) → exec (.writeByte b1) s = .next t →
    (t.mode = .faulted → exec i s = .next t) ∧
    (t.completedDone →
      ∀ u, exec (.writeByte b2) { t with env := { t.env with log := t.env.log.dropLast } } = .next u → exec i s = .next u)

/-- The primitive writers' only effects are byte stores in OUT and the drains that follow (R114): however they end, unless
reset is asserted meanwhile (which leaves UNINIT), ACC, the input buffer, OUT.cap, the parameters, the input file and its
position and the command port are unchanged, and no source transaction is issued; they never read ACC: with any other
accumulator the command ends in the same state but for that accumulator; completed, the stream has grown by exactly the
command's own bytes. -/
def Obligations.PrimitiveWritersTouchOnlyOutput : Prop :=
  ∀ (i : Instr) (s t : State),
    ((∃ v, i = .writeByte v) ∨ (∃ v, i = .writeWord v) ∨ (∃ c, i = .writeMarker c)) → s.mode = .ready →
    exec i s = .next t → t.mode ≠ .uninit →
    t.acc = s.acc ∧ t.inp = s.inp ∧ t.out.cap = s.out.cap ∧ t.params = s.params ∧ t.env.src = s.env.src ∧
    t.env.srcPos = s.env.srcPos ∧ t.env.sourceAnswers = s.env.sourceAnswers ∧ t.env.seekResets = s.env.seekResets ∧
    t.env.port = s.env.port ∧
    (∀ a : Acc, exec i { s with acc := a } = .next { t with acc := a }) ∧
    (∃ l, t.env.log = s.env.log ++ l ∧ ∀ e ∈ l, e.isSource = false) ∧
    (t.completedDone → t.stream = s.stream ++ emitted s.params.alignOnBoundary s.acc i)

/-! ## Bit writer (43_bit_writer.md) -/

/-- WRITE_BITS with `L = 0` changes no state and issues no transaction, whatever ACC holds (R123). -/
def Obligations.ZeroLengthCodeIsNoOp : Prop :=
  ∀ s : State, s.mode = .ready → s.acc.len.toNat ≤ 15 →
    exec (.writeBits 0 0) s = .next { s with env := { s.env with log := s.env.log ++ [.completed .done] } }

/-- WRITE_BITS that does not fill the window (R121, R122): only ACC changes; the code stands under the pending bits. -/
def Obligations.ShortCodeStaysPending : Prop :=
  ∀ (l : BitVec 5) (v : Word) (s : State), s.mode = .ready → v.toNat < 2 ^ l.toNat → l.toNat + s.acc.len.toNat < 16 →
    exec (.writeBits l v) s = .next { s with
      acc := { len := BitVec.ofNat 5 (l.toNat + s.acc.len.toNat), val := s.acc.val ||| v <<< (16 - (l.toNat + s.acc.len.toNat)) }
      env := { s.env with log := s.env.log ++ [.completed .done] } }

/-- WRITE_BITS that fills the window, with room in the buffer (R121, R122): the 16-bit word of pending bits and the top of
the code is stored high byte first, each `FF` followed by `00`, and ACC holds the rest of the code, left-justified. -/
def Obligations.FullWindowEmitsWord : Prop :=
  ∀ (l : BitVec 5) (v : Word) (s : State), s.mode = .ready → l.toNat ≤ 16 → v.toNat < 2 ^ l.toNat →
    s.acc.len.toNat ≤ 16 → 16 ≤ l.toNat + s.acc.len.toNat → s.out.pos.toNat + 4 < s.out.cap.toNat →
    ∃ t, exec (.writeBits l v) s = .next t ∧
      (let n := l.toNat + s.acc.len.toNat - 16
       let letter := s.acc.val ||| v >>> n
       let bytes := stuff [letter.extractLsb' 8 8, letter.extractLsb' 0 8]
       t = { s with
         acc := { len := BitVec.ofNat 5 n, val := v <<< (16 - n) }
         out := { s.out with pos := s.out.pos + BitVec.ofNat 14 bytes.length, mem := t.out.mem }
         env := { s.env with log := s.env.log ++ [.completed .done] } } ∧
       (∀ a, Memory.read t.out.mem a =
         if s.out.pos.toNat ≤ a ∧ a < s.out.pos.toNat + bytes.length then bytes[a - s.out.pos.toNat]?
         else Memory.read s.out.mem a))

/-- Totality at `ACC.len = 16` (R125), a state no run reaches: both bytes of the accumulator are emitted and the code
starts a fresh window. -/
def Obligations.FullAccumulatorIsFlushed : Prop :=
  ∀ (l : BitVec 5) (v : Word) (s t : State), s.mode = .ready → l.toNat ≤ 16 → v.toNat < 2 ^ l.toNat → s.acc.len = 16 →
    exec (.writeBits l v) s = .next t → t.completedDone →
    t.acc = { len := l, val := v <<< (16 - l.toNat) } ∧ t.stream = s.stream ++ stuff [hi8 s.acc.val, lo8 s.acc.val]

/-- The arithmetic of the bit writer (R124, R25): from an accumulator that meets R25 and R26, a legal code leaves one that
does, with `(L + ACC.len) mod 16` bits pending, and both merges are of values without a common 1-bit. -/
def Obligations.AccumulatorLaws : Prop :=
  ∀ (l : Nat) (v : Word) (a : Acc), AccOk a → l ≤ 16 → v.toNat < 2 ^ l →
    AccOk (accAfter l v a) ∧ (accAfter l v a).len.toNat = (l + a.len.toNat) % 16 ∧
    (16 ≤ l + a.len.toNat → a.val &&& shr v (l + a.len.toNat - 16) = 0#16) ∧
    (l + a.len.toNat < 16 → a.val &&& shl16 v (16 - (l + a.len.toNat)) = 0#16)

/-- The stream property as a step (R129): from any READY state that meets the invariant, whatever is pending, one code that
left the block READY extends the bit stream by its own bits, and what is pending afterwards is what of the pending bits
and the code is beyond the 16-bit words. -/
def Obligations.OneCodeExtendsBitStream : Prop :=
  ∀ (l : BitVec 5) (v : Word) (s t : State), s.Inv → s.mode = .ready → (Instr.writeBits l v).wellFormed = true →
    exec (.writeBits l v) s = .next t → t.mode = .ready →
    ∃ data : List Byte, t.stream = s.stream ++ stuff data ∧
      dataBits data ++ pendingBits t.acc = pendingBits s.acc ++ codeBits l.toNat v ∧
      (dataBits data).length = 16 * ((s.acc.len.toNat + l.toNat) / 16) ∧
      (pendingBits t.acc).length = (s.acc.len.toNat + l.toNat) % 16

/-- The stream property (R129): after any list of WRITE_BITS that left the block READY, started with nothing pending,
the bits of the data bytes emitted (without stuffing) followed by the pending bits are the codes' bits in order, and the
emitted ones are `16 * floor(S / 16)` of the `S` bits. -/
def Obligations.BitStreamIsConcatenationOfCodes : Prop :=
  ∀ (cs : List (BitVec 5 × Word)) (s t : State), s.Inv → s.mode = .ready → s.acc.len = 0 →
    (∀ c ∈ cs, (Instr.writeBits c.1 c.2).wellFormed = true) → writeCodes cs s = .next t → t.mode = .ready →
    ∃ data : List Byte, t.stream = s.stream ++ stuff data ∧
      dataBits data ++ pendingBits t.acc = cs.flatMap (fun c => codeBits c.1.toNat c.2) ∧
      (dataBits data).length = 16 * ((cs.map fun c => c.1.toNat).sum / 16) ∧
      (pendingBits t.acc).length = (cs.map fun c => c.1.toNat).sum % 16

/-- WRITE_ALIGN_BITS completes when the sink accepts everything, and emits the bytes of R126's table for every pending
length 0 to 15 and both values of ALIGN_ON_BOUNDARY; ACC is empty afterwards. -/
def Obligations.AlignEmitsTableBytes : Prop :=
  ∀ s : State, s.Inv → s.mode = .ready → s.SinkAcceptsAll →
    ∃ t, exec .writeAlignBits s = .next t ∧ t.completedDone ∧ t.mode = .ready ∧ t.acc = { len := 0, val := 0 } ∧
      t.stream = s.stream ++ stuff (alignData s.params.alignOnBoundary s.acc)

/-- WRITE_ALIGN_BITS with room in the buffer (R126): the bytes of the table stand from OUT.pos on, each `FF` followed by
`00`, ACC is empty, no transaction is issued, nothing else changes. -/
def Obligations.AlignWithRoomStoresAtCursor : Prop :=
  ∀ s : State, AccOk s.acc → s.mode = .ready → s.out.pos.toNat + 4 < s.out.cap.toNat →
    ∃ t, exec .writeAlignBits s = .next t ∧
      (let bytes := stuff (alignData s.params.alignOnBoundary s.acc)
       t = { s with
         acc := { len := 0, val := 0 }
         out := { s.out with pos := s.out.pos + BitVec.ofNat 14 bytes.length, mem := t.out.mem }
         env := { s.env with log := s.env.log ++ [.completed .done] } } ∧
       (∀ a, Memory.read t.out.mem a =
         if s.out.pos.toNat ≤ a ∧ a < s.out.pos.toNat + bytes.length then bytes[a - s.out.pos.toNat]?
         else Memory.read s.out.mem a))

/-- WRITE_BITS and WRITE_ALIGN_BITS touch only ACC, OUT and the sink, however many drains fall inside and however they end,
unless reset is asserted meanwhile (which leaves UNINIT): the input buffer, the input file, its position, the command
port and the parameters are unchanged, no source transaction is issued; completed, the stream has grown by exactly the
command's stuffed bytes. -/
def Obligations.BitWriterTouchesOnlyOutputSide : Prop :=
  ∀ (i : Instr) (s t : State), (∃ l v, i = .writeBits l v) ∨ i = .writeAlignBits → AccOk s.acc → s.mode = .ready →
    exec i s = .next t → t.mode ≠ .uninit →
    t.inp = s.inp ∧ t.out.cap = s.out.cap ∧ t.params = s.params ∧ t.env.src = s.env.src ∧ t.env.srcPos = s.env.srcPos ∧
    t.env.sourceAnswers = s.env.sourceAnswers ∧ t.env.port = s.env.port ∧
    (∃ l, t.env.log = s.env.log ++ l ∧ ∀ e ∈ l, e.isSource = false) ∧
    (t.completedDone → t.stream = s.stream ++ emitted s.params.alignOnBoundary s.acc i)

/-- The alignment invariant and the padding value (R131): a completed WRITE_ALIGN_BITS leaves nothing pending; what it
emits are the pending bits and then 1-bits only, a whole number of bytes, with the padding length of R126. -/
def Obligations.AlignmentPadsWithOnes : Prop :=
  ∀ s t : State, s.Inv → s.mode = .ready → exec .writeAlignBits s = .next t → t.completedDone →
    t.acc = { len := 0, val := 0 } ∧
    ∃ (data : List Byte) (n : Nat), t.stream = s.stream ++ stuff data ∧
      dataBits data = pendingBits s.acc ++ List.replicate n true ∧ (s.acc.len.toNat + n) % 8 = 0 ∧
      n = (if s.params.alignOnBoundary = .noPad ∧ s.acc.len.toNat % 8 = 0 then 0 else 8 - s.acc.len.toNat % 8)

/-- The stuffing invariant (R130): in the bytes that a completed WRITE_BITS or WRITE_ALIGN_BITS adds to the stream, every
`FF` is immediately followed by `00`. -/
def Obligations.BitWriterOutputIsStuffed : Prop :=
  ∀ (i : Instr) (s t : State), (∃ l v, i = .writeBits l v) ∨ i = .writeAlignBits → s.Inv → s.mode = .ready →
    exec i s = .next t → t.completedDone → ∃ bytes, t.stream = s.stream ++ bytes ∧ StuffedOk bytes

/-! ## The byte stream (20_memory.md) -/

/-- Order and no loss (R64, R110): when the sink accepts everything, every command that stores or drains completes, and
`SINK ++ OUT.mem[0 .. OUT.pos-1]` grows by exactly the bytes the command emits, across any number of drains. -/
def Obligations.CommandsCompleteAndStreamGrows : Prop :=
  ∀ (i : Instr) (s : State), s.Inv → s.mode = .ready → s.SinkAcceptsAll → i.wellFormed = true →
    (∀ a b, i ≠ .init a b) → i ≠ .refillIn →
    ∃ t, exec i s = .next t ∧ t.completedDone ∧ t.stream = s.stream ++ emitted s.params.alignOnBoundary s.acc i ∧
      t.inp = s.inp ∧ t.fault = none ∧ t.env.hooks = s.env.hooks ∧ t.params = s.params ∧ t.out.cap = s.out.cap ∧
      t.mode = (if i = .destroy then .uninit else .ready) ∧
      t.acc = (match i with
        | .writeBits l v => accAfter l.toNat v s.acc
        | .writeAlignBits => { len := 0, val := 0 }
        | _ => s.acc)

/-- SINK only grows, by the accepted prefixes of the step's sink transactions, in order (R60); the ports' record and HOOKS
only grow too. -/
def Obligations.SinkIsAppendOnly : Prop :=
  ∀ s t : State, step s = .next t →
    ∃ l, t.env.log = s.env.log ++ l ∧ t.env.sink = s.env.sink ++ acceptedOf l ∧ t.env.hooks = s.env.hooks ++ hooksOf l

/-- Every sink transaction offers 1 to OUT.cap bytes and is answered with at most as many (R59). -/
def Obligations.SinkTransactionsInBounds : Prop :=
  ∀ (i : Instr) (s t : State), s.Inv → exec i s = .next t →
    ∃ l, t.env.log = s.env.log ++ l ∧ ∀ e ∈ l, e.sinkWriteOk s.out.cap.toNat

/-- A SourceRead or SourceSeek is issued only by REFILL_IN (R65 d), and a SourceSeek only when REVERSED_DEBUG is true (R62);
INIT and REFILL_IN issue no SinkWrite. -/
def Obligations.PortsAreUsedOnlyByTheirCommands : Prop :=
  ∀ (i : Instr) (s t : State), exec i s = .next t →
    ∃ l, t.env.log = s.env.log ++ l ∧
      (i ≠ .refillIn → ∀ e ∈ l, e.isSource = false) ∧
      (s.params.reversedDebug = false → ∀ d, PortEvent.sourceSeek d ∉ l) ∧
      ((i = .refillIn ∨ ∃ a b, i = .init a b) → countSinkWrites l = 0)

/-- The work a command does is bounded (R175): at most four sink transactions, more than two of them only when
`OUT.cap` is 1. -/
def Obligations.AtMostFourDrainsPerCommand : Prop :=
  ∀ (i : Instr) (s t : State), s.Inv → exec i s = .next t →
    ∃ l, t.env.log = s.env.log ++ l ∧ countSinkWrites l ≤ 4 ∧ (s.out.cap.toNat ≠ 1 → countSinkWrites l ≤ 2)

/-! ## Faults (60_exceptions.md) -/

/-- Fault entry (R148): `raise` records the kind, makes the block FAULTED, signals the hook once and completes the command
with status fault, and changes nothing else; and every command that ends in FAULTED ended so, with one Hook (R149). -/
def Obligations.FaultEntryRecordsKindAndHook : Prop :=
  (∀ (kind : FaultKind) (s : State), raise kind s = { s with
    fault := some kind
    mode := .faulted
    env := { s.env with
      hooks := s.env.hooks ++ [kind]
      log := s.env.log ++ [.hook kind, .completed .fault] } }) ∧
  (∀ (i : Instr) (s t : State), exec i s = .next t → t.mode = .faulted →
    ∃ (kind : FaultKind) (u : State), t = raise kind u ∧ u.env.hooks = s.env.hooks ∧
      ∃ l, u.env.log = s.env.log ++ l ∧ hooksOf l = []) ∧
  (∀ (i : Instr) (s t : State), exec i s = .next t → t.mode ≠ .faulted → t.env.hooks = s.env.hooks)

/-- Which command can raise which kind (R146): no other pair occurs, each that the table allows does occur from a state
that meets the invariant, and a word that matches no row raises IllegalCommand and nothing else. -/
def Obligations.FaultKindsByCommand : Prop :=
  (∀ (i : Instr) (s t : State) (kind : FaultKind), exec i s = .next t → s.fault = none → t.fault = some kind →
    mayRaise i kind = true) ∧
  (∀ c ∈ raiseCases, mayRaise c.1 c.2 = true ∧ c.1.wellFormed = true ∧
    ∃ s t : State, s.Inv ∧ s.fault = none ∧ exec c.1 s = .next t ∧ t.fault = some c.2) ∧
  (∀ (w : CmdWord) (rest : List Stimulus) (s : State), (∀ r ∈ opcodeMap, ¬r.selects w) → s.mode ≠ .faulted →
    s.env.port = .word w :: rest → ∃ t, step s = .next t ∧ t.fault = some .illegalCommand)

/-- How the modes change (R154): a command leads to READY only from READY or as an INIT in UNINIT, only a DESTROY that
completes leads to UNINIT (but for a reset meanwhile, which completes nothing), and a command that ends in FAULTED
has not completed with `done`. -/
def Obligations.ModeTransitions : Prop :=
  ∀ (i : Instr) (s t : State), exec i s = .next t →
    (t.mode = .ready → (s.mode = .ready ∧ ∀ a b, i ≠ .init a b) ∨ (s.mode = .uninit ∧ ∃ a b, i = .init a b)) ∧
    (t.mode = .uninit → t.completedDone → s.mode = .ready ∧ i = .destroy) ∧
    (t.mode = .faulted → ¬t.completedDone)

/-- What a BufferWriteError leaves (R150): the buffer is full, and of the command's bytes those stored so far follow the
stream: the sink has all but the last buffer's rest of them. ACC is as before the command, but where the fault is in
step 3 of WRITE_ALIGN_BITS after a padding that only completed a byte: there it holds that padded byte. -/
def Obligations.BufferWriteErrorPartialEffects : Prop :=
  ∀ (i : Instr) (s t : State), s.Inv → s.mode = .ready → exec i s = .next t → t.fault = some .bufferWriteError →
    t.out.pos = t.out.cap ∧ t.out.cap = s.out.cap ∧ t.inp = s.inp ∧
    (∃ (j k : Nat) (sunk : List Byte), k < s.out.cap.toNat ∧
      s.stream ++ (emitted s.params.alignOnBoundary s.acc i).take j = sunk ++ t.buffered ∧
      t.env.sink = sunk ++ t.buffered.take k) ∧
    t.acc = (if i = .writeAlignBits ∧ s.acc.len.toNat < 8 then
      { len := 8, val := s.acc.val ||| ones (8 - s.acc.len.toNat) <<< 8 } else s.acc)

/-- FAULTED is terminal (R151, R78): with no reset to come a word is not accepted, the only step that leaves the mode is a
reset, and a reset is taken whatever words were offered before it. That those words are past then, and that the model
stops at a word where no reset is to come, is the model's choice (log entry 7). -/
def Obligations.FaultedIsTerminal : Prop :=
  ∀ s : State, s.mode = .faulted →
    (∀ w rest, s.env.port = .word w :: rest → rest.any Stimulus.resets = false → step s = .fault .notAccepted) ∧
    (∀ t, step s = .next t → t.mode ≠ .faulted → s.resetToCome = true) ∧
    (∀ words x rest, s.env.port = words ++ x :: rest → x.resets = true → (∀ y ∈ words, y.resets = false) →
      ∃ t, step s = .next t ∧ t.mode = .uninit ∧ t.fault = none ∧ t.env.port = rest)
end

