-- ==== Sys2Proof/Laws/State.lean ====
section
/-! SUPPORT. What each update of the state does to each field: one lemma per field per update, true by rfl, so that no
proof unfolds a record update. -/

namespace Sys2Proof.Machine

variable (s : State)

/-! `say` -/

@[simp] theorem say_params (e : PortEvent) : (s.say e).params = s.params := rfl
@[simp] theorem say_mode (e : PortEvent) : (s.say e).mode = s.mode := rfl
@[simp] theorem say_fault (e : PortEvent) : (s.say e).fault = s.fault := rfl
@[simp] theorem say_acc (e : PortEvent) : (s.say e).acc = s.acc := rfl
@[simp] theorem say_out (e : PortEvent) : (s.say e).out = s.out := rfl
@[simp] theorem say_inp (e : PortEvent) : (s.say e).inp = s.inp := rfl
@[simp] theorem say_epoch (e : PortEvent) : (s.say e).epoch = s.epoch := rfl
@[simp] theorem say_port (e : PortEvent) : (s.say e).env.port = s.env.port := rfl
@[simp] theorem say_sinkAnswers (e : PortEvent) : (s.say e).env.sinkAnswers = s.env.sinkAnswers := rfl
@[simp] theorem say_sourceAnswers (e : PortEvent) : (s.say e).env.sourceAnswers = s.env.sourceAnswers := rfl
@[simp] theorem say_seekResets (e : PortEvent) : (s.say e).env.seekResets = s.env.seekResets := rfl
@[simp] theorem say_freeTick (e : PortEvent) : (s.say e).env.freeTick = s.env.freeTick := rfl
@[simp] theorem say_sink (e : PortEvent) : (s.say e).env.sink = s.env.sink := rfl
@[simp] theorem say_src (e : PortEvent) : (s.say e).env.src = s.env.src := rfl
@[simp] theorem say_srcPos (e : PortEvent) : (s.say e).env.srcPos = s.env.srcPos := rfl
@[simp] theorem say_hooks (e : PortEvent) : (s.say e).env.hooks = s.env.hooks := rfl
@[simp] theorem say_log (e : PortEvent) : (s.say e).env.log = s.env.log ++ [e] := rfl

/-! `complete` -/

@[simp] theorem complete_params (c : Completion) : (s.complete c).params = s.params := rfl
@[simp] theorem complete_mode (c : Completion) : (s.complete c).mode = s.mode := rfl
@[simp] theorem complete_fault (c : Completion) : (s.complete c).fault = s.fault := rfl
@[simp] theorem complete_acc (c : Completion) : (s.complete c).acc = s.acc := rfl
@[simp] theorem complete_out (c : Completion) : (s.complete c).out = s.out := rfl
@[simp] theorem complete_inp (c : Completion) : (s.complete c).inp = s.inp := rfl
@[simp] theorem complete_epoch (c : Completion) : (s.complete c).epoch = s.epoch := rfl
@[simp] theorem complete_port (c : Completion) : (s.complete c).env.port = s.env.port := rfl
@[simp] theorem complete_sinkAnswers (c : Completion) : (s.complete c).env.sinkAnswers = s.env.sinkAnswers := rfl
@[simp] theorem complete_sourceAnswers (c : Completion) : (s.complete c).env.sourceAnswers = s.env.sourceAnswers := rfl
@[simp] theorem complete_seekResets (c : Completion) : (s.complete c).env.seekResets = s.env.seekResets := rfl
@[simp] theorem complete_freeTick (c : Completion) : (s.complete c).env.freeTick = s.env.freeTick := rfl
@[simp] theorem complete_sink (c : Completion) : (s.complete c).env.sink = s.env.sink := rfl
@[simp] theorem complete_src (c : Completion) : (s.complete c).env.src = s.env.src := rfl
@[simp] theorem complete_srcPos (c : Completion) : (s.complete c).env.srcPos = s.env.srcPos := rfl
@[simp] theorem complete_hooks (c : Completion) : (s.complete c).env.hooks = s.env.hooks := rfl
@[simp] theorem complete_log (c : Completion) : (s.complete c).env.log = s.env.log ++ [.completed c] := rfl

/-! `raise` -/

@[simp] theorem raise_params (k : FaultKind) : (raise k s).params = s.params := rfl
@[simp] theorem raise_mode (k : FaultKind) : (raise k s).mode = .faulted := rfl
@[simp] theorem raise_fault (k : FaultKind) : (raise k s).fault = some k := rfl
@[simp] theorem raise_acc (k : FaultKind) : (raise k s).acc = s.acc := rfl
@[simp] theorem raise_out (k : FaultKind) : (raise k s).out = s.out := rfl
@[simp] theorem raise_inp (k : FaultKind) : (raise k s).inp = s.inp := rfl
@[simp] theorem raise_epoch (k : FaultKind) : (raise k s).epoch = s.epoch := rfl
@[simp] theorem raise_port (k : FaultKind) : (raise k s).env.port = s.env.port := rfl
@[simp] theorem raise_sinkAnswers (k : FaultKind) : (raise k s).env.sinkAnswers = s.env.sinkAnswers := rfl
@[simp] theorem raise_sourceAnswers (k : FaultKind) : (raise k s).env.sourceAnswers = s.env.sourceAnswers := rfl
@[simp] theorem raise_seekResets (k : FaultKind) : (raise k s).env.seekResets = s.env.seekResets := rfl
@[simp] theorem raise_freeTick (k : FaultKind) : (raise k s).env.freeTick = s.env.freeTick := rfl
@[simp] theorem raise_sink (k : FaultKind) : (raise k s).env.sink = s.env.sink := rfl
@[simp] theorem raise_src (k : FaultKind) : (raise k s).env.src = s.env.src := rfl
@[simp] theorem raise_srcPos (k : FaultKind) : (raise k s).env.srcPos = s.env.srcPos := rfl
@[simp] theorem raise_hooks (k : FaultKind) : (raise k s).env.hooks = s.env.hooks ++ [k] := rfl
@[simp] theorem raise_log (k : FaultKind) : (raise k s).env.log = s.env.log ++ [.hook k, .completed .fault] := rfl

/-! `resetBlock` -/

@[simp] theorem resetBlock_params : (resetBlock s).params = s.params := rfl
@[simp] theorem resetBlock_mode : (resetBlock s).mode = .uninit := rfl
@[simp] theorem resetBlock_fault : (resetBlock s).fault = none := rfl
@[simp] theorem resetBlock_acc : (resetBlock s).acc = { len := 0#5, val := 0#16 } := rfl
@[simp] theorem resetBlock_out : (resetBlock s).out = { cap := 0#14, pos := 0#14, mem := [] } := rfl
@[simp] theorem resetBlock_inp : (resetBlock s).inp = { cap := 0#14, pos := 0#14, mem := [] } := rfl
@[simp] theorem resetBlock_epoch : (resetBlock s).epoch = s.epoch + 1 := rfl
@[simp] theorem resetBlock_env : (resetBlock s).env = s.env := rfl

/-! `popSink` -/

@[simp] theorem popSink_params : (s.popSink).params = s.params := rfl
@[simp] theorem popSink_mode : (s.popSink).mode = s.mode := rfl
@[simp] theorem popSink_fault : (s.popSink).fault = s.fault := rfl
@[simp] theorem popSink_acc : (s.popSink).acc = s.acc := rfl
@[simp] theorem popSink_out : (s.popSink).out = s.out := rfl
@[simp] theorem popSink_inp : (s.popSink).inp = s.inp := rfl
@[simp] theorem popSink_epoch : (s.popSink).epoch = s.epoch := rfl
@[simp] theorem popSink_port : (s.popSink).env.port = s.env.port := rfl
@[simp] theorem popSink_sinkAnswers : (s.popSink).env.sinkAnswers = s.env.sinkAnswers.tail := rfl
@[simp] theorem popSink_sourceAnswers : (s.popSink).env.sourceAnswers = s.env.sourceAnswers := rfl
@[simp] theorem popSink_seekResets : (s.popSink).env.seekResets = s.env.seekResets := rfl
@[simp] theorem popSink_sink : (s.popSink).env.sink = s.env.sink := rfl
@[simp] theorem popSink_src : (s.popSink).env.src = s.env.src := rfl
@[simp] theorem popSink_srcPos : (s.popSink).env.srcPos = s.env.srcPos := rfl
@[simp] theorem popSink_hooks : (s.popSink).env.hooks = s.env.hooks := rfl
@[simp] theorem popSink_log : (s.popSink).env.log = s.env.log := rfl

/-! `popSource` -/

@[simp] theorem popSource_params : (s.popSource).params = s.params := rfl
@[simp] theorem popSource_mode : (s.popSource).mode = s.mode := rfl
@[simp] theorem popSource_fault : (s.popSource).fault = s.fault := rfl
@[simp] theorem popSource_acc : (s.popSource).acc = s.acc := rfl
@[simp] theorem popSource_out : (s.popSource).out = s.out := rfl
@[simp] theorem popSource_inp : (s.popSource).inp = s.inp := rfl
@[simp] theorem popSource_epoch : (s.popSource).epoch = s.epoch := rfl
@[simp] theorem popSource_port : (s.popSource).env.port = s.env.port := rfl
@[simp] theorem popSource_sinkAnswers : (s.popSource).env.sinkAnswers = s.env.sinkAnswers := rfl
@[simp] theorem popSource_sourceAnswers : (s.popSource).env.sourceAnswers = s.env.sourceAnswers.tail := rfl
@[simp] theorem popSource_seekResets : (s.popSource).env.seekResets = s.env.seekResets := rfl
@[simp] theorem popSource_sink : (s.popSource).env.sink = s.env.sink := rfl
@[simp] theorem popSource_src : (s.popSource).env.src = s.env.src := rfl
@[simp] theorem popSource_srcPos : (s.popSource).env.srcPos = s.env.srcPos := rfl
@[simp] theorem popSource_hooks : (s.popSource).env.hooks = s.env.hooks := rfl
@[simp] theorem popSource_log : (s.popSource).env.log = s.env.log := rfl

/-! `sinkWrite` -/

@[simp] theorem sinkWrite_params (bs : List Byte) (k : Nat) : (sinkWrite bs k s).params = s.params := rfl
@[simp] theorem sinkWrite_mode (bs : List Byte) (k : Nat) : (sinkWrite bs k s).mode = s.mode := rfl
@[simp] theorem sinkWrite_fault (bs : List Byte) (k : Nat) : (sinkWrite bs k s).fault = s.fault := rfl
@[simp] theorem sinkWrite_acc (bs : List Byte) (k : Nat) : (sinkWrite bs k s).acc = s.acc := rfl
@[simp] theorem sinkWrite_out (bs : List Byte) (k : Nat) : (sinkWrite bs k s).out = s.out := rfl
@[simp] theorem sinkWrite_inp (bs : List Byte) (k : Nat) : (sinkWrite bs k s).inp = s.inp := rfl
@[simp] theorem sinkWrite_epoch (bs : List Byte) (k : Nat) : (sinkWrite bs k s).epoch = s.epoch := rfl
@[simp] theorem sinkWrite_port (bs : List Byte) (k : Nat) : (sinkWrite bs k s).env.port = s.env.port := rfl
@[simp] theorem sinkWrite_sinkAnswers (bs : List Byte) (k : Nat) : (sinkWrite bs k s).env.sinkAnswers = s.env.sinkAnswers := rfl
@[simp] theorem sinkWrite_sourceAnswers (bs : List Byte) (k : Nat) : (sinkWrite bs k s).env.sourceAnswers = s.env.sourceAnswers := rfl
@[simp] theorem sinkWrite_seekResets (bs : List Byte) (k : Nat) : (sinkWrite bs k s).env.seekResets = s.env.seekResets := rfl
@[simp] theorem sinkWrite_freeTick (bs : List Byte) (k : Nat) : (sinkWrite bs k s).env.freeTick = s.env.freeTick := rfl
@[simp] theorem sinkWrite_sink (bs : List Byte) (k : Nat) : (sinkWrite bs k s).env.sink = s.env.sink ++ bs.take k := rfl
@[simp] theorem sinkWrite_src (bs : List Byte) (k : Nat) : (sinkWrite bs k s).env.src = s.env.src := rfl
@[simp] theorem sinkWrite_srcPos (bs : List Byte) (k : Nat) : (sinkWrite bs k s).env.srcPos = s.env.srcPos := rfl
@[simp] theorem sinkWrite_hooks (bs : List Byte) (k : Nat) : (sinkWrite bs k s).env.hooks = s.env.hooks := rfl
@[simp] theorem sinkWrite_log (bs : List Byte) (k : Nat) : (sinkWrite bs k s).env.log = s.env.log ++ [.sinkWrite bs k] := rfl

/-! `sourceRead` -/

@[simp] theorem sourceRead_params (n : Nat) (data : List Byte) : (sourceRead n data s).params = s.params := rfl
@[simp] theorem sourceRead_mode (n : Nat) (data : List Byte) : (sourceRead n data s).mode = s.mode := rfl
@[simp] theorem sourceRead_fault (n : Nat) (data : List Byte) : (sourceRead n data s).fault = s.fault := rfl
@[simp] theorem sourceRead_acc (n : Nat) (data : List Byte) : (sourceRead n data s).acc = s.acc := rfl
@[simp] theorem sourceRead_out (n : Nat) (data : List Byte) : (sourceRead n data s).out = s.out := rfl
@[simp] theorem sourceRead_inp (n : Nat) (data : List Byte) : (sourceRead n data s).inp = s.inp := rfl
@[simp] theorem sourceRead_epoch (n : Nat) (data : List Byte) : (sourceRead n data s).epoch = s.epoch := rfl
@[simp] theorem sourceRead_port (n : Nat) (data : List Byte) : (sourceRead n data s).env.port = s.env.port := rfl
@[simp] theorem sourceRead_sinkAnswers (n : Nat) (data : List Byte) : (sourceRead n data s).env.sinkAnswers = s.env.sinkAnswers := rfl
@[simp] theorem sourceRead_sourceAnswers (n : Nat) (data : List Byte) : (sourceRead n data s).env.sourceAnswers = s.env.sourceAnswers := rfl
@[simp] theorem sourceRead_seekResets (n : Nat) (data : List Byte) : (sourceRead n data s).env.seekResets = s.env.seekResets := rfl
@[simp] theorem sourceRead_freeTick (n : Nat) (data : List Byte) : (sourceRead n data s).env.freeTick = s.env.freeTick := rfl
@[simp] theorem sourceRead_sink (n : Nat) (data : List Byte) : (sourceRead n data s).env.sink = s.env.sink := rfl
@[simp] theorem sourceRead_src (n : Nat) (data : List Byte) : (sourceRead n data s).env.src = s.env.src := rfl
@[simp] theorem sourceRead_srcPos (n : Nat) (data : List Byte) : (sourceRead n data s).env.srcPos = s.env.srcPos + data.length := rfl
@[simp] theorem sourceRead_hooks (n : Nat) (data : List Byte) : (sourceRead n data s).env.hooks = s.env.hooks := rfl
@[simp] theorem sourceRead_log (n : Nat) (data : List Byte) : (sourceRead n data s).env.log = s.env.log ++ [.sourceRead n data] := rfl

/-! `sourceSeek` -/

@[simp] theorem sourceSeek_params (d : Int) : (sourceSeek d s).params = s.params := rfl
@[simp] theorem sourceSeek_mode (d : Int) : (sourceSeek d s).mode = s.mode := rfl
@[simp] theorem sourceSeek_fault (d : Int) : (sourceSeek d s).fault = s.fault := rfl
@[simp] theorem sourceSeek_acc (d : Int) : (sourceSeek d s).acc = s.acc := rfl
@[simp] theorem sourceSeek_out (d : Int) : (sourceSeek d s).out = s.out := rfl
@[simp] theorem sourceSeek_inp (d : Int) : (sourceSeek d s).inp = s.inp := rfl
@[simp] theorem sourceSeek_epoch (d : Int) : (sourceSeek d s).epoch = s.epoch := rfl
@[simp] theorem sourceSeek_port (d : Int) : (sourceSeek d s).env.port = s.env.port := rfl
@[simp] theorem sourceSeek_sinkAnswers (d : Int) : (sourceSeek d s).env.sinkAnswers = s.env.sinkAnswers := rfl
@[simp] theorem sourceSeek_sourceAnswers (d : Int) : (sourceSeek d s).env.sourceAnswers = s.env.sourceAnswers := rfl
@[simp] theorem sourceSeek_seekResets (d : Int) : (sourceSeek d s).env.seekResets = s.env.seekResets := rfl
@[simp] theorem sourceSeek_sink (d : Int) : (sourceSeek d s).env.sink = s.env.sink := rfl
@[simp] theorem sourceSeek_src (d : Int) : (sourceSeek d s).env.src = s.env.src := rfl
@[simp] theorem sourceSeek_hooks (d : Int) : (sourceSeek d s).env.hooks = s.env.hooks := rfl
@[simp] theorem sourceSeek_log (d : Int) : (sourceSeek d s).env.log = s.env.log ++ [.sourceSeek d] := rfl

/-! `clearOut` -/

@[simp] theorem clearOut_params : (clearOut s).params = s.params := rfl
@[simp] theorem clearOut_mode : (clearOut s).mode = s.mode := rfl
@[simp] theorem clearOut_fault : (clearOut s).fault = s.fault := rfl
@[simp] theorem clearOut_acc : (clearOut s).acc = s.acc := rfl
@[simp] theorem clearOut_out : (clearOut s).out = { cap := s.out.cap, pos := 0#14, mem := Memory.zeroFill s.out.mem s.out.pos.toNat } := rfl
@[simp] theorem clearOut_inp : (clearOut s).inp = s.inp := rfl
@[simp] theorem clearOut_epoch : (clearOut s).epoch = s.epoch := rfl
@[simp] theorem clearOut_env : (clearOut s).env = s.env := rfl

/-! `pushByte` -/

@[simp] theorem pushByte_params (v : Byte) : (pushByte v s).params = s.params := rfl
@[simp] theorem pushByte_mode (v : Byte) : (pushByte v s).mode = s.mode := rfl
@[simp] theorem pushByte_fault (v : Byte) : (pushByte v s).fault = s.fault := rfl
@[simp] theorem pushByte_acc (v : Byte) : (pushByte v s).acc = s.acc := rfl
@[simp] theorem pushByte_out (v : Byte) : (pushByte v s).out = { cap := s.out.cap, pos := s.out.pos + 1#14, mem := Memory.write s.out.mem s.out.pos.toNat v } := rfl
@[simp] theorem pushByte_inp (v : Byte) : (pushByte v s).inp = s.inp := rfl
@[simp] theorem pushByte_epoch (v : Byte) : (pushByte v s).epoch = s.epoch := rfl
@[simp] theorem pushByte_env (v : Byte) : (pushByte v s).env = s.env := rfl

/-! `create` -/

@[simp] theorem create_params (a b : Cursor) : (create a b s).params = s.params := rfl
@[simp] theorem create_mode (a b : Cursor) : (create a b s).mode = .ready := rfl
@[simp] theorem create_fault (a b : Cursor) : (create a b s).fault = s.fault := rfl
@[simp] theorem create_acc (a b : Cursor) : (create a b s).acc = { len := 0#5, val := 0#16 } := rfl
@[simp] theorem create_out (a b : Cursor) : (create a b s).out = { cap := b, pos := 0#14, mem := [] } := rfl
@[simp] theorem create_inp (a b : Cursor) : (create a b s).inp = { cap := a, pos := 0#14, mem := [] } := rfl
@[simp] theorem create_epoch (a b : Cursor) : (create a b s).epoch = s.epoch + 1 := rfl
@[simp] theorem create_env (a b : Cursor) : (create a b s).env = s.env := rfl

/-! `setAcc` -/

@[simp] theorem setAcc_params (a : Acc) : (setAcc a s).params = s.params := rfl
@[simp] theorem setAcc_mode (a : Acc) : (setAcc a s).mode = s.mode := rfl
@[simp] theorem setAcc_fault (a : Acc) : (setAcc a s).fault = s.fault := rfl
@[simp] theorem setAcc_acc (a : Acc) : (setAcc a s).acc = a := rfl
@[simp] theorem setAcc_out (a : Acc) : (setAcc a s).out = s.out := rfl
@[simp] theorem setAcc_inp (a : Acc) : (setAcc a s).inp = s.inp := rfl
@[simp] theorem setAcc_epoch (a : Acc) : (setAcc a s).epoch = s.epoch := rfl
@[simp] theorem setAcc_env (a : Acc) : (setAcc a s).env = s.env := rfl

/-! `clearIn` -/

@[simp] theorem clearIn_params : (clearIn s).params = s.params := rfl
@[simp] theorem clearIn_mode : (clearIn s).mode = s.mode := rfl
@[simp] theorem clearIn_fault : (clearIn s).fault = s.fault := rfl
@[simp] theorem clearIn_acc : (clearIn s).acc = s.acc := rfl
@[simp] theorem clearIn_out : (clearIn s).out = s.out := rfl
@[simp] theorem clearIn_inp : (clearIn s).inp = { cap := s.inp.cap, pos := s.inp.pos, mem := Memory.zeroFill s.inp.mem s.inp.cap.toNat } := rfl
@[simp] theorem clearIn_epoch : (clearIn s).epoch = s.epoch := rfl
@[simp] theorem clearIn_env : (clearIn s).env = s.env := rfl

/-! `receive` -/

@[simp] theorem receive_params (data : List Byte) : (receive data s).params = s.params := rfl
@[simp] theorem receive_mode (data : List Byte) : (receive data s).mode = s.mode := rfl
@[simp] theorem receive_fault (data : List Byte) : (receive data s).fault = s.fault := rfl
@[simp] theorem receive_acc (data : List Byte) : (receive data s).acc = s.acc := rfl
@[simp] theorem receive_out (data : List Byte) : (receive data s).out = s.out := rfl
@[simp] theorem receive_inp (data : List Byte) : (receive data s).inp = { cap := s.inp.cap, pos := s.inp.pos, mem := Memory.store s.inp.mem 0 data } := rfl
@[simp] theorem receive_epoch (data : List Byte) : (receive data s).epoch = s.epoch := rfl
@[simp] theorem receive_port (data : List Byte) : (receive data s).env.port = s.env.port := rfl
@[simp] theorem receive_sinkAnswers (data : List Byte) : (receive data s).env.sinkAnswers = s.env.sinkAnswers := rfl
@[simp] theorem receive_sourceAnswers (data : List Byte) : (receive data s).env.sourceAnswers = s.env.sourceAnswers := rfl
@[simp] theorem receive_seekResets (data : List Byte) : (receive data s).env.seekResets = s.env.seekResets := rfl
@[simp] theorem receive_freeTick (data : List Byte) : (receive data s).env.freeTick = s.env.freeTick := rfl
@[simp] theorem receive_sink (data : List Byte) : (receive data s).env.sink = s.env.sink := rfl
@[simp] theorem receive_src (data : List Byte) : (receive data s).env.src = s.env.src := rfl
@[simp] theorem receive_srcPos (data : List Byte) : (receive data s).env.srcPos = s.env.srcPos + data.length := rfl
@[simp] theorem receive_hooks (data : List Byte) : (receive data s).env.hooks = s.env.hooks := rfl
@[simp] theorem receive_log (data : List Byte) : (receive data s).env.log = s.env.log ++ [.sourceRead s.inp.cap.toNat data] := rfl

/-! `rewindIn` -/

@[simp] theorem rewindIn_params : (rewindIn s).params = s.params := rfl
@[simp] theorem rewindIn_mode : (rewindIn s).mode = s.mode := rfl
@[simp] theorem rewindIn_fault : (rewindIn s).fault = s.fault := rfl
@[simp] theorem rewindIn_acc : (rewindIn s).acc = s.acc := rfl
@[simp] theorem rewindIn_out : (rewindIn s).out = s.out := rfl
@[simp] theorem rewindIn_inp : (rewindIn s).inp = { cap := s.inp.cap, pos := 0#14, mem := s.inp.mem } := rfl
@[simp] theorem rewindIn_epoch : (rewindIn s).epoch = s.epoch := rfl
@[simp] theorem rewindIn_env : (rewindIn s).env = s.env := rfl

/-! `popPort` -/

@[simp] theorem popPort_params : (s.popPort).params = s.params := rfl
@[simp] theorem popPort_mode : (s.popPort).mode = s.mode := rfl
@[simp] theorem popPort_fault : (s.popPort).fault = s.fault := rfl
@[simp] theorem popPort_acc : (s.popPort).acc = s.acc := rfl
@[simp] theorem popPort_out : (s.popPort).out = s.out := rfl
@[simp] theorem popPort_inp : (s.popPort).inp = s.inp := rfl
@[simp] theorem popPort_epoch : (s.popPort).epoch = s.epoch := rfl
@[simp] theorem popPort_port : (s.popPort).env.port = s.arrivals.tail := rfl
@[simp] theorem popPort_sinkAnswers : (s.popPort).env.sinkAnswers = s.env.sinkAnswers := rfl
@[simp] theorem popPort_sourceAnswers : (s.popPort).env.sourceAnswers = s.env.sourceAnswers := rfl
@[simp] theorem popPort_seekResets : (s.popPort).env.seekResets = s.env.seekResets := rfl
@[simp] theorem popPort_freeTick : (s.popPort).env.freeTick = s.env.freeTick := rfl
@[simp] theorem popPort_sink : (s.popPort).env.sink = s.env.sink := rfl
@[simp] theorem popPort_src : (s.popPort).env.src = s.env.src := rfl
@[simp] theorem popPort_srcPos : (s.popPort).env.srcPos = s.env.srcPos := rfl
@[simp] theorem popPort_hooks : (s.popPort).env.hooks = s.env.hooks := rfl
@[simp] theorem popPort_log : (s.popPort).env.log = s.env.log := rfl

/-! `popSeek` -/

@[simp] theorem popSeek_params : (s.popSeek).params = s.params := rfl
@[simp] theorem popSeek_mode : (s.popSeek).mode = s.mode := rfl
@[simp] theorem popSeek_fault : (s.popSeek).fault = s.fault := rfl
@[simp] theorem popSeek_acc : (s.popSeek).acc = s.acc := rfl
@[simp] theorem popSeek_out : (s.popSeek).out = s.out := rfl
@[simp] theorem popSeek_inp : (s.popSeek).inp = s.inp := rfl
@[simp] theorem popSeek_epoch : (s.popSeek).epoch = s.epoch := rfl
@[simp] theorem popSeek_port : (s.popSeek).env.port = s.env.port := rfl
@[simp] theorem popSeek_sinkAnswers : (s.popSeek).env.sinkAnswers = s.env.sinkAnswers := rfl
@[simp] theorem popSeek_sourceAnswers : (s.popSeek).env.sourceAnswers = s.env.sourceAnswers := rfl
@[simp] theorem popSeek_sink : (s.popSeek).env.sink = s.env.sink := rfl
@[simp] theorem popSeek_src : (s.popSeek).env.src = s.env.src := rfl
@[simp] theorem popSeek_srcPos : (s.popSeek).env.srcPos = s.env.srcPos := rfl
@[simp] theorem popSeek_hooks : (s.popSeek).env.hooks = s.env.hooks := rfl
@[simp] theorem popSeek_log : (s.popSeek).env.log = s.env.log := rfl
@[simp] theorem popSeek_seekResets : (s.popSeek).env.seekResets = s.env.seekResets.tail := rfl

/-! `resetWhileHung` -/

@[simp] theorem resetWhileHung_params : (resetWhileHung s).params = s.params := rfl
@[simp] theorem resetWhileHung_mode : (resetWhileHung s).mode = .uninit := rfl
@[simp] theorem resetWhileHung_fault : (resetWhileHung s).fault = none := rfl
@[simp] theorem resetWhileHung_acc : (resetWhileHung s).acc = { len := 0#5, val := 0#16 } := rfl
@[simp] theorem resetWhileHung_out : (resetWhileHung s).out = { cap := 0#14, pos := 0#14, mem := [] } := rfl
@[simp] theorem resetWhileHung_inp : (resetWhileHung s).inp = { cap := 0#14, pos := 0#14, mem := [] } := rfl
@[simp] theorem resetWhileHung_epoch : (resetWhileHung s).epoch = s.epoch + 1 := rfl
@[simp] theorem resetWhileHung_port : (resetWhileHung s).env.port = s.portFromReset.tail := rfl
@[simp] theorem resetWhileHung_sinkAnswers : (resetWhileHung s).env.sinkAnswers = s.env.sinkAnswers := rfl
@[simp] theorem resetWhileHung_sourceAnswers : (resetWhileHung s).env.sourceAnswers = s.env.sourceAnswers := rfl
@[simp] theorem resetWhileHung_seekResets : (resetWhileHung s).env.seekResets = s.env.seekResets := rfl
@[simp] theorem resetWhileHung_freeTick : (resetWhileHung s).env.freeTick = s.env.freeTick := rfl
@[simp] theorem resetWhileHung_sink : (resetWhileHung s).env.sink = s.env.sink := rfl
@[simp] theorem resetWhileHung_src : (resetWhileHung s).env.src = s.env.src := rfl
@[simp] theorem resetWhileHung_srcPos : (resetWhileHung s).env.srcPos = s.env.srcPos := rfl
@[simp] theorem resetWhileHung_hooks : (resetWhileHung s).env.hooks = s.env.hooks := rfl
@[simp] theorem resetWhileHung_log : (resetWhileHung s).env.log = s.env.log := rfl

end Sys2Proof.Machine
end

