-- ==== Sys2Proof/Laws/Memory.lean ====
section
/-! SUPPORT. Storage: a read after a write, and the canonical form kept by every operation. -/

namespace Sys2Proof.Machine

theorem read_write_same (m : Memory) (a : Nat) (v : Byte) : Memory.read (Memory.write m a v) a = some v := by
  induction m with
  | nil => simp [Memory.write, Memory.read]
  | cons c m ih =>
    obtain ⟨b, w⟩ := c
    unfold Memory.write
    split
    · simp [Memory.read]
    · split
      · simp [Memory.read]
      · simp [Memory.read, *]

theorem read_write_other (m : Memory) {a b : Nat} (v : Byte) (h : b ≠ a) :
    Memory.read (Memory.write m a v) b = Memory.read m b := by
  induction m with
  | nil => simp [Memory.write, Memory.read, h]
  | cons c m ih =>
    obtain ⟨d, w⟩ := c
    unfold Memory.write
    split
    · simp [Memory.read, h]
    · split
      · subst_vars; simp [Memory.read, h]
      · simp [Memory.read, ih]

/-- What one store does to every read. -/
theorem read_write (m : Memory) (a b : Nat) (v : Byte) :
    Memory.read (Memory.write m a v) b = if b = a then some v else Memory.read m b := by
  split
  · subst_vars; exact read_write_same ..
  · exact read_write_other _ _ ‹_›

theorem mem_write (m : Memory) (a : Nat) (v : Byte) :
    ∀ c ∈ Memory.write m a v, c = (a, v) ∨ c ∈ m := by
  induction m with
  | nil => simp [Memory.write]
  | cons c m ih =>
    obtain ⟨d, w⟩ := c
    unfold Memory.write
    split
    · simp
    · split
      · intro c hc; simp at hc; tauto
      · intro c hc
        rcases List.mem_cons.1 hc with rfl | hc
        · simp
        · rcases ih c hc with h | h <;> simp [h]

/-- A store keeps the canonical form. -/
theorem write_wf (m : Memory) (a : Nat) (v : Byte) (h : Memory.wf m) : Memory.wf (Memory.write m a v) := by
  induction m with
  | nil => simp [Memory.write, Memory.wf]
  | cons c m ih =>
    obtain ⟨d, w⟩ := c
    obtain ⟨h1, h2⟩ := List.pairwise_cons.1 h
    unfold Memory.write
    split
    · refine List.pairwise_cons.2 ⟨fun c hc => ?_, h⟩
      rcases List.mem_cons.1 hc with rfl | hc
      · assumption
      · have := h1 c hc; simp at this; simp; omega
    · split
      · subst_vars; exact List.pairwise_cons.2 ⟨h1, h2⟩
      · refine List.pairwise_cons.2 ⟨fun c hc => ?_, ih h2⟩
        rcases mem_write _ _ _ c hc with rfl | hc
        · simp; omega
        · exact h1 c hc

/-- What storing consecutive bytes does to every read. -/
theorem read_store (bs : List Byte) (m : Memory) (a b : Nat) :
    Memory.read (Memory.store m a bs) b =
      if a ≤ b ∧ b < a + bs.length then bs[b - a]? else Memory.read m b := by
  induction bs generalizing m a with
  | nil => simp [Memory.store]
  | cons x bs ih =>
    rw [Memory.store, ih, read_write]
    simp only [List.length_cons]
    by_cases hb : b = a
    · subst hb; simp
    · by_cases h : a + 1 ≤ b ∧ b < a + 1 + bs.length
      · obtain ⟨k, rfl⟩ : ∃ k, b = a + 1 + k := ⟨b - (a + 1), by omega⟩
        have e1 : a + 1 + k - (a + 1) = k := by omega
        have e2 : a + 1 + k - a = k + 1 := by omega
        rw [if_pos h, if_pos (by omega), e1, e2]; simp
      · rw [if_neg h, if_neg hb, if_neg (by omega)]

theorem store_wf (bs : List Byte) (m : Memory) (a : Nat) (h : Memory.wf m) : Memory.wf (Memory.store m a bs) := by
  induction bs generalizing m a with
  | nil => exact h
  | cons x bs ih => exact ih _ _ (write_wf _ _ _ h)

theorem mem_store (bs : List Byte) (m : Memory) (a : Nat) :
    ∀ c ∈ Memory.store m a bs, c ∈ m ∨ (a ≤ c.1 ∧ c.1 < a + bs.length) := by
  induction bs generalizing m a with
  | nil => intro c hc; exact .inl hc
  | cons x bs ih =>
    intro c hc
    rcases ih _ _ c hc with h | h
    · rcases mem_write _ _ _ c h with rfl | h
      · right; simp
      · exact .inl h
    · right; simp only [List.length_cons]; omega

/-- Zero-fill: zero at the offsets below `n`, every other read as before. -/
theorem read_zeroFill (m : Memory) (n b : Nat) :
    Memory.read (Memory.zeroFill m n) b = if b < n then some 0#8 else Memory.read m b := by
  rw [Memory.zeroFill, read_store]
  by_cases h : b < n <;> simp [h]

theorem zeroFill_wf (m : Memory) (n : Nat) (h : Memory.wf m) : Memory.wf (Memory.zeroFill m n) := store_wf _ _ _ h

theorem mem_zeroFill (m : Memory) (n : Nat) : ∀ c ∈ Memory.zeroFill m n, c ∈ m ∨ c.1 < n := by
  intro c hc
  rcases mem_store _ _ _ c hc with h | h
  · exact .inl h
  · right; simpa using h.2

/-- The storage at reset is canonical. -/
theorem reset_mem_wf : Memory.wf State.reset.out.mem ∧ Memory.wf State.reset.inp.mem := by decide

end Sys2Proof.Machine
end

