-- ==== Sys2Proof/Laws/Ops.lean ====
section
/-! SUPPORT. What each shared operation can do, said once: the provers cite these and do not unfold the operation. -/

namespace Sys2Proof.Machine

/-! ## Running a procedure -/

/-- A run meets `P` if it ran to its end, `Q` if the command ended inside it, `F` if the model stopped. -/
def Run.Sat (P Q : State → Prop) (F : Fault → Prop) : Run → Prop
  | .ok s => P s
  | .ended s => Q s
  | .stop f => F f

@[simp] theorem sat_ok {P Q F} (s : State) : Run.Sat P Q F (.ok s) = P s := rfl
@[simp] theorem sat_ended {P Q F} (s : State) : Run.Sat P Q F (.ended s) = Q s := rfl
@[simp] theorem sat_stop {P Q F} (f : Fault) : Run.Sat P Q F (.stop f) = F f := rfl

theorem Run.Sat.mono {P Q F P' Q' F'} {r : Run} (h : r.Sat P Q F) (hp : ∀ s, P s → P' s) (hq : ∀ s, Q s → Q' s)
    (hf : ∀ f, F f → F' f) : r.Sat P' Q' F' := by
  cases r with
  | ok s => exact hp s h
  | ended s => exact hq s h
  | stop f => exact hf f h

/-- Sequential composition: what the first part gives, the second takes. -/
theorem Run.Sat.andThen {P Q F R} {r : Run} {f : State → Run} (h : r.Sat P Q F) (hf : ∀ s, P s → (f s).Sat R Q F) :
    (r.andThen f).Sat R Q F := by
  cases r with
  | ok s => exact hf s h
  | ended s => exact h
  | stop f => exact h

@[simp] theorem andThen_ok (s : State) (f : State → Run) : (Run.ok s).andThen f = f s := rfl
@[simp] theorem andThen_ended (s : State) (f : State → Run) : (Run.ended s).andThen f = .ended s := rfl
@[simp] theorem andThen_stop (e : Fault) (f : State → Run) : (Run.stop e).andThen f = .stop e := rfl

/-- A sequence ran to its end only if both parts did. -/
theorem andThen_eq_ok {r : Run} {f : State → Run} {t : State} :
    r.andThen f = .ok t ↔ ∃ s, r = .ok s ∧ f s = .ok t := by
  cases r <;> simp

@[simp] theorem outcome_ok (s : State) : (Run.ok s).outcome = .next (s.complete .done) := rfl
@[simp] theorem outcome_ended (s : State) : (Run.ended s).outcome = .next s := rfl
@[simp] theorem outcome_stop (f : Fault) : (Run.stop f).outcome = .fault f := rfl

/-- A command gives a next state by running to its end or by ending inside a procedure. -/
theorem outcome_eq_next {r : Run} {t : State} :
    r.outcome = .next t ↔ (∃ s, r = .ok s ∧ t = s.complete .done) ∨ r = .ended t := by
  cases r <;> simp [eq_comm]

/-! ## Acceptance -/

/-- A legal command in its mode runs its pseudocode (30_encoding.md R78 step 4). -/
theorem accept_runs {need : Mode} {legal : Bool} (body : State → Run) {s : State} (hl : legal = true)
    (hm : s.mode = need) : accept need legal body s = (body s).outcome := by
  simp [accept, hl, hm]

/-- Otherwise the word is rejected. -/
theorem accept_rejects {need : Mode} {legal : Bool} (body : State → Run) {s : State}
    (h : ¬(legal = true ∧ s.mode = need)) : accept need legal body s = rejectWord s := by
  simp only [accept, h, if_false]

theorem rejectWord_faulted {s : State} (h : s.mode = .faulted) : rejectWord s = .fault .notAccepted := by
  simp [rejectWord, h]

theorem rejectWord_raises {s : State} (h : s.mode ≠ .faulted) : rejectWord s = .next (raise .illegalCommand s) := by
  unfold rejectWord; split <;> simp_all

/-- Everything the acceptance of a command can answer with a next state. -/
theorem accept_next {need : Mode} {legal : Bool} {body : State → Run} {s t : State}
    (h : accept need legal body s = .next t) :
    (s.mode = need ∧ legal = true ∧ (body s).outcome = .next t) ∨
    (s.mode ≠ .faulted ∧ ¬(legal = true ∧ s.mode = need) ∧ t = raise .illegalCommand s) := by
  by_cases hc : legal = true ∧ s.mode = need
  · left; rw [accept_runs body hc.1 hc.2] at h; exact ⟨hc.2, hc.1, h⟩
  · right
    rw [accept_rejects body hc] at h
    by_cases hf : s.mode = .faulted
    · rw [rejectWord_faulted hf] at h; cases h
    · rw [rejectWord_raises hf] at h; cases h; exact ⟨hf, hc, rfl⟩

/-! ## Arrivals -/

/-- Outside FAULTED the port's next stimulus arrives. -/
theorem arrivals_of_not_faulted {s : State} (h : s.mode ≠ .faulted) : s.arrivals = s.env.port := if_neg fun hc => h hc.1

/-- With no reset to come the port's next stimulus arrives. -/
theorem arrivals_of_no_reset {s : State} (h : s.resetToCome = false) : s.arrivals = s.env.port :=
  if_neg fun hc => by simp [h] at hc

/-- A stimulus that asserts reset arrives at the head in any mode. -/
theorem arrivals_of_resets {s : State} {x : Stimulus} {rest : List Stimulus} (h : s.env.port = x :: rest)
    (hx : x.resets = true) : s.arrivals = x :: rest := by
  unfold State.arrivals State.portFromReset; rw [h]; split <;> simp [hx]

/-- Words that do not assert reset stand before one that does: that one is the first. -/
theorem portFromReset_eq {s : State} {words rest : List Stimulus} {x : Stimulus} (h : s.env.port = words ++ x :: rest)
    (hx : x.resets = true) (hw : ∀ y ∈ words, y.resets = false) : s.portFromReset = x :: rest := by
  unfold State.portFromReset
  rw [h, List.dropWhile_append_of_pos (fun y hy => by simp [hw y hy])]
  simp [hx]

theorem resetToCome_of_mem {s : State} {x : Stimulus} (h : x ∈ s.env.port) (hx : x.resets = true) : s.resetToCome = true :=
  List.any_eq_true.2 ⟨x, h, hx⟩

/-- In FAULTED a reset behind offered words arrives, and the words are past. -/
theorem arrivals_faulted {s : State} {words rest : List Stimulus} {x : Stimulus} (hm : s.mode = .faulted)
    (h : s.env.port = words ++ x :: rest) (hx : x.resets = true) (hw : ∀ y ∈ words, y.resets = false) :
    s.arrivals = x :: rest := by
  rw [State.arrivals, if_pos ⟨hm, resetToCome_of_mem (by simp [h]) hx⟩, portFromReset_eq h hx hw]

/-! ## The records of the ports -/

@[simp] theorem acceptedOf_append (l m : List PortEvent) : acceptedOf (l ++ m) = acceptedOf l ++ acceptedOf m := by
  induction l with
  | nil => rfl
  | cons e l ih => cases e <;> simp [acceptedOf, ih]

@[simp] theorem hooksOf_append (l m : List PortEvent) : hooksOf (l ++ m) = hooksOf l ++ hooksOf m := by
  induction l with
  | nil => rfl
  | cons e l ih => cases e <;> simp [hooksOf, ih]

/-! ## The output buffer -/

@[simp] theorem buffered_length (s : State) : s.buffered.length = s.out.pos.toNat := by
  simp [State.buffered]

/-- A stored byte is the byte read. -/
theorem outByte_eq {s : State} {i : Nat} {b : Byte} (h : Memory.read s.out.mem i = some b) : s.outByte i = b := by
  simp [State.outByte, h]

/-- With nothing buffered the stream is the sink. -/
theorem stream_of_empty {s : State} (h : s.out.pos = 0#14) : s.stream = s.env.sink := by
  simp [State.stream, State.buffered, h]

/-- The buffered bytes depend on the output buffer and the epoch alone. -/
theorem buffered_congr {s t : State} (ho : t.out = s.out) (he : t.epoch = s.epoch) : t.buffered = s.buffered := by
  have : t.outByte = s.outByte := by funext i; simp [State.outByte, ho, he]
  simp [State.buffered, this, ho]

/-- Below the capacity the cursor does not wrap. -/
theorem pos_succ {b : Buffer} (h : b.pos < b.cap) : (b.pos + 1#14).toNat = b.pos.toNat + 1 := by
  have h1 := b.cap.isLt
  have h2 : b.pos.toNat < b.cap.toNat := h
  simp only [BitVec.toNat_add, BitVec.toNat_ofNat]; omega

/-- A pushed byte is the youngest buffered byte. -/
theorem buffered_pushByte {s : State} (v : Byte) (h : s.out.pos < s.out.cap) :
    (pushByte v s).buffered = s.buffered ++ [v] := by
  have hlast : (pushByte v s).outByte s.out.pos.toNat = v := outByte_eq (by simp [read_write_same])
  have hinit : (List.range s.out.pos.toNat).map (pushByte v s).outByte = (List.range s.out.pos.toNat).map s.outByte := by
    refine List.map_congr_left fun i hi => ?_
    have hi : i ≠ s.out.pos.toNat := by have := List.mem_range.1 hi; omega
    simp [State.outByte, read_write_other _ _ hi]
  simp only [State.buffered, pushByte_out, pos_succ h, List.range_succ, List.map_append, hinit, List.map_cons, List.map_nil,
    hlast]

/-! ## Drain -/

/-- Everything Drain can do (41_buffer.md R100). -/
theorem drain_cases (s : State) :
    (s.out.pos = 0#14 ∧ drain s = .ok s) ∨
    (s.out.cap < s.out.pos ∧ drain s = .stop .outOfRange) ∨
    (s.out.pos ≠ 0#14 ∧ s.out.pos ≤ s.out.cap ∧
      ((s.sinkAnswer = .never ∧ s.resetToCome = false ∧ drain s = .stop .unanswered) ∨
       (s.sinkAnswer = .never ∧ s.resetToCome = true ∧
          drain s = .ended (resetWhileHung (sinkWrite s.buffered 0 s.popSink))) ∨
       (∃ k, s.sinkAnswer = .takeThenReset k ∧
          drain s = .ended (resetBlock (sinkWrite s.buffered (min k s.out.pos.toNat) s.popSink))) ∨
       (∃ k, s.sinkAnswer = .take k ∧ k < s.out.pos.toNat ∧ drain s = .fail (sinkWrite s.buffered k s.popSink)) ∨
       (∃ k, s.sinkAnswer = .take k ∧ s.out.pos.toNat ≤ k ∧
          drain s = .ok (clearOut (sinkWrite s.buffered s.out.pos.toNat s.popSink))))) := by
  unfold drain
  by_cases h0 : s.out.pos = 0#14
  · simp [h0]
  · by_cases h1 : s.out.cap < s.out.pos
    · simp [h0, h1]
    · right; right
      refine ⟨h0, BitVec.not_lt.1 h1, ?_⟩
      cases ha : s.sinkAnswer with
      | never => cases hr : s.resetToCome <;> simp [h0, h1]
      | takeThenReset k => simp [h0, h1]
      | take k =>
        by_cases hk : k < s.out.pos.toNat
        · simp [h0, h1, hk, short]
        · simp [h0, h1, hk, short]; omega

/-- The state after a drain that the sink accepted whole. -/
def drained (s : State) : State := clearOut (sinkWrite s.buffered s.out.pos.toNat s.popSink)

@[simp] theorem drained_out (s : State) :
    (drained s).out = { cap := s.out.cap, pos := 0#14, mem := Memory.zeroFill s.out.mem s.out.pos.toNat } := rfl

/-- A successful drain moves the buffered bytes to the sink: the stream is the same. -/
theorem stream_drained (s : State) : (drained s).stream = s.stream := by
  rw [stream_of_empty rfl]
  simp only [drained, clearOut_env, sinkWrite_sink, popSink_sink, State.stream]
  rw [← buffered_length s, List.take_length]

/-- Everything `if Drain() = fail: raise Fault(kind)` can do. -/
theorem drainOr_cases (kind : FaultKind) (s : State) :
    (s.out.pos = 0#14 ∧ drainOr kind s = .ok s) ∨
    (s.out.cap < s.out.pos ∧ drainOr kind s = .stop .outOfRange) ∨
    (s.out.pos ≠ 0#14 ∧ s.out.pos ≤ s.out.cap ∧
      ((s.sinkAnswer = .never ∧ s.resetToCome = false ∧ drainOr kind s = .stop .unanswered) ∨
       (s.sinkAnswer = .never ∧ s.resetToCome = true ∧
          drainOr kind s = .ended (resetWhileHung (sinkWrite s.buffered 0 s.popSink))) ∨
       (∃ k, s.sinkAnswer = .takeThenReset k ∧
          drainOr kind s = .ended (resetBlock (sinkWrite s.buffered (min k s.out.pos.toNat) s.popSink))) ∨
       (∃ k, s.sinkAnswer = .take k ∧ k < s.out.pos.toNat ∧
          drainOr kind s = .ended (raise kind (sinkWrite s.buffered k s.popSink))) ∨
       (∃ k, s.sinkAnswer = .take k ∧ s.out.pos.toNat ≤ k ∧ drainOr kind s = .ok (drained s)))) := by
  unfold drainOr
  rcases drain_cases s with ⟨h, e⟩ | ⟨h, e⟩ | ⟨h, h', ⟨ha, hr, e⟩ | ⟨ha, hr, e⟩ | ⟨k, ha, e⟩ | ⟨k, ha, hk, e⟩ | ⟨k, ha, hk, e⟩⟩ <;>
    rw [e]
  · exact .inl ⟨h, rfl⟩
  · exact .inr (.inl ⟨h, rfl⟩)
  · exact .inr (.inr ⟨h, h', .inl ⟨ha, hr, rfl⟩⟩)
  · exact .inr (.inr ⟨h, h', .inr (.inl ⟨ha, hr, rfl⟩)⟩)
  · exact .inr (.inr ⟨h, h', .inr (.inr (.inl ⟨k, ha, rfl⟩))⟩)
  · exact .inr (.inr ⟨h, h', .inr (.inr (.inr (.inl ⟨k, ha, hk, rfl⟩)))⟩)
  · exact .inr (.inr ⟨h, h', .inr (.inr (.inr (.inr ⟨k, ha, hk, rfl⟩)))⟩)

/-! ## WriteByte -/

/-- Everything WriteByte can do (42_primitive_writers.md R110). -/
theorem writeByte_cases (v : Byte) (s : State) :
    (s.out.cap ≤ s.out.pos ∧ writeByte v s = .stop .outOfRange) ∨
    (s.out.pos < s.out.cap ∧ s.out.pos.toNat + 1 < s.out.cap.toNat ∧ writeByte v s = .ok (pushByte v s)) ∨
    (s.out.pos < s.out.cap ∧ s.out.pos.toNat + 1 = s.out.cap.toNat ∧
      ((s.sinkAnswer = .never ∧ s.resetToCome = false ∧ writeByte v s = .stop .unanswered) ∨
       (s.sinkAnswer = .never ∧ s.resetToCome = true ∧ writeByte v s =
          .ended (resetWhileHung (sinkWrite (s.buffered ++ [v]) 0 (pushByte v s).popSink))) ∨
       (∃ k, s.sinkAnswer = .takeThenReset k ∧ writeByte v s =
          .ended (resetBlock (sinkWrite (s.buffered ++ [v]) (min k s.out.cap.toNat) (pushByte v s).popSink))) ∨
       (∃ k, s.sinkAnswer = .take k ∧ k < s.out.cap.toNat ∧ writeByte v s =
          .ended (raise .bufferWriteError (sinkWrite (s.buffered ++ [v]) k (pushByte v s).popSink))) ∨
       (∃ k, s.sinkAnswer = .take k ∧ s.out.cap.toNat ≤ k ∧ writeByte v s = .ok (drained (pushByte v s))))) := by
  by_cases hlt : s.out.pos < s.out.cap
  · have hs := pos_succ hlt
    by_cases hf : s.out.pos.toNat + 1 = s.out.cap.toNat
    · have hpc : s.out.pos + 1#14 = s.out.cap := BitVec.eq_of_toNat_eq (by rw [hs, hf])
      have hfull : bufferFull (pushByte v s).out = true := by simp [bufferFull, hpc]
      have hne : ¬(pushByte v s).out.pos = 0#14 := by
        intro h; have : (s.out.pos + 1#14).toNat = 0 := by rw [pushByte_out] at h; simp at h; simp [h]
        omega
      have hcap : ¬(pushByte v s).out.cap < (pushByte v s).out.pos := by simp [hpc]
      have hpos : (pushByte v s).out.pos.toNat = s.out.cap.toNat := by simp [hpc]
      have hans : (pushByte v s).sinkAnswer = s.sinkAnswer := rfl
      have hcome : (pushByte v s).resetToCome = s.resetToCome := rfl
      have hbuf := buffered_pushByte v hlt
      refine .inr (.inr ⟨hlt, hf, ?_⟩)
      rcases drainOr_cases .bufferWriteError (pushByte v s) with ⟨h, e⟩ | ⟨h, e⟩ | ⟨h, h', hc⟩
      · exact absurd h hne
      · exact absurd h hcap
      · rw [hans, hcome, hbuf, hpos] at hc
        rw [show writeByte v s = drainOr .bufferWriteError (pushByte v s) by
          unfold writeByte; rw [if_pos hlt, if_pos hfull]]
        exact hc
    · have hnf : bufferFull (pushByte v s).out = false := by
        simp only [bufferFull, pushByte_out, beq_eq_false_iff_ne]
        intro h; have := congrArg BitVec.toNat h; omega
      have hlt' : s.out.pos.toNat < s.out.cap.toNat := hlt
      exact .inr (.inl ⟨hlt, by omega, by unfold writeByte; rw [if_pos hlt, if_neg (by simp only [hnf]; decide)]⟩)
  · exact .inl ⟨BitVec.not_lt.1 hlt, by simp [writeByte, hlt]⟩

/-! ## What a run of byte stores keeps -/

/-- A port record that holds sink transactions only, each within the bounds of 20_memory.md R59. -/
inductive OnlySinkWrites (cap : Nat) : List PortEvent → Prop
  | nil : OnlySinkWrites cap []
  | cons {bytes : List Byte} {k : Nat} {l : List PortEvent} (h : 1 ≤ bytes.length ∧ bytes.length ≤ cap ∧ k ≤ bytes.length) :
      OnlySinkWrites cap l → OnlySinkWrites cap (.sinkWrite bytes k :: l)

theorem OnlySinkWrites.append {cap : Nat} {l m : List PortEvent} (hl : OnlySinkWrites cap l) (hm : OnlySinkWrites cap m) :
    OnlySinkWrites cap (l ++ m) := by
  induction hl with
  | nil => exact hm
  | cons h _ ih => exact .cons h ih

theorem OnlySinkWrites.facts {cap : Nat} {l : List PortEvent} (h : OnlySinkWrites cap l) :
    hooksOf l = [] ∧ ∀ e ∈ l, e.isSource = false ∧ e.sinkWriteOk cap := by
  induction h with
  | nil => simp [hooksOf]
  | cons h _ ih => simpa [hooksOf, PortEvent.isSource, PortEvent.sinkWriteOk, h] using ih

/-- `t` comes from `s` by storing `bytes`, with the drains that follow from it, and nothing else
(42_primitive_writers.md R114). -/
structure Stored (bytes : List Byte) (s t : State) : Prop where
  stream : t.stream = s.stream ++ bytes
  params : t.params = s.params
  mode : t.mode = s.mode
  fault : t.fault = s.fault
  acc : t.acc = s.acc
  cap : t.out.cap = s.out.cap
  inp : t.inp = s.inp
  epoch : t.epoch = s.epoch
  port : t.env.port = s.env.port
  src : t.env.src = s.env.src
  srcPos : t.env.srcPos = s.env.srcPos
  sourceAnswers : t.env.sourceAnswers = s.env.sourceAnswers
  seekResets : t.env.seekResets = s.env.seekResets
  hooks : t.env.hooks = s.env.hooks
  sinkAnswers : t.env.sinkAnswers <:+ s.env.sinkAnswers
  log : ∃ l, t.env.log = s.env.log ++ l ∧ t.env.sink = s.env.sink ++ acceptedOf l ∧ OnlySinkWrites s.out.cap.toNat l

theorem Stored.refl (s : State) : Stored [] s s where
  stream := by simp
  params := rfl
  mode := rfl
  fault := rfl
  acc := rfl
  cap := rfl
  inp := rfl
  epoch := rfl
  port := rfl
  src := rfl
  srcPos := rfl
  sourceAnswers := rfl
  seekResets := rfl
  hooks := rfl
  sinkAnswers := List.suffix_refl _
  log := ⟨[], by simp, by simp [acceptedOf], .nil⟩

theorem Stored.trans {b c : List Byte} {s t u : State} (h : Stored b s t) (h' : Stored c t u) : Stored (b ++ c) s u := by
  obtain ⟨l, el, es, hl⟩ := h.log
  obtain ⟨m, em, es', hm⟩ := h'.log
  exact {
    stream := by rw [h'.stream, h.stream, List.append_assoc]
    params := h'.params.trans h.params
    mode := h'.mode.trans h.mode
    fault := h'.fault.trans h.fault
    acc := h'.acc.trans h.acc
    cap := h'.cap.trans h.cap
    inp := h'.inp.trans h.inp
    epoch := h'.epoch.trans h.epoch
    port := h'.port.trans h.port
    src := h'.src.trans h.src
    srcPos := h'.srcPos.trans h.srcPos
    sourceAnswers := h'.sourceAnswers.trans h.sourceAnswers
    seekResets := h'.seekResets.trans h.seekResets
    hooks := h'.hooks.trans h.hooks
    sinkAnswers := h'.sinkAnswers.trans h.sinkAnswers
    log := ⟨l ++ m, by rw [em, el, List.append_assoc], by rw [es', es, acceptedOf_append, List.append_assoc],
      hl.append (h.cap ▸ hm)⟩ }

theorem stored_pushByte {s : State} (v : Byte) (h : s.out.pos < s.out.cap) : Stored [v] s (pushByte v s) where
  stream := by simp [State.stream, buffered_pushByte v h]
  params := rfl
  mode := rfl
  fault := rfl
  acc := rfl
  cap := rfl
  inp := rfl
  epoch := rfl
  port := rfl
  src := rfl
  srcPos := rfl
  sourceAnswers := rfl
  seekResets := rfl
  hooks := rfl
  sinkAnswers := List.suffix_refl _
  log := ⟨[], by simp, by simp [acceptedOf], .nil⟩

theorem stored_drained {s : State} (h0 : s.out.pos ≠ 0#14) (hle : s.out.pos ≤ s.out.cap) : Stored [] s (drained s) where
  stream := by simp [stream_drained]
  params := rfl
  mode := rfl
  fault := rfl
  acc := rfl
  cap := rfl
  inp := rfl
  epoch := rfl
  port := rfl
  src := rfl
  srcPos := rfl
  sourceAnswers := rfl
  seekResets := rfl
  hooks := rfl
  sinkAnswers := List.tail_suffix _
  log := ⟨[.sinkWrite s.buffered s.out.pos.toNat], rfl, by simp [drained, acceptedOf], by
    refine .cons ?_ .nil
    have h1 : s.out.pos.toNat ≠ 0 := fun h => h0 (BitVec.eq_of_toNat_eq h)
    have h2 : s.out.pos.toNat ≤ s.out.cap.toNat := hle
    simp only [buffered_length]; omega⟩

/-- WriteByte that ran to its end stored its byte. -/
theorem stored_writeByte {v : Byte} {s t : State} (h : writeByte v s = .ok t) : Stored [v] s t := by
  rcases writeByte_cases v s with ⟨_, e⟩ | ⟨hlt, _, e⟩ |
    ⟨hlt, hfull, ⟨_, _, e⟩ | ⟨_, _, e⟩ | ⟨_, _, e⟩ | ⟨_, _, _, e⟩ | ⟨_, _, _, e⟩⟩ <;> rw [e] at h <;> cases h
  · exact stored_pushByte v hlt
  · have hpos : (pushByte v s).out.pos = s.out.cap :=
      BitVec.eq_of_toNat_eq (by rw [pushByte_out]; simp only; rw [pos_succ hlt, hfull])
    have hne : (pushByte v s).out.pos ≠ 0#14 := by
      intro h; rw [hpos] at h; rw [h] at hfull; simp at hfull
    exact (stored_pushByte v hlt).trans (stored_drained hne (by rw [hpos]; exact BitVec.le_refl _))

end Sys2Proof.Machine
end

