-- ==== Sys2Proof/Laws/Writers.lean ====
section
/-! SUPPORT. Every writer is a list of bytes written one after the other: what such a list does, said once
(42_primitive_writers.md, 43_bit_writer.md). -/

namespace Sys2Proof.Machine

/-- WriteByte for each byte of a list. -/
def writeAll : List Byte → State → Run
  | [], s => .ok s
  | b :: bs, s => (writeByte b s).andThen (writeAll bs)

theorem andThen_assoc (r : Run) (f g : State → Run) : (r.andThen f).andThen g = r.andThen fun s => (f s).andThen g := by
  cases r <;> rfl

theorem writeAll_append (bs cs : List Byte) (s : State) :
    writeAll (bs ++ cs) s = (writeAll bs s).andThen (writeAll cs) := by
  induction bs generalizing s with
  | nil => rfl
  | cons b bs ih =>
    simp only [List.cons_append, writeAll, andThen_assoc]
    exact congrArg _ (funext ih)

theorem andThen_ok_id (r : Run) : r.andThen .ok = r := by cases r <;> rfl

theorem writeAll_single (b : Byte) (s : State) : writeAll [b] s = writeByte b s := andThen_ok_id _

/-- Everything a list of bytes can do: all are stored, or the first that does not run to its end ends the run. -/
theorem writeAll_cases (bs : List Byte) (s : State) :
    (∃ t, writeAll bs s = .ok t ∧ Stored bs s t) ∨
    (∃ pre v post u, bs = pre ++ v :: post ∧ Stored pre s u ∧ writeAll pre s = .ok u ∧ writeAll bs s = writeByte v u ∧
      ∀ t, writeByte v u ≠ .ok t) := by
  induction bs generalizing s with
  | nil => exact .inl ⟨s, rfl, .refl s⟩
  | cons b bs ih =>
    by_cases hb : ∃ u, writeByte b s = .ok u
    · obtain ⟨u, hu⟩ := hb
      rcases ih u with ⟨t, e, ht⟩ | ⟨pre, v, post, w, rfl, hw, hp, e, hn⟩
      · exact .inl ⟨t, by simp [writeAll, hu, e], (stored_writeByte hu).trans ht⟩
      · exact .inr ⟨b :: pre, v, post, w, rfl, (stored_writeByte hu).trans hw, by simp [writeAll, hu, hp],
          by simp [writeAll, hu, e], hn⟩
    · refine .inr ⟨[], b, bs, s, rfl, .refl s, rfl, ?_, fun t ht => hb ⟨t, ht⟩⟩
      cases h : writeByte b s <;> simp_all [writeAll]

theorem stored_writeAll {bs : List Byte} {s t : State} (h : writeAll bs s = .ok t) : Stored bs s t := by
  rcases writeAll_cases bs s with ⟨u, e, hu⟩ | ⟨_, _, _, _, _, _, _, e, hn⟩
  · rw [e] at h; cases h; exact hu
  · exact absurd (e ▸ h) (hn t)

/-! ## Byte stores and ACC -/

/-- The same run with another accumulator, where no reset ended it. -/
def Run.withAcc (a : Acc) : Run → Run
  | .ok s => .ok (setAcc a s)
  | .ended s => .ended (if s.mode = .uninit then s else setAcc a s)
  | .stop f => .stop f

/-- WriteByte never reads ACC (42_primitive_writers.md R114). -/
theorem writeByte_setAcc (v : Byte) (a : Acc) (s : State) : writeByte v (setAcc a s) = (writeByte v s).withAcc a := by
  have hp : pushByte v (setAcc a s) = setAcc a (pushByte v s) := rfl
  have ho : ∀ s : State, (setAcc a s).out = s.out := fun _ => rfl
  have ha : ∀ s : State, (setAcc a s).sinkAnswer = s.sinkAnswer := fun _ => rfl
  have hr : ∀ s : State, (setAcc a s).resetToCome = s.resetToCome := fun _ => rfl
  by_cases h1 : s.out.pos < s.out.cap
  · cases h2 : bufferFull (pushByte v s).out
    · simp only [writeByte, hp, ho, if_pos h1, h2]; rfl
    · simp only [writeByte, hp, ho, if_pos h1, h2, if_true, drainOr, drain, ha, hr]
      by_cases h3 : (pushByte v s).out.pos = 0#14
      · simp only [if_pos h3]; rfl
      · by_cases h4 : (pushByte v s).out.cap < (pushByte v s).out.pos
        · simp only [if_neg h3, if_pos h4]; rfl
        · simp only [if_neg h3, if_neg h4]
          cases (pushByte v s).sinkAnswer with
          | never => cases (pushByte v s).resetToCome <;> rfl
          | takeThenReset k => rfl
          | take k => cases h : short k (pushByte v s).out.pos.toNat <;> simp only [h] <;> rfl
  · simp only [writeByte, ho, if_neg h1]; rfl

/-- A list of bytes never reads ACC. -/
theorem writeAll_setAcc (bs : List Byte) (a : Acc) (s : State) : writeAll bs (setAcc a s) = (writeAll bs s).withAcc a := by
  induction bs generalizing s with
  | nil => rfl
  | cons b bs ih =>
    simp only [writeAll, writeByte_setAcc]
    cases writeByte b s with
    | ok u => exact ih u
    | ended u => rfl
    | stop f => rfl

/-! ## The writers as lists of bytes -/

theorem writeTwo_eq (b1 b2 : Byte) (s : State) : writeTwo b1 b2 s = writeAll [b1, b2] s := by
  simp only [writeTwo, writeAll, andThen_ok_id]

/-- EmitStuffed (43_bit_writer.md R120). -/
theorem emitStuffed_eq (b : Byte) (s : State) : emitStuffed b s = writeAll (stuffed b) s := by
  by_cases hb : b = 0xFF#8
  · simp only [emitStuffed, stuffed, needsStuffing, hb, beq_self_eq_true, if_true]
    exact writeTwo_eq _ _ s
  · simp only [emitStuffed, stuffed, needsStuffing, beq_iff_eq, hb, if_false, writeAll]

theorem windowFilled_iff (n : Nat) : windowFilled n = true ↔ 16 ≤ n := by simp [windowFilled]

/-- ACC after a code that fills the window (43_bit_writer.md R121). -/
theorem accAfter_full {len : Nat} {val : Word} {a : Acc} (h : 16 ≤ len + a.len.toNat) : accAfter len val a =
    { len := BitVec.ofNat 5 (len + a.len.toNat - 16), val := shl16 val (16 - (len + a.len.toNat - 16)) } :=
  if_pos ((windowFilled_iff _).2 h)

/-- ACC after a code that does not fill the window (43_bit_writer.md R121). -/
theorem accAfter_part {len : Nat} {val : Word} {a : Acc} (h : ¬16 ≤ len + a.len.toNat) : accAfter len val a =
    { len := BitVec.ofNat 5 (len + a.len.toNat), val := a.val ||| shl16 val (16 - (len + a.len.toNat)) } :=
  if_neg (fun hw => h ((windowFilled_iff _).1 hw))

/-- WriteBits: its data bytes, stuffed, then ACC (43_bit_writer.md R121). -/
theorem writeBits_eq (len : Nat) (val : Word) (s : State) :
    writeBits len val s =
      (writeAll (stuff (writeBitsData len val s.acc)) s).andThen fun u => .ok (setAcc (accAfter len val s.acc) u) := by
  unfold writeBits writeBitsData
  by_cases hw : 16 ≤ len + s.acc.len.toNat
  · rw [if_pos (show windowFilled (totalBits len s.acc) = true from (windowFilled_iff _).2 hw), if_pos hw]
    simp only [stuff, List.flatMap_cons, List.flatMap_nil, List.append_nil, writeAll_append, emitStuffed_eq]
    congr 1
    cases writeAll (stuffed (hi8 (letterOf len val s.acc))) s <;> simp [emitStuffed_eq]
  · rw [if_neg (show ¬windowFilled (totalBits len s.acc) = true by rw [windowFilled_iff]; exact hw), if_neg hw]
    rfl

/-- Step 3 of WRITE_ALIGN_BITS: the pending byte, stuffed, then ACC (43_bit_writer.md R126). -/
theorem flushByte_eq (s : State) :
    flushByte s = if s.acc.len = 8#5 then
      (writeAll (stuffed (hi8 s.acc.val)) s).andThen fun u => .ok (setAcc { len := 0#5, val := 0#16 } u) else .ok s := by
  by_cases hb : s.acc.len = 8#5 <;> simp [flushByte, bytePending, hb, emitStuffed_eq]

/-! ## Bounds -/

/-- A list of bytes with room in the buffer is stored at the cursor, with no transaction. -/
theorem writeAll_room {bs : List Byte} {s : State} (h : s.out.pos.toNat + bs.length < s.out.cap.toNat) :
    writeAll bs s = .ok { s with out := { s.out with
      pos := s.out.pos + BitVec.ofNat 14 bs.length, mem := Memory.store s.out.mem s.out.pos.toNat bs } } := by
  induction bs generalizing s with
  | nil => simp [writeAll, Memory.store]
  | cons b bs ih =>
    simp only [List.length_cons] at h
    have hlt : s.out.pos < s.out.cap := show s.out.pos.toNat < s.out.cap.toNat by omega
    have hp : (pushByte b s).out.pos.toNat = s.out.pos.toNat + 1 := pos_succ hlt
    have e1 : writeByte b s = .ok (pushByte b s) := by
      rcases writeByte_cases b s with ⟨h', e⟩ | ⟨hlt, h', e⟩ | ⟨hlt, h', _⟩
      · have : s.out.cap.toNat ≤ s.out.pos.toNat := h'; omega
      · exact e
      · omega
    simp only [writeAll, e1, andThen_ok]
    rw [ih (by rw [hp]; simp; omega), hp]
    have : s.out.pos + 1#14 + BitVec.ofNat 14 bs.length = s.out.pos + BitVec.ofNat 14 (bs.length + 1) := by
      rw [BitVec.add_assoc, Nat.add_comm, BitVec.ofNat_add]
    simp [pushByte, Memory.store, this]

theorem stuff_append (a b : List Byte) : stuff (a ++ b) = stuff a ++ stuff b := by simp [stuff]

/-- Stuffing at most doubles the bytes. -/
theorem stuff_length_le (l : List Byte) : (stuff l).length ≤ 2 * l.length := by
  induction l with
  | nil => simp [stuff]
  | cons b l ih =>
    have h1 : stuff (b :: l) = stuffed b ++ stuff l := rfl
    have h2 : (stuffed b).length ≤ 2 := by unfold stuffed; split <;> simp
    rw [h1, List.length_append, List.length_cons]
    omega

/-- WriteBits emits two data bytes or none. -/
theorem writeBitsData_length (l : Nat) (v : Word) (a : Acc) : (writeBitsData l v a).length ≤ 2 := by
  unfold writeBitsData; split <;> simp

theorem padLength_le (p : AlignOnBoundary) (a : Acc) : padLength p a ≤ 8 := by unfold padLength; split <;> omega

/-- The padding code fits its length. -/
theorem ones_lt {n : Nat} (h : n ≤ 16) : (ones n).toNat < 2 ^ n := by
  have : 2 ^ n ≤ 2 ^ 16 := Nat.pow_le_pow_right (by decide) h
  have := Nat.two_pow_pos n
  simp [ones]; omega

theorem hi8_or (x y : Word) : hi8 (x ||| y) = hi8 x ||| hi8 y := by simp [hi8, BitVec.extractLsb'_or]
theorem lo8_or (x y : Word) : lo8 (x ||| y) = lo8 x ||| lo8 y := by simp [lo8, BitVec.extractLsb'_or]

/-! ## Bits -/

theorem shl_eq_zero_iff (x : Word) (n : Nat) : x <<< n = 0#16 ↔ ∀ i, i + n < 16 → x.getLsbD i = false := by
  constructor
  · intro h i hi
    have := congrArg (fun y : Word => y.getLsbD (i + n)) h
    simp only [BitVec.getLsbD_shiftLeft, BitVec.getLsbD_zero, hi] at this
    simpa using this
  · intro h
    apply BitVec.eq_of_getLsbD_eq
    intro i hi
    simp only [BitVec.getLsbD_shiftLeft, BitVec.getLsbD_zero]
    by_cases hin : i < n
    · simp [hin]
    · rw [h (i - n) (by omega)]; simp

/-- A value that fits `l` bits has none at `l` or above. -/
theorem getLsbD_of_fits {v : Word} {l : Nat} (hv : v.toNat < 2 ^ l) (i : Nat) (h : l ≤ i) : v.getLsbD i = false := by
  rw [BitVec.getLsbD]
  exact Nat.testBit_lt_two_pow (Nat.lt_of_lt_of_le hv (Nat.pow_le_pow_right (by decide) h))

theorem and_eq_zero {x y : Word} (h : ∀ i, i < 16 → x.getLsbD i = false ∨ y.getLsbD i = false) : x &&& y = 0#16 := by
  apply BitVec.eq_of_getLsbD_eq; intro i hi
  rcases h i hi with h | h <;> simp [BitVec.getLsbD_and, h]

end Sys2Proof.Machine
end

