-- ==== Sys2Proof/Laws/Align.lean ====
section
/-! SUPPORT. WRITE_ALIGN_BITS: its pseudocode against the table of 43_bit_writer.md R126. -/

namespace Sys2Proof.Machine

theorem or_zero_byte (x : Byte) : x ||| 0#8 = x := by simp
theorem or_ff_byte (x : Byte) : x ||| 255#8 = 255#8 := by revert x; decide

/-- The data bytes of the padding code and of step 3 together are those of R126's table, and step 3 is needed exactly where
the padding did not empty `ACC`. -/
theorem alignData_of_pseudocode (p : AlignOnBoundary) (a : Acc) (ha : AccOk a) (n : Nat) (hn : n = padLength p a) :
    writeBitsData n (ones n) a ++
      (if (accAfter n (ones n) a).len = 8#5 then [hi8 (accAfter n (ones n) a).val] else []) = alignData p a ∧
    ((accAfter n (ones n) a).len = 8#5 ∨ accAfter n (ones n) a = ⟨0#5, 0#16⟩) := by
  obtain ⟨len, val⟩ := a; obtain ⟨h15, hz⟩ := ha
  unfold padLength alignRemainder at hn
  have : ∃ k, k < 16 ∧ len = BitVec.ofNat 5 k := ⟨len.toNat, by simp at h15; omega, by simp⟩
  obtain ⟨k, hk, rfl⟩ := this
  have e : (BitVec.ofNat 5 k).toNat = k := by simp; omega
  simp only [e] at hn hz h15
  by_cases h8 : k < 8
  · by_cases h0 : k = 0
    · subst h0
      have : val = 0#16 := by simpa using hz
      subst this
      cases p <;> simp at hn <;> subst hn <;> decide
    · have hn' : n = 8 - k := by rw [hn, if_neg (by simp; omega)]; omega
      subst hn'
      have hnf : ¬ 16 ≤ (8 - k) + (⟨BitVec.ofNat 5 k, val⟩ : Acc).len.toNat := by simp only [e]; omega
      rw [accAfter_part hnf, writeBitsData, if_neg hnf, alignData]
      simp only [e]
      rw [if_neg h0, if_pos h8, show 8 - k + k = 8 by omega]
      refine ⟨?_, .inl rfl⟩
      simp only [if_true, List.nil_append, hi8_or]
      congr 2
      interval_cases k <;> decide
  · by_cases he : k = 8
    · subst he
      cases p
      · simp at hn; subst hn
        have hf : 16 ≤ 8 + (⟨BitVec.ofNat 5 8, val⟩ : Acc).len.toNat := by simp
        rw [accAfter_full hf, writeBitsData, if_pos hf]
        refine ⟨?_, .inr (by simp [shl16, ones])⟩
        rw [if_neg (by simp)]
        simp only [letterOf, hi8_or, lo8_or, totalBits, alignData, boundaryPad, e]
        rw [show hi8 (shr (ones 8) (8 + 8 - 16)) = 0#8 by decide, show lo8 (shr (ones 8) (8 + 8 - 16)) = 255#8 by decide, or_zero_byte, or_ff_byte]
        simp
      · simp at hn; subst hn
        have hf : ¬ 16 ≤ 0 + (⟨BitVec.ofNat 5 8, val⟩ : Acc).len.toNat := by simp
        rw [accAfter_part hf, writeBitsData, if_neg hf]
        refine ⟨?_, .inl (by simp)⟩
        simp [alignData, boundaryPad, shl16, ones]
    · have hn' : n = 16 - k := by rw [hn, if_neg (by simp; omega)]; omega
      subst hn'
      have hf : 16 ≤ (16 - k) + (⟨BitVec.ofNat 5 k, val⟩ : Acc).len.toNat := by simp only [e]; omega
      rw [accAfter_full hf, writeBitsData, if_pos hf, alignData]
      simp only [e]
      rw [if_neg (show ¬ k = 0 by omega), if_neg h8, if_neg he, show 16 - k + k - 16 = 0 by omega]
      refine ⟨?_, .inr (by simp [shl16])⟩
      rw [if_neg (by decide)]
      simp only [letterOf, hi8_or, lo8_or, totalBits, e, show 16 - k + k - 16 = 0 by omega, List.append_nil]
      have h1 : hi8 (shr (ones (16 - k)) 0) = 0#8 := by interval_cases k <;> decide
      have h2 : shr (ones (16 - k)) 0 = ones (16 - k) := by simp [shr]
      rw [h1, h2, or_zero_byte]

/-- What stored bytes from one accumulator stores them from any. -/
theorem stored_setAcc {bs a} {w x : State} (h : Stored bs (setAcc a w) x) : Stored bs w (setAcc w.acc x) :=
  ⟨h.stream, h.params, h.mode, h.fault, rfl, h.cap, h.inp, h.epoch, h.port, h.src, h.srcPos, h.sourceAnswers, h.seekResets, h.hooks,
    h.sinkAnswers, h.log⟩

/-- WRITE_ALIGN_BITS is its bytes in two parts, between which the padding writes `ACC` (43_bit_writer.md R126). -/
theorem alignBody_eq {s : State} (ha : AccOk s.acc) : ∃ (b1 b2 : List Byte) (a : Acc),
    stuff (alignData s.params.alignOnBoundary s.acc) = b1 ++ b2 ∧
    alignBody s = (writeAll b1 s).andThen fun u =>
      (writeAll b2 (setAcc a u)).andThen fun w => .ok (setAcc { len := 0#5, val := 0#16 } w) := by
  obtain ⟨hd, hacc⟩ := alignData_of_pseudocode s.params.alignOnBoundary s.acc ha _ rfl
  unfold alignBody
  generalize padLength s.params.alignOnBoundary s.acc = n at hd hacc
  refine ⟨_, _, accAfter n (ones n) s.acc, by rw [← hd, stuff_append], ?_⟩
  rw [writeBits_eq]
  cases writeAll (stuff (writeBitsData n (ones n) s.acc)) s with
  | ended u => rfl
  | stop f => rfl
  | ok u =>
    simp only [andThen_ok]
    rw [flushByte_eq]
    by_cases h : (accAfter n (ones n) s.acc).len = 8#5
    · rw [if_pos h, if_pos (by exact h)]; simp [stuff]
    · rw [if_neg h, if_neg (by exact h), hacc.resolve_left h]; simp [stuff, writeAll, setAcc]

/-- WRITE_ALIGN_BITS that ran to its end stored the table's bytes, stuffed, and emptied `ACC`. -/
theorem alignBody_eq_ok {s t : State} (ha : AccOk s.acc) (h : alignBody s = .ok t) :
   ∃ u, Stored (stuff (alignData s.params.alignOnBoundary s.acc)) s u ∧ t = setAcc { len := 0#5, val := 0#16 } u := by
  obtain ⟨hd, hacc⟩ := alignData_of_pseudocode s.params.alignOnBoundary s.acc ha _ rfl
  obtain ⟨u, h1, h2⟩ := andThen_eq_ok.1 h
  rw [writeBits_eq] at h1
  obtain ⟨w, h3, h4⟩ := andThen_eq_ok.1 h1
  cases h4
  have hs := stored_writeAll h3
  rw [flushByte_eq] at h2
  by_cases h8 : (accAfter (padLength s.params.alignOnBoundary s.acc) (ones (padLength s.params.alignOnBoundary s.acc)) s.acc).len = 8#5
  · rw [if_pos (by simpa using h8)] at h2
    obtain ⟨x, h5, h6⟩ := andThen_eq_ok.1 h2
    cases h6
    have hx := stored_writeAll h5
    rw [if_pos h8] at hd
    rw [← hd, stuff_append]
    refine ⟨setAcc w.acc x, hs.trans ?_, rfl⟩
    simpa [stuff] using stored_setAcc hx
  · rw [if_neg (by simpa using h8)] at h2
    cases h2
    rw [if_neg h8] at hd
    rw [← hd, List.append_nil]
    refine ⟨w, hs, ?_⟩
    rw [hacc.resolve_left h8]

end Sys2Proof.Machine
end

