-- ==== Sys2Proof/Laws/Commands.lean ====
section
/-! SUPPORT. Each command as its pseudocode under the decode order, and what that of INIT, DESTROY and REFILL_IN can do (40_lifecycle.md, 41_buffer.md). -/

namespace Sys2Proof.Machine

/-! ## Every command is its pseudocode under the decode order -/

theorem exec_init (a b : Cursor) (s : State) :
    exec (.init a b) s = accept .uninit (capsLegal a b) (initBody a b) s := rfl
theorem exec_destroy (s : State) : exec .destroy s = accept .ready true destroyBody s := rfl
theorem exec_writeByte (v : Byte) (s : State) : exec (.writeByte v) s = accept .ready true (writeByte v) s := rfl
theorem exec_writeWord (v : Word) (s : State) :
    exec (.writeWord v) s = accept .ready true (writeAll [hi8 v, lo8 v]) s := by
  rw [← show writeTwo (hi8 v) (lo8 v) = writeAll [hi8 v, lo8 v] from funext (writeTwo_eq _ _)]; rfl
theorem exec_writeMarker (c : Byte) (s : State) :
    exec (.writeMarker c) s = accept .ready true (writeAll [0xFF#8, c]) s := by
  rw [← show writeTwo 0xFF#8 c = writeAll [0xFF#8, c] from funext (writeTwo_eq _ _)]; rfl
theorem exec_writeBits (l : BitVec 5) (v : Word) (s : State) :
    exec (.writeBits l v) s = accept .ready (lenLegal l && valueFits l v) (writeBits l.toNat v) s := rfl
theorem exec_writeAlignBits (s : State) : exec .writeAlignBits s = accept .ready true alignBody s := rfl
theorem exec_refillIn (s : State) : exec .refillIn s = accept .ready true refill s := rfl
theorem exec_drainOut (s : State) : exec .drainOut s = accept .ready true (drainOr .shortWriteError) s := rfl

/-! ## The bodies -/

/-- Everything the pseudocode of INIT can do (40_lifecycle.md R90). -/
theorem initBody_cases (a b : Cursor) (s : State) :
    ((s.params.nInMax < a ∨ s.params.nOutMax < b) ∧ initBody a b s = .ended (raise .allocationError s)) ∨
    (a ≤ s.params.nInMax ∧ b ≤ s.params.nOutMax ∧ initBody a b s = .ok (create a b s)) := by
  unfold initBody
  by_cases h1 : s.params.nInMax < a
  · simp [h1]
  · by_cases h2 : s.params.nOutMax < b
    · simp [h2]
    · right; simp only [h1, h2, if_false]; exact ⟨BitVec.not_lt.1 h1, BitVec.not_lt.1 h2, trivial⟩

/-- The pseudocode of DESTROY that ran to its end drained and went to UNINIT (40_lifecycle.md R91). -/
theorem destroyBody_eq_ok {s t : State} :
    destroyBody s = .ok t ↔ ∃ u, drainOr .shortWriteError s = .ok u ∧ t = { u with mode := .uninit } := by
  rw [destroyBody, andThen_eq_ok]; simp only [Run.ok.injEq, eq_comm]

/-- The state after the read of a refill that the source answered with `k` (41_buffer.md R102). -/
def received (k : Nat) (s : State) : State := receive (s.sourceData s.inp.cap.toNat k) (clearIn s.popSource)

/-- A read delivers no more than was asked for, answered or left in the file (20_memory.md R61). -/
theorem sourceData_length (s : State) (n k : Nat) :
    (s.sourceData n k).length = min (min k n) (s.env.src.length - s.env.srcPos) := by
  simp [State.sourceData]

/-- The bytes in the input storage after the read: the data, then zeros (41_buffer.md R102, D31). -/
theorem read_received (k : Nat) (s : State) (a : Nat) :
    Memory.read (received k s).inp.mem a =
      if a < (s.sourceData s.inp.cap.toNat k).length then (s.sourceData s.inp.cap.toNat k)[a]?
      else if a < s.inp.cap.toNat then some 0#8 else Memory.read s.inp.mem a := by
  simp [received, receive, clearIn, read_store, read_zeroFill]

/-- The state after the seek of the reversed debug mode, with the choice of a reset used up (41_buffer.md R105). -/
def soughtBack (s : State) : State := (sourceSeek (rewindDelta s.inp.cap) s).popSeek

/-- Everything the end of a full refill can do: nothing more, a seek, or a seek that a reset follows. -/
theorem debugSeek_cases (s : State) :
    (s.params.reversedDebug = false ∧ debugSeek s = .ok s) ∨
    (s.params.reversedDebug = true ∧ (sourceSeek (rewindDelta s.inp.cap) s).seekReset = false ∧
      debugSeek s = .ok (soughtBack s)) ∨
    (s.params.reversedDebug = true ∧ (sourceSeek (rewindDelta s.inp.cap) s).seekReset = true ∧
      debugSeek s = .ended (resetBlock (soughtBack s))) := by
  unfold debugSeek seekBack soughtBack
  cases hd : s.params.reversedDebug <;> cases hr : (sourceSeek (rewindDelta s.inp.cap) s).seekReset <;> simp

/-- Everything Refill can do (41_buffer.md R102). -/
theorem refill_cases (s : State) :
    (s.sourceAnswer = .never ∧ s.resetToCome = false ∧ refill s = .stop .unanswered) ∨
    (s.sourceAnswer = .never ∧ s.resetToCome = true ∧
      refill s = .ended (resetWhileHung (receive [] (clearIn s.popSource)))) ∨
    (∃ k, s.sourceAnswer = .takeThenReset k ∧ refill s = .ended (resetBlock (received k s))) ∨
    (∃ k, s.sourceAnswer = .take k ∧ min k (s.env.src.length - s.env.srcPos) < s.inp.cap.toNat ∧
      refill s = .ended (raise .shortReadError (received k s))) ∨
    (∃ k, s.sourceAnswer = .take k ∧ s.inp.cap.toNat ≤ k ∧ s.inp.cap.toNat ≤ s.env.src.length - s.env.srcPos ∧
      refill s = debugSeek (rewindIn (received k s))) := by
  unfold refill received
  cases ha : s.sourceAnswer with
  | never => cases hr : s.resetToCome <;> simp
  | takeThenReset k => simp
  | take k =>
    by_cases h : short (s.sourceData s.inp.cap.toNat k).length s.inp.cap.toNat = true
    · refine .inr (.inr (.inr (.inl ⟨k, rfl, ?_, by simp [h]⟩)))
      simp only [short, sourceData_length, decide_eq_true_eq] at h; omega
    · refine .inr (.inr (.inr (.inr ⟨k, rfl, ?_, ?_, by simp [h]⟩))) <;>
      (simp only [short, sourceData_length, decide_eq_true_eq] at h; omega)

end Sys2Proof.Machine
end

