-- ==== Sys2Proof/Laws/Encoding.lean ====
section
/-! SUPPORT. The fields of a command word as numbers (30_encoding.md R73, R74): with these, encoding facts are linear
arithmetic. -/

namespace Sys2Proof

theorem append_toNat {n m : Nat} (x : BitVec n) (y : BitVec m) : (x ++ y).toNat = x.toNat * 2 ^ m + y.toNat := by
  rw [BitVec.toNat_append, Nat.shiftLeft_eq, Nat.mul_comm, Nat.two_pow_add_eq_or_of_lt y.isLt]

theorem formatC_toNat (op : BitVec 4) (a b : Cursor) :
    (formatC op a b).toNat = op.toNat * 2 ^ 28 + a.toNat * 2 ^ 14 + b.toNat := by
  have h : (formatC op a b).toNat = ((op ++ a) ++ b).toNat := rfl
  rw [h, append_toNat, append_toNat]; ring

theorem formatD_toNat (op : BitVec 4) (l : BitVec 5) (d : Word) :
    (formatD op l d).toNat = op.toNat * 2 ^ 28 + l.toNat * 2 ^ 16 + d.toNat := by
  have h : (formatD op l d).toNat = (((op ++ 0#7) ++ l) ++ d).toNat := rfl
  rw [h, append_toNat, append_toNat, append_toNat]; simp; ring

theorem fieldOp_toNat (w : CmdWord) : (fieldOp w).toNat = w.toNat / 2 ^ 28 := by
  have := w.isLt
  simp [fieldOp, BitVec.extractLsb'_toNat, Nat.shiftRight_eq_div_pow]; omega

theorem fieldZ_toNat (w : CmdWord) : (fieldZ w).toNat = w.toNat / 2 ^ 21 % 2 ^ 7 := by
  simp [fieldZ, BitVec.extractLsb'_toNat, Nat.shiftRight_eq_div_pow]

theorem fieldLen_toNat (w : CmdWord) : (fieldLen w).toNat = w.toNat / 2 ^ 16 % 2 ^ 5 := by
  simp [fieldLen, BitVec.extractLsb'_toNat, Nat.shiftRight_eq_div_pow]

theorem fieldData_toNat (w : CmdWord) : (fieldData w).toNat = w.toNat % 2 ^ 16 := by
  simp [fieldData, BitVec.extractLsb'_toNat]

theorem fieldDataHigh_toNat (w : CmdWord) : (fieldDataHigh w).toNat = w.toNat / 2 ^ 8 % 2 ^ 8 := by
  simp [fieldDataHigh, BitVec.extractLsb'_toNat, Nat.shiftRight_eq_div_pow]

theorem fieldDataLow_toNat (w : CmdWord) : (fieldDataLow w).toNat = w.toNat % 2 ^ 8 := by
  simp [fieldDataLow, BitVec.extractLsb'_toNat]

theorem fieldInCap_toNat (w : CmdWord) : (fieldInCap w).toNat = w.toNat / 2 ^ 14 % 2 ^ 14 := by
  simp [fieldInCap, BitVec.extractLsb'_toNat, Nat.shiftRight_eq_div_pow]

theorem fieldOutCap_toNat (w : CmdWord) : (fieldOutCap w).toNat = w.toNat % 2 ^ 14 := by
  simp [fieldOutCap, BitVec.extractLsb'_toNat]

/-! The fields of a word put together from fields -/

theorem fieldLen_formatD (op : BitVec 4) (l : BitVec 5) (d : Word) : fieldLen (formatD op l d) = l := by
  apply BitVec.eq_of_toNat_eq
  have := l.isLt; have := d.isLt
  rw [fieldLen_toNat, formatD_toNat]; omega

theorem fieldData_formatD (op : BitVec 4) (l : BitVec 5) (d : Word) : fieldData (formatD op l d) = d := by
  apply BitVec.eq_of_toNat_eq
  have := l.isLt; have := d.isLt
  rw [fieldData_toNat, formatD_toNat]; omega

theorem fieldInCap_formatC (op : BitVec 4) (a b : Cursor) : fieldInCap (formatC op a b) = a := by
  apply BitVec.eq_of_toNat_eq
  have := a.isLt; have := b.isLt
  rw [fieldInCap_toNat, formatC_toNat]; omega

theorem fieldOutCap_formatC (op : BitVec 4) (a b : Cursor) : fieldOutCap (formatC op a b) = b := by
  apply BitVec.eq_of_toNat_eq
  have := a.isLt; have := b.isLt
  rw [fieldOutCap_toNat, formatC_toNat]; omega

/-- A mask of a word is the mask of its parts. -/
theorem and_append {n m : Nat} (x p : BitVec n) (y q : BitVec m) : (x ++ y) &&& (p ++ q) = (x &&& p) ++ (y &&& q) := by
  ext i hi; simp only [BitVec.getElem_and, BitVec.getElem_append]; split <;> simp

theorem formatD_and (op m : BitVec 4) (l n : BitVec 5) (d k : Word) (z : BitVec 7) :
    formatD op l d &&& (((m ++ z) ++ n) ++ k) = formatD (op &&& m) (l &&& n) (d &&& k) := by
  have h := and_append (((op ++ 0#7) ++ l)) ((m ++ z) ++ n) d k
  rw [and_append (op ++ 0#7) (m ++ z) l n, and_append op m 0#7 z, BitVec.zero_and] at h
  exact h

theorem formatC_and (op m : BitVec 4) (a b p q : Cursor) :
    formatC op a b &&& formatC m p q = formatC (op &&& m) (a &&& p) (b &&& q) := by
  have h := and_append (op ++ a) (m ++ p) b q
  rw [and_append op m a p] at h
  exact h

/-- A value fits its length as R79 says it: `val < 2^L`. -/
theorem valueFits_iff (len : BitVec 5) (val : Word) : valueFits len val = true ↔ val.toNat < 2 ^ len.toNat := by
  have hp : 0 < 2 ^ len.toNat := Nat.two_pow_pos _
  unfold valueFits
  rw [beq_iff_eq, ← BitVec.toNat_inj]
  simp only [BitVec.toNat_ushiftRight, BitVec.toNat_ofNat, Nat.shiftRight_eq_div_pow, Nat.zero_mod]
  rw [Nat.div_eq_zero_iff]; omega

theorem lenLegal_iff (len : BitVec 5) : lenLegal len = true ↔ len.toNat ≤ 16 := by simp [lenLegal]

theorem capsLegal_iff (a b : Cursor) : capsLegal a b = true ↔ a ≠ 0#14 ∧ b ≠ 0#14 := by simp [capsLegal]

/-! What each format's decoder accepts -/

theorem decodeInit_ok {w : CmdWord} {i : Instr} : decodeInit w = .ok i ↔
    capsLegal (fieldInCap w) (fieldOutCap w) = true ∧ .init (fieldInCap w) (fieldOutCap w) = i := by
  unfold decodeInit; split <;> simp_all

theorem decodePlain_ok {j : Instr} {w : CmdWord} {i : Instr} : decodePlain j w = .ok i ↔
    fieldZ w = 0#7 ∧ fieldLen w = 0#5 ∧ fieldData w = 0#16 ∧ j = i := by
  unfold decodePlain; repeat' split
  all_goals simp_all

theorem decodeByte_ok {mk : Byte → Instr} {w : CmdWord} {i : Instr} : decodeByte mk w = .ok i ↔
    fieldZ w = 0#7 ∧ fieldLen w = 0#5 ∧ fieldDataHigh w = 0#8 ∧ mk (fieldDataLow w) = i := by
  unfold decodeByte; repeat' split
  all_goals simp_all

theorem decodeWord_ok {mk : Word → Instr} {w : CmdWord} {i : Instr} : decodeWord mk w = .ok i ↔
    fieldZ w = 0#7 ∧ fieldLen w = 0#5 ∧ mk (fieldData w) = i := by
  unfold decodeWord; repeat' split
  all_goals simp_all

theorem decodeBits_ok {w : CmdWord} {i : Instr} : decodeBits w = .ok i ↔
    fieldZ w = 0#7 ∧ lenLegal (fieldLen w) = true ∧ valueFits (fieldLen w) (fieldData w) = true ∧
      .writeBits (fieldLen w) (fieldData w) = i := by
  unfold decodeBits; repeat' split
  all_goals simp_all

/-- The decoder's case for each opcode. -/
theorem decode_ok {w : CmdWord} {i : Instr} : decode w = .ok i ↔
    ((fieldOp w).toNat = 1 ∧ decodeInit w = .ok i) ∨ ((fieldOp w).toNat = 2 ∧ decodePlain .destroy w = .ok i) ∨
    ((fieldOp w).toNat = 3 ∧ decodeByte .writeByte w = .ok i) ∨ ((fieldOp w).toNat = 4 ∧ decodeWord .writeWord w = .ok i) ∨
    ((fieldOp w).toNat = 5 ∧ decodeByte .writeMarker w = .ok i) ∨ ((fieldOp w).toNat = 6 ∧ decodeBits w = .ok i) ∨
    ((fieldOp w).toNat = 7 ∧ decodePlain .writeAlignBits w = .ok i) ∨
    ((fieldOp w).toNat = 8 ∧ decodePlain .refillIn w = .ok i) ∨ ((fieldOp w).toNat = 9 ∧ decodePlain .drainOut w = .ok i) := by
  unfold decode; split <;> simp_all

/-- A decoded command is well formed. -/
theorem decode_wellFormed {w : CmdWord} {i : Instr} (h : decode w = .ok i) : i.wellFormed = true := by
  rw [decode_ok] at h
  simp only [decodeInit_ok, decodePlain_ok, decodeByte_ok, decodeWord_ok, decodeBits_ok] at h
  rcases h with ⟨_, h, rfl⟩ | ⟨_, _, _, _, rfl⟩ | ⟨_, _, _, _, rfl⟩ | ⟨_, _, _, rfl⟩ | ⟨_, _, _, _, rfl⟩ | ⟨_, _, h, h', rfl⟩ |
    ⟨_, _, _, _, rfl⟩ | ⟨_, _, _, _, rfl⟩ | ⟨_, _, _, _, rfl⟩
  all_goals simp_all [Instr.wellFormed]

end Sys2Proof
end

