-- ==== Sys2Proof/Laws/Invariant.lean ====
section
/-! SUPPORT. What each shared operation does with the invariant of Safety: said once per operation, composed by
`Run.Sat.andThen`. -/

namespace Sys2Proof.Machine

/-- A byte stored below the capacity leaves the storage well formed and every offset up to it written. -/
theorem pushByte_storage {s : State} (hi : s.Inv) (v : Byte) (hlt : s.out.pos < s.out.cap) :
    BufferOk (pushByte v s).out ∧ ∀ i < s.out.pos.toNat + 1, (Memory.read (pushByte v s).out.mem i).isSome = true := by
  have hl : s.out.pos.toNat < s.out.cap.toNat := hlt
  refine ⟨⟨write_wf _ _ _ hi.out.1, fun c hc => ?_⟩, fun i h => ?_⟩
  · rcases mem_write _ _ _ c hc with rfl | h
    · exact hl
    · exact hi.out.2 c h
  · simp only [pushByte_out, read_write]
    split
    · rfl
    · exact hi.written i (by omega)

/-- A byte that does not fill the buffer keeps the invariant. -/
theorem pushByte_inv {s : State} (hi : s.Inv) (hm : s.mode = .ready) (v : Byte) (h : s.out.pos.toNat + 1 < s.out.cap.toNat) : (pushByte v s).Inv := by
  have hlt : s.out.pos < s.out.cap := show s.out.pos.toNat < s.out.cap.toNat by omega
  obtain ⟨h1, h2⟩ := pushByte_storage hi v hlt
  have hp : (pushByte v s).out.pos.toNat = s.out.pos.toNat + 1 := pos_succ hlt
  exact { hi with
    out := h1
    outPos := by rw [hp]; exact Nat.le_of_lt h
    written := by rw [hp]; exact h2
    ready := fun _ => ⟨by rw [hp]; exact h, (hi.ready hm).2⟩
    uninit := fun h => by simp [hm] at h }

/-- A drain that the sink accepted whole keeps the invariant. -/
theorem drained_inv {s : State} (hi : s.Inv) (hm : s.mode = .ready) : (drained s).Inv := by
  have hr := hi.ready hm
  exact { hi with
    out := ⟨zeroFill_wf _ _ hi.out.1, fun c hc => by
      rcases mem_zeroFill _ _ c hc with h | h
      · exact hi.out.2 c h
      · exact Nat.lt_of_lt_of_le h hi.outPos⟩
    outPos := Nat.zero_le _
    written := fun i h => by simp at h
    ready := fun _ => ⟨by simp; omega, hr.2⟩
    uninit := fun h => rfl
    sink := by simp [drained, hi.sink, acceptedOf]
    hooks := by simp [drained, hi.hooks, hooksOf] }

/-- A byte that fills the buffer, drained whole, keeps the invariant. -/
theorem drained_pushByte_inv {s : State} (hi : s.Inv) (hm : s.mode = .ready) (v : Byte) (h : s.out.pos.toNat + 1 = s.out.cap.toNat) : (drained (pushByte v s)).Inv := by
  have hlt : s.out.pos < s.out.cap := show s.out.pos.toNat < s.out.cap.toNat by omega
  obtain ⟨h1, h2⟩ := pushByte_storage hi v hlt
  have hp : (pushByte v s).out.pos.toNat = s.out.pos.toNat + 1 := pos_succ hlt
  exact { hi with
    out := ⟨zeroFill_wf _ _ h1.1, fun c hc => by
      rcases mem_zeroFill _ _ c hc with h' | h'
      · exact h1.2 c h'
      · have h' : c.1 < (pushByte v s).out.pos.toNat := h'
        rw [hp, h] at h'; exact h'⟩
    outPos := Nat.zero_le _
    written := fun i h => by simp at h
    ready := fun _ => ⟨by simp; omega, (hi.ready hm).2⟩
    uninit := fun h => rfl
    sink := by simp [drained, hi.sink, acceptedOf]
    hooks := by simp [drained, hi.hooks, hooksOf] }

/-- Reset leads to a state that meets the invariant. -/
theorem resetBlock_inv {s : State} (hp : s.params.nInMax ≠ 0#14 ∧ s.params.nOutMax ≠ 0#14)
   (hs : s.env.sink = acceptedOf s.env.log) (hh : s.env.hooks = hooksOf s.env.log) : (resetBlock s).Inv := by
  exact {
    params := hp
    acc := (by decide : AccOk ⟨0#5, 0#16⟩)
    out := (by decide : BufferOk ⟨0#14, 0#14, []⟩)
    inp := (by decide : BufferOk ⟨0#14, 0#14, []⟩)
    outPos := Nat.le_refl _
    inPos := rfl
    written := fun i h => by simp at h
    caps := ⟨Nat.zero_le _, Nat.zero_le _⟩
    ready := fun h => by simp at h
    uninit := fun _ => rfl
    fault := by simp
    sink := hs
    hooks := hh }

/-- Fault entry keeps the invariant. -/
theorem raise_inv {s : State} (k : FaultKind) (hi : s.Inv) : (raise k s).Inv :=
  { hi with
    ready := fun h => by simp at h
    uninit := fun h => by simp at h
    fault := by simp
    sink := by simp [hi.sink, acceptedOf]
    hooks := by simp [hi.hooks, hooksOf] }

/-- A fault after a short write keeps the invariant. -/
theorem raise_sinkWrite_inv {s : State} (kind : FaultKind) (hi : s.Inv) (bs : List Byte) (k : Nat) : (raise kind (sinkWrite bs k s.popSink)).Inv :=
  { hi with
    ready := fun h => by simp at h
    uninit := fun h => by simp at h
    fault := by simp
    sink := by simp [hi.sink, acceptedOf]
    hooks := by simp [hi.hooks, hooksOf] }
/-- A fault after the short write of a byte that filled the buffer keeps the invariant. -/
theorem raise_pushByte_inv {s : State} (kind : FaultKind) (hi : s.Inv) (v : Byte) (h : s.out.pos.toNat + 1 = s.out.cap.toNat)
    (bs : List Byte) (k : Nat) : (raise kind (sinkWrite bs k (pushByte v s).popSink)).Inv := by
  have hlt : s.out.pos < s.out.cap := show s.out.pos.toNat < s.out.cap.toNat by omega
  obtain ⟨h1, h2⟩ := pushByte_storage hi v hlt
  have hp : (pushByte v s).out.pos.toNat = s.out.pos.toNat + 1 := pos_succ hlt
  exact { hi with
    out := h1
    outPos := by show (pushByte v s).out.pos.toNat ≤ _; rw [hp]; exact Nat.le_of_eq h
    written := by show ∀ i < (pushByte v s).out.pos.toNat, _; rw [hp]; exact h2
    ready := fun h => by simp at h
    uninit := fun h => by simp at h
    fault := by simp
    sink := by simp [hi.sink, acceptedOf]
    hooks := by simp [hi.hooks, hooksOf] }
/-- A completion keeps the invariant. -/
theorem complete_inv {s : State} (hi : s.Inv) (c) : (s.complete c).Inv :=
  { hi with
    sink := by simp [hi.sink, acceptedOf]
    hooks := by simp [hi.hooks, hooksOf] }

/-- What holds inside a command, after a procedure that ran to its end: the invariant, READY, answers only used up, the
command port as it was. -/
def Mid (s t : State) : Prop :=
  t.Inv ∧ t.mode = .ready ∧ t.env.sinkAnswers <:+ s.env.sinkAnswers ∧ t.env.sourceAnswers = s.env.sourceAnswers ∧
  t.env.port = s.env.port

/-- The one way a procedure stops from a state that meets the invariant: the environment never answers (U13), and no
reset is to come. -/
def Silent (s : State) (f : Fault) : Prop :=
  f = .unanswered ∧ s.resetToCome = false ∧ (Answer.never ∈ s.env.sinkAnswers ∨ Answer.never ∈ s.env.sourceAnswers)

/-- Free values always answer (log entry 4). -/
theorem freeAnswer_ne_never (n : Nat) : freeAnswer n ≠ .never := by unfold freeAnswer; split <;> simp

/-- A silent sink is a fixed answer. -/
theorem never_mem_of_sinkAnswer {s : State} (h : s.sinkAnswer = .never) : Answer.never ∈ s.env.sinkAnswers := by
  unfold State.sinkAnswer at h; split at h
  · rename_i e; rw [e, h]; simp
  · exact absurd h (freeAnswer_ne_never _)

/-- A silent source stream is a fixed answer. -/
theorem never_mem_of_sourceAnswer {s : State} (h : s.sourceAnswer = .never) : Answer.never ∈ s.env.sourceAnswers := by
  unfold State.sourceAnswer at h; split at h
  · rename_i e; rw [e, h]; simp
  · exact absurd h (freeAnswer_ne_never _)

/-- A reset of a block whose record and sink agree. -/
theorem resetBlock_sinkWrite_inv {s : State} (hi : s.Inv) (bs : List Byte) (k : Nat) {u : State} (hp : u.params = s.params)
    (he : u.env = s.env) : (resetBlock (sinkWrite bs k u.popSink)).Inv ∧ (resetWhileHung (sinkWrite bs k u.popSink)).Inv := by
  have hs : (sinkWrite bs k u.popSink).env.sink = acceptedOf (sinkWrite bs k u.popSink).env.log := by
    simp [he, hi.sink, acceptedOf]
  have hh : (sinkWrite bs k u.popSink).env.hooks = hooksOf (sinkWrite bs k u.popSink).env.log := by
    simp [he, hi.hooks, hooksOf]
  have hq : (sinkWrite bs k u.popSink).params.nInMax ≠ 0#14 ∧ (sinkWrite bs k u.popSink).params.nOutMax ≠ 0#14 := by
    simpa [hp] using hi.params
  exact ⟨resetBlock_inv hq hs hh, resetBlock_inv hq hs hh⟩

/-- WriteByte from a READY state that meets the invariant. -/
theorem writeByte_sat (v : Byte) {s : State} (hi : s.Inv) (hm : s.mode = .ready) :
    (writeByte v s).Sat (Mid s) State.Inv (Silent s) := by
  have hr := hi.ready hm
  rcases writeByte_cases v s with ⟨h, e⟩ | ⟨hlt, h, e⟩ |
    ⟨hlt, h, ⟨h', hc, e⟩ | ⟨h', hc, e⟩ | ⟨k, h', e⟩ | ⟨k, h', hk, e⟩ | ⟨k, h', hk, e⟩⟩ <;> rw [e]
  · have : s.out.cap.toNat ≤ s.out.pos.toNat := h; omega
  · exact ⟨pushByte_inv hi hm v h, hm, List.suffix_refl _, rfl, rfl⟩
  · exact ⟨rfl, hc, .inl (never_mem_of_sinkAnswer h')⟩
  · exact (resetBlock_sinkWrite_inv hi _ _ (u := pushByte v s) rfl rfl).2
  · exact (resetBlock_sinkWrite_inv hi _ _ (u := pushByte v s) rfl rfl).1
  · exact raise_pushByte_inv _ hi v h _ _
  · exact ⟨drained_pushByte_inv hi hm v h, hm, List.tail_suffix _, rfl, rfl⟩

theorem Mid.trans {s t u : State} (h : Mid s t) (h' : Mid t u) : Mid s u :=
  ⟨h'.1, h'.2.1, h'.2.2.1.trans h.2.2.1, h'.2.2.2.1.trans h.2.2.2.1, h'.2.2.2.2.trans h.2.2.2.2⟩

theorem Silent.mono {s t : State} {f : Fault} (h : Mid s t) (h' : Silent t f) : Silent s f :=
  ⟨h'.1, by have := h'.2.1; simpa [State.resetToCome, h.2.2.2.2] using this,
    h'.2.2.imp (fun x => h.2.2.1.subset x) (fun x => h.2.2.2.1 ▸ x)⟩

/-- A list of bytes from a READY state that meets the invariant. -/
theorem writeAll_sat (bs : List Byte) {s : State} (hi : s.Inv) (hm : s.mode = .ready) :
    (writeAll bs s).Sat (Mid s) State.Inv (Silent s) := by
  induction bs generalizing s with
  | nil => exact ⟨hi, hm, List.suffix_refl _, rfl, rfl⟩
  | cons b bs ih =>
    exact (writeByte_sat b hi hm).andThen fun t ht =>
      (ih ht.1 ht.2.1).mono (fun u hu => ht.trans hu) (fun u h => h) (fun f h => h.mono ht)

/-- Drain from a READY state that meets the invariant; ran to its end, it leaves nothing buffered. -/
theorem drainOr_sat (kind : FaultKind) {s : State} (hi : s.Inv) (hm : s.mode = .ready) :
    (drainOr kind s).Sat (fun t => Mid s t ∧ t.out.pos = 0#14) State.Inv (Silent s) := by
  rcases drainOr_cases kind s with ⟨h0, e⟩ | ⟨h0, e⟩ |
    ⟨hne, _, ⟨h', hc, e⟩ | ⟨h', hc, e⟩ | ⟨j, h', e⟩ | ⟨j, h', hk, e⟩ | ⟨j, h', hk, e⟩⟩ <;> rw [e]
  · exact ⟨⟨hi, hm, List.suffix_refl _, rfl, rfl⟩, h0⟩
  · have : s.out.cap.toNat < s.out.pos.toNat := h0
    have := hi.outPos; omega
  · exact ⟨rfl, hc, .inl (never_mem_of_sinkAnswer h')⟩
  · exact (resetBlock_sinkWrite_inv hi _ _ (u := s) rfl rfl).2
  · exact (resetBlock_sinkWrite_inv hi _ _ (u := s) rfl rfl).1
  · exact raise_sinkWrite_inv _ hi _ _
  · exact ⟨⟨drained_inv hi hm, hm, List.tail_suffix _, rfl, rfl⟩, rfl⟩

end Sys2Proof.Machine
end

