-- ==== Sys2Proof/Laws/PerInstr.lean ====
section
/-! SUPPORT. One fact about every command as data: the word of a well-formed command selects the command's own row of the
opcode map
(30_encoding.md R76). -/

namespace Sys2Proof.Laws.SelectsOwnRow

/-- The word of `i` selects the row of `i` (R76) when `i` is well formed. -/
def Statement (i : Instr) : Prop := i.wellFormed = true → (rowOf i).selects (encode i)

theorem init (inCap outCap : Cursor) : Statement (.init inCap outCap) := by
  intro h
  refine ⟨?_, ?_⟩
  · show formatC 1#4 inCap outCap &&& formatC 15#4 0#14 0#14 = 0x10000000#32
    rw [formatC_and, BitVec.and_zero, BitVec.and_zero]; decide
  · show capsLegal (fieldInCap (formatC _ _ _)) (fieldOutCap (formatC _ _ _)) = true
    rw [fieldInCap_formatC, fieldOutCap_formatC]; exact h
theorem destroy : Statement .destroy := fun _ => ⟨by decide, rfl⟩
theorem writeByte (v : Byte) : Statement (.writeByte v) := fun _ => ⟨by revert v; decide, rfl⟩
theorem writeWord (v : Word) : Statement (.writeWord v) := by
  refine fun _ => ⟨?_, rfl⟩
  show formatD 4#4 0#5 v &&& (((15#4 ++ 127#7) ++ 31#5) ++ 0#16) = 0x40000000#32
  rw [formatD_and, BitVec.and_zero]; decide
theorem writeMarker (code : Byte) : Statement (.writeMarker code) := fun _ => ⟨by revert code; decide, rfl⟩
theorem writeBits (len : BitVec 5) (val : Word) : Statement (.writeBits len val) := by
  intro h
  refine ⟨?_, ?_⟩
  · show formatD 6#4 len val &&& (((15#4 ++ 127#7) ++ 0#5) ++ 0#16) = 0x60000000#32
    rw [formatD_and, BitVec.and_zero, BitVec.and_zero]; decide
  · show (lenLegal (fieldLen (formatD _ _ _)) && valueFits (fieldLen (formatD _ _ _)) (fieldData (formatD _ _ _))) = true
    rw [fieldLen_formatD, fieldData_formatD]; exact h
theorem writeAlignBits : Statement .writeAlignBits := fun _ => ⟨by decide, rfl⟩
theorem refillIn : Statement .refillIn := fun _ => ⟨by decide, rfl⟩
theorem drainOut : Statement .drainOut := fun _ => ⟨by decide, rfl⟩

end Sys2Proof.Laws.SelectsOwnRow
end

