-- ==== Sys2Proof/Laws/Step.lean ====
section
/-! SUPPORT. Everything a step can do, by what arrives (10_state.md R35, 30_encoding.md R78, 70_reset_and_hazards.md R160). -/

namespace Sys2Proof.Machine

/-- The state without the stimulus that arrived. -/
theorem popPort_eq {s : State} {x : Stimulus} {rest : List Stimulus} (h : s.arrivals = x :: rest) :
    s.popPort = { s with env := { s.env with port := rest } } := by
  simp [State.popPort, h]

theorem step_idle {s : State} (h : s.arrivals = []) : step s = .next s := by
  simp [step, h]

/-- A stimulus that asserts reset resets the block, whatever command it abandons. -/
theorem step_reset {s : State} {x : Stimulus} {rest : List Stimulus} (h : s.arrivals = x :: rest) (hx : x.resets = true) :
    step s = .next (resetBlock s.popPort) := by
  cases x <;> simp_all [step, Stimulus.resets]

theorem step_word {s : State} {w : CmdWord} {rest : List Stimulus} {i : Instr} (h : s.arrivals = .word w :: rest)
    (hd : decode w = .ok i) : step s = exec i s.popPort := by
  simp [step, h, hd]

theorem step_illegal {s : State} {w : CmdWord} {rest : List Stimulus} {e : Illegal} (h : s.arrivals = .word w :: rest)
    (hd : decode w = .error e) : step s = rejectWord s.popPort := by
  simp [step, h, hd]

/-- Nothing arrives only where nothing is on the port. -/
theorem arrivals_eq_nil {s : State} : s.arrivals = [] ↔ s.env.port = [] := by
  unfold State.arrivals
  split
  · rename_i h
    obtain ⟨x, hx, hr⟩ := List.any_eq_true.1 h.2
    refine ⟨fun hd => ?_, fun hp => by simp [hp] at hx⟩
    have := List.dropWhile_eq_nil_iff.1 hd _ hx
    simp [hr] at this
  · rfl

/-- In FAULTED a word arrives only if no reset is to come. -/
theorem no_reset_of_word_in_faulted {s : State} {w : CmdWord} {rest : List Stimulus} (hm : s.mode = .faulted)
    (h : s.arrivals = .word w :: rest) : s.resetToCome = false := by
  by_contra hr
  rw [Bool.not_eq_false] at hr
  rw [State.arrivals, if_pos ⟨hm, hr⟩] at h
  have := List.head?_dropWhile_not (fun x : Stimulus => !x.resets) s.env.port
  rw [← State.portFromReset, h] at this
  simp [Stimulus.resets] at this

/-- A word arrives only from the head of the port. -/
theorem port_of_arrivals_word {s : State} {w : CmdWord} {rest : List Stimulus} (h : s.arrivals = .word w :: rest) :
    s.env.port = .word w :: rest := by
  by_cases hm : s.mode = .faulted
  · rw [← arrivals_of_no_reset (no_reset_of_word_in_faulted hm h), h]
  · rw [← arrivals_of_not_faulted hm, h]

/-- Everything a step can answer. -/
theorem step_cases (s : State) :
    (s.arrivals = [] ∧ step s = .next s) ∨
    (∃ x rest, s.arrivals = x :: rest ∧ x.resets = true ∧ step s = .next (resetBlock s.popPort)) ∨
    (∃ w rest, s.arrivals = .word w :: rest ∧
      ((∃ i, decode w = .ok i ∧ step s = exec i s.popPort) ∨
       (∃ e, decode w = .error e ∧ step s = rejectWord s.popPort))) := by
  rcases h : s.arrivals with _ | ⟨x, rest⟩
  · exact .inl ⟨rfl, step_idle h⟩
  · cases x with
    | word w =>
      refine .inr (.inr ⟨w, rest, rfl, ?_⟩)
      cases hd : decode w with
      | ok i => exact .inl ⟨i, rfl, step_word h hd⟩
      | error e => exact .inr ⟨e, rfl, step_illegal h hd⟩
    | wordThenReset w => exact .inr (.inl ⟨_, rest, rfl, rfl, step_reset h rfl⟩)
    | reset => exact .inr (.inl ⟨_, rest, rfl, rfl, step_reset h rfl⟩)

end Sys2Proof.Machine
end

