-- ==== Sys2Proof/Tests/Slice0.lean ====
section
/-! SUPPORT. Tests: expected results are those of spec/95_test_vectors.md (the vector's id stands in front) or of
30_encoding.md R85; and for every obligation with hypotheses a witness that meets them. -/

namespace Sys2Proof.Tests

open Sys2Proof Sys2Proof.Machine

/-! ## Helpers -/

/-- A READY state with `bytes` in the output buffer; the input capacity is 4. -/
def ready (outCap : Cursor) (acc : Acc) (bytes : List Byte) (sink : List Answer) : State :=
  { State.reset with
    mode := .ready
    acc := acc
    out := { cap := outCap, pos := BitVec.ofNat 14 bytes.length, mem := Memory.store [] 0 bytes }
    inp := { cap := 4, pos := 0, mem := [] }
    env := { State.reset.env with sinkAnswers := sink } }

/-- The same with an input file, its position, and answers of the source. -/
def reading (inCap : Cursor) (src : List Byte) (pos : Nat) (answers : List Answer) : State :=
  { ready 1 { len := 0, val := 0 } [] [] with
    inp := { cap := inCap, pos := 0, mem := [] }
    env := { State.reset.env with sourceAnswers := answers, src := src, srcPos := pos } }

/-- The same in the reversed debug mode, six bytes in the file, at position 4. -/
def debugging (inCap : Cursor) (answers : List Answer) (resets : List Bool) : State :=
  let s := reading inCap [1, 2, 3, 4, 5, 6] 4 answers
  { s with params := { s.params with reversedDebug := true }, env := { s.env with seekResets := resets } }

/-- READY with an empty buffer of 16 bytes. -/
def packing (len : BitVec 5) (val : Word) : State := ready 16 { len := len, val := val } [] []

/-- READY with a byte buffered and a sink that never answers. -/
def hung : State := ready 4 { len := 0, val := 0 } [1] [.never]

/-- The next state, where there is one. -/
def resultOf : Host.Outcome State Fault Refusal → State
  | .next t => t
  | .fault _ => State.reset
  | .refused _ => State.reset

/-- The state after a command. -/
def after (i : Instr) (s : State) : State := resultOf (exec i s)

/-- A state with one stimulus on the port. -/
def offer (x : Stimulus) (s : State) : State := { s with env := { s.env with port := [x] } }

/-- The sink accepts everything. -/
def full : List Answer := [.take 16383, .take 16383, .take 16383, .take 16383]

/-- The invariant as facts that can be decided. -/
abbrev InvFacts (s : State) : Prop :=
  (s.params.nInMax ≠ 0#14 ∧ s.params.nOutMax ≠ 0#14) ∧ AccOk s.acc ∧ BufferOk s.out ∧ BufferOk s.inp ∧
  s.out.pos.toNat ≤ s.out.cap.toNat ∧ s.inp.pos = 0#14 ∧
  (∀ i < s.out.pos.toNat, (Memory.read s.out.mem i).isSome = true) ∧
  (s.out.cap.toNat ≤ s.params.nOutMax.toNat ∧ s.inp.cap.toNat ≤ s.params.nInMax.toNat) ∧
  (s.mode = .ready → s.out.pos.toNat < s.out.cap.toNat ∧ s.inp.cap ≠ 0#14) ∧
  (s.mode = .uninit → s.out.pos = 0#14) ∧ (s.mode = .faulted ↔ s.fault ≠ none) ∧
  s.env.sink = acceptedOf s.env.log ∧ s.env.hooks = hooksOf s.env.log

theorem inv_of {s : State} (h : InvFacts s) : s.Inv :=
  let ⟨h1, h2, h3, h4, h5, h6, h7, h8, h9, h10, h11, h12, h13⟩ := h
  ⟨h1, h2, h3, h4, h5, h6, h7, h8, h9, h10, h11, h12, h13⟩

/-! ## Well-formedness: each check refuses an ill-formed term (30_encoding.md R77, R79) -/

theorem test_wf_zero_input_capacity : (Instr.init 0 4).wellFormed = false := by decide
theorem test_wf_zero_output_capacity : (Instr.init 4 0).wellFormed = false := by decide
theorem test_wf_length_17 : (Instr.writeBits 17 0).wellFormed = false := by decide
theorem test_wf_value_too_wide : (Instr.writeBits 4 16).wellFormed = false := by decide
theorem test_wf_value_of_length_zero : (Instr.writeBits 0 1).wellFormed = false := by decide
theorem test_wf_largest : (Instr.writeBits 16 0xFFFF).wellFormed = true ∧ (Instr.init 16383 16383).wellFormed = true := by
  decide

/-! ## Decoding: the words of R85, and the E vectors -/

theorem test_decode_init : decode 0x10010004#32 = .ok (.init 4 4) := by rfl
theorem test_decode_init_fields : decode 0x10008001#32 = .ok (.init 2 1) := by rfl
theorem test_decode_init_largest : decode 0x1FFFFFFF#32 = .ok (.init 16383 16383) := by rfl
theorem test_decode_destroy : decode 0x20000000#32 = .ok .destroy := by rfl
theorem test_decode_writeByte : decode 0x300000AB#32 = .ok (.writeByte 0xAB) := by rfl
theorem test_decode_writeWord : decode 0x40001234#32 = .ok (.writeWord 0x1234) := by rfl
theorem test_decode_writeMarker : decode 0x500000D9#32 = .ok (.writeMarker 0xD9) := by rfl
theorem test_decode_writeBits : decode 0x6004000B#32 = .ok (.writeBits 4 0xB) := by rfl
theorem test_decode_writeBits_16 : decode 0x6010FFFF#32 = .ok (.writeBits 16 0xFFFF) := by rfl
theorem test_decode_writeAlignBits : decode 0x70000000#32 = .ok .writeAlignBits := by rfl
theorem test_decode_refillIn : decode 0x80000000#32 = .ok .refillIn := by rfl
theorem test_decode_drainOut : decode 0x90000000#32 = .ok .drainOut := by rfl
theorem test_encode : encode (.init 4 4) = 0x10010004#32 ∧ encode (.writeBits 4 0xB) = 0x6004000B#32 ∧
    encode (.writeMarker 0xD9) = 0x500000D9#32 := by decide

/-- E1 to E6. -/
theorem test_illegal_opcodes_and_capacities : decode 0x00000000#32 = .error .reservedOpcode ∧
    decode 0xFFFFFFFF#32 = .error .reservedOpcode ∧ decode 0xA0000000#32 = .error .reservedOpcode ∧
    decode 0x10000000#32 = .error .zeroCapacity ∧ decode 0x10004000#32 = .error .zeroCapacity ∧
    decode 0x10000001#32 = .error .zeroCapacity := ⟨rfl, rfl, rfl, rfl, rfl, rfl⟩
/-- E9 to E11, E13, E14, E16, E17, E26 to E28. -/
theorem test_illegal_reserved_fields : decode 0x20000001#32 = .error .dataNotZero ∧
    decode 0x20010000#32 = .error .lenNotZero ∧ decode 0x30000100#32 = .error .dataNotZero ∧
    decode 0x30010000#32 = .error .lenNotZero ∧ decode 0x30200000#32 = .error .reservedBitsSet ∧
    decode 0x40010000#32 = .error .lenNotZero ∧ decode 0x50000100#32 = .error .dataNotZero ∧
    decode 0x70000001#32 = .error .dataNotZero ∧ decode 0x80000001#32 = .error .dataNotZero ∧
    decode 0x90000001#32 = .error .dataNotZero := ⟨rfl, rfl, rfl, rfl, rfl, rfl, rfl, rfl, rfl, rfl⟩
/-- E19 to E22, E24, E25; E18 and E23 are legal. -/
theorem test_illegal_codes : decode 0x60110000#32 = .error .lenTooLarge ∧ decode 0x601F0000#32 = .error .lenTooLarge ∧
    decode 0x60000001#32 = .error .valueTooWide ∧ decode 0x60040010#32 = .error .valueTooWide ∧
    decode 0x600F8000#32 = .error .valueTooWide ∧ decode 0x68000000#32 = .error .reservedBitsSet ∧
    decode 0x60100000#32 = .ok (.writeBits 16 0) ∧ decode 0x6004000F#32 = .ok (.writeBits 4 0xF) :=
  ⟨rfl, rfl, rfl, rfl, rfl, rfl, rfl, rfl⟩

/-- The opcode table's words come through the host's two entries. -/
theorem test_table_word : decodeTableWord 32 0x500000D9 = some (.writeMarker 0xD9) ∧
    decodeTableWord 32 0 = none := by decide
theorem test_fetch_word : (step (State.reset.withFetchWord 32 0x10010004)) = exec (.init 4 4) State.reset := by rfl

/-! ## Memory keeps its canonical form -/

theorem test_memory_form : Memory.write (Memory.write [(3, 7)] 1 5) 3 9 = [(1, 5), (3, 9)] := by decide

/-! ## One step of each command -/

/-- L1. -/
theorem test_init : (after (.init 4 4) State.reset).mode = .ready ∧ (after (.init 4 4) State.reset).inp.cap = 4 ∧
    (after (.init 4 4) State.reset).out = { cap := 4, pos := 0, mem := [] } := by decide
/-- L3, F10. -/
theorem test_init_allocationError :
    let t := after (.init 5 4) { State.reset with params := { State.reset.params with nInMax := 4, nOutMax := 4 } }
    t.fault = some .allocationError ∧ t.mode = .faulted ∧ t.inp.cap = 0 := by decide
/-- L6. -/
theorem test_destroy :
    let t := after .destroy (ready 4 { len := 0, val := 0 } [0x00, 0xFF, 0xD9] full)
    t.mode = .uninit ∧ t.env.sink = [0x00, 0xFF, 0xD9] := by decide
/-- L8, F6. -/
theorem test_destroy_short :
    let t := after .destroy (ready 4 { len := 0, val := 0 } [0xAA, 0xBB] [.take 0])
    t.mode = .faulted ∧ t.fault = some .shortWriteError ∧ t.out.pos = 2 ∧ t.env.sink = [] := by decide
/-- W2. -/
theorem test_writeByte :
    let t := after (.writeByte 0xFF) (ready 8 { len := 0, val := 0 } [] [])
    t.out.mem = [(0, 0xFF)] ∧ t.out.pos = 1 := by decide
/-- W12. -/
theorem test_writeByte_drains :
    let t := after (.writeByte 0xEE) (ready 8 { len := 0, val := 0 } [1, 2, 3, 4, 5, 6, 7] full)
    t.out.pos = 0 ∧ t.env.sink = [1, 2, 3, 4, 5, 6, 7, 0xEE] ∧ Memory.read t.out.mem 7 = some 0 := by decide
/-- W11. -/
theorem test_writeWord_across_drain :
    let t := after (.writeWord 0xA1B2) (ready 3 { len := 0, val := 0 } [1, 2] full)
    t.out.mem = [(0, 0xB2), (1, 0), (2, 0)] ∧ t.env.sink = [1, 2, 0xA1] := by decide
/-- F2: the low byte is never stored. -/
theorem test_writeWord_fault :
    let t := after (.writeWord 0x1234) (ready 1 { len := 0, val := 0 } [] [.take 0])
    t.fault = some .bufferWriteError ∧ t.out.mem = [(0, 0x12)] ∧ t.env.sink = [] := by decide
/-- W9. -/
theorem test_writeMarker :
    let t := after (.writeMarker 0xD9) (ready 8 { len := 7, val := 0xFE00 } [] [])
    t.out.mem = [(0, 0xFF), (1, 0xD9)] ∧ t.acc = { len := 7, val := 0xFE00 } := by decide
/-- F3. -/
theorem test_writeMarker_fault :
    let t := after (.writeMarker 0xD9) (ready 1 { len := 0, val := 0 } [] [.take 1, .take 0])
    t.fault = some .bufferWriteError ∧ t.out.mem = [(0, 0xD9)] ∧ t.env.sink = [0xFF] := by decide
/-- V8 and V14: 15 pending bits stay below the window, 31 are over it. -/
theorem test_writeBits_window :
    (after (.writeBits 5 0x1F) (packing 10 0xFFC0)).acc = { len := 15, val := 0xFFFE } ∧
    (after (.writeBits 16 0x5555) (packing 15 0xAAAA)).acc = { len := 15, val := 0xAAAA } ∧
    (after (.writeBits 16 0x5555) (packing 15 0xAAAA)).buffered = [0xAA, 0xAA] := by decide
/-- T8. -/
theorem test_writeBits_stuffs :
    let t := after (.writeBits 8 0xFF) (packing 12 0xFFF0)
    t.buffered = [0xFF, 0, 0xFF, 0] ∧ t.acc = { len := 4, val := 0xF000 } := by decide
/-- A0, A3, A8 and A13 (PAD8). -/
theorem test_writeAlignBits_pad8 :
    (after .writeAlignBits (packing 0 0)).buffered = [0xFF, 0] ∧ (after .writeAlignBits (packing 3 0xA000)).buffered = [0xBF] ∧
    (after .writeAlignBits (packing 8 0xAA00)).buffered = [0xAA, 0xFF, 0] ∧
    (after .writeAlignBits (packing 13 0xAAA8)).buffered = [0xAA, 0xAF] := by decide
/-- A8n (NONE), and F9: the clear is not reached. -/
theorem test_writeAlignBits_none_and_fault :
    (after .writeAlignBits { packing 8 0xAA00 with
      params := { State.reset.params with alignOnBoundary := .noPad } }).buffered = [0xAA] ∧
    (after .writeAlignBits (ready 1 { len := 3, val := 0xE000 } [] [.take 1, .take 0])).acc = { len := 8, val := 0xFF00 } := by
  decide
/-- B6. -/
theorem test_refillIn_short :
    let t := after .refillIn { reading 4 [0x01, 0x02, 0x03] 0 [.take 4] with
      inp := { cap := 4, pos := 0, mem := [(0, 0xDE), (1, 0xAD), (2, 0xBE), (3, 0xEF)] } }
    t.fault = some .shortReadError ∧ t.inp.mem = [(0, 1), (1, 2), (2, 3), (3, 0)] := by decide
/-- B8: the rewind. -/
theorem test_refillIn_reversed :
    let t := after .refillIn (debugging 2 [.take 2] [false])
    t.inp.mem = [(0, 5), (1, 6)] ∧ t.env.srcPos = 2 ∧ t.completedDone := by
  unfold State.completedDone; decide
/-- B1. -/
theorem test_drainOut :
    let t := after .drainOut (ready 8 { len := 0, val := 0 } [0xFF, 0xD8] full)
    t.env.sink = [0xFF, 0xD8] ∧ t.out = { cap := 8, pos := 0, mem := [(0, 0), (1, 0)] } := by decide
/-- B3, F5. -/
theorem test_drainOut_short :
    let t := after .drainOut (ready 8 { len := 0, val := 0 } [0xFF, 0xD8] [.take 1])
    t.env.sink = [0xFF] ∧ t.out.pos = 2 ∧ t.fault = some .shortWriteError := by decide
/-- E29, E30, E31. -/
theorem test_wrong_mode :
    (after (.writeByte 0x12) State.reset).fault = some .illegalCommand ∧
    (after (.init 4 4) (packing 0 0)).fault = some .illegalCommand ∧
    exec (.writeByte 1) (after (.writeByte 0x12) State.reset) = .fault .notAccepted := by
  refine ⟨by decide, by decide, rfl⟩

/-- R160, U18: reset abandons the command; the sink keeps what it accepted. -/
theorem test_reset_inside_writeWord :
    let t := after (.writeWord 0x1234) (ready 1 { len := 3, val := 0xA000 } [] [.take 1, .takeThenReset 1])
    t.mode = .uninit ∧ t.acc = { len := 0, val := 0 } ∧ t.out.cap = 0 ∧ t.env.sink = [0x12, 0x34] := by decide
/-- R160: after the seek, before the completion. -/
theorem test_reset_after_seek :
    let t := after .refillIn (debugging 2 [.take 2] [true])
    t.mode = .uninit ∧ t.inp.cap = 0 ∧ t.env.srcPos = 2 ∧ ¬t.completedDone := by
  unfold State.completedDone; decide
/-- R160, R176: a hung block is freed by a reset, and the word offered before it is past. -/
theorem test_reset_of_hung_block :
    let s := { hung with env := { hung.env with port := [.word 0x20000000#32, .reset, .word 0x90000000#32] } }
    (after .drainOut s).mode = .uninit ∧ (after .drainOut s).env.sink = [] ∧
    (after .drainOut s).env.port = [.word 0x90000000#32] ∧ exec .drainOut hung = .fault .unanswered :=
  ⟨by decide, by decide, by decide, rfl⟩
/-- R160: a command without a transaction, abandoned. -/
theorem test_reset_of_init :
    let t := resultOf (step (offer (.wordThenReset 0x10010004#32) State.reset))
    t.mode = .uninit ∧ t.out.cap = 0 ∧ t.env.port = [] ∧ t.env.log = [] := by decide

/-! ## Witnesses: for each obligation with hypotheses, a state and operands that meet them together -/

/-- READY, 3 of 4 bytes buffered, 12 bits pending, a sink that accepts everything. -/
def busy : State := ready 4 { len := 12, val := 0xABC0 } [1, 2, 3] full

/-- READY, one byte buffered of two, a sink that accepts nothing. -/
def jammed : State := ready 2 { len := 3, val := 0xA000 } [7] [.take 0, .take 0]

/-- FAULTED after an illegal command. -/
def dead : State := after (.init 4 4) busy

theorem busy_inv : busy.Inv := inv_of (by decide)
theorem jammed_inv : jammed.Inv := inv_of (by decide)
theorem dead_inv : dead.Inv := inv_of (by decide)
theorem packing_inv : (packing 15 0xFFFE).Inv ∧ (packing 0 0).Inv := ⟨inv_of (by decide), inv_of (by decide)⟩
theorem reset_inv : State.reset.Inv := inv_of (by decide)

/-! ### Encoding, mode, step -/

theorem witness_DecodeAndEncodeAgree : decode 0x1FFFFFFF#32 = .ok (.init 16383 16383) ∧
    (Instr.init 16383 16383).wellFormed = true ∧ encode (.init 16383 16383) = 0x1FFFFFFF#32 := ⟨rfl, by decide, by decide⟩
theorem witness_DecodeFollowsOpcodeMap : decode 0x6010FFFF#32 = .ok (.writeBits 16 0xFFFF) ∧
    (rowOf (.writeBits 0 0)).selects 0x6010FFFF#32 ∧ (rowOf (.writeBits 0 0)).read 0x6010FFFF#32 = .writeBits 16 0xFFFF :=
  ⟨rfl, ⟨by decide, by decide⟩, by decide⟩
theorem witness_IllegalWordsRaiseIllegalCommand : illegalWord 0x60110000#32 ∧ busy.mode ≠ .faulted ∧
    (offer (.word 0x60110000#32) busy).env.port = .word 0x60110000#32 :: [] :=
  ⟨by unfold illegalWord; decide, by decide, rfl⟩
theorem witness_ModeRequirement_faulted : (Instr.writeBits 16 0xFFFF).wellFormed = true ∧ dead.mode = .faulted := by decide
theorem witness_ModeRequirement_wrong : (Instr.init 1 1).wellFormed = true ∧ busy.mode = .ready ∧
    Instr.drainOut.wellFormed = true ∧ State.reset.mode = .uninit ∧ (∀ a b, Instr.drainOut ≠ .init a b) :=
  ⟨by decide, by decide, by decide, by decide, by intro a b; simp⟩
theorem witness_ModeRequirement_right : State.reset.mode = .uninit ∧ State.reset.fault = none ∧ busy.fault = none ∧
    exec (.init 1 1) State.reset = .next (after (.init 1 1) State.reset) ∧
    exec .drainOut busy = .next (after .drainOut busy) := ⟨rfl, rfl, rfl, rfl, rfl⟩
theorem witness_StepRunsDecodedCommand : (offer (.word 0x90000000#32) busy).env.port = .word 0x90000000#32 :: [] ∧
    busy.mode ≠ .faulted ∧ decode 0x90000000#32 = .ok .drainOut ∧ dead.mode = .faulted ∧
    (offer (.word 0x90000000#32) dead).env.port = .word 0x90000000#32 :: [] ∧ ([] : List Stimulus).any Stimulus.resets = false ∧
    busy.env.port = [] := ⟨rfl, by decide, rfl, by decide, rfl, by decide, rfl⟩

/-! ### Reset, invariants -/

theorem witness_ResetFromAnyMode : (offer .reset dead).env.port = .reset :: [] ∧
    (offer (.wordThenReset 0x90000000#32) busy).env.port = .wordThenReset 0x90000000#32 :: [] := ⟨rfl, rfl⟩
/-- The second byte of WRITE_WORD, the second and last of WRITE_ALIGN_BITS's four, each with a buffer of one byte. -/
theorem witness_ResetInsideCommandAbandonsIt_writers :
    let s := ready 1 { len := 8, val := 0xFF00 } [] [.take 1, .takeThenReset 0, .take 7]
    let s' := ready 1 { len := 8, val := 0xFF00 } [] [.take 1, .take 2, .take 1, .takeThenReset 9]
    (s.Inv ∧ s.mode = .ready ∧ (Instr.writeWord 0x1234).wellFormed = true ∧
      s.env.sinkAnswers = [.take 1] ++ .takeThenReset 0 :: [.take 7] ∧
      (∀ a ∈ [Answer.take 1], a.acceptsAll s.out.cap.toNat = true) ∧
      ([Answer.take 1].length + 1) * s.out.cap.toNat ≤
        s.out.pos.toNat + (emitted s.params.alignOnBoundary s.acc (.writeWord 0x1234)).length) ∧
    (s'.Inv ∧ s'.mode = .ready ∧ s'.env.sinkAnswers = [.take 1, .take 2, .take 1] ++ .takeThenReset 9 :: [] ∧
      (∀ a ∈ [Answer.take 1, .take 2, .take 1], a.acceptsAll s'.out.cap.toNat = true) ∧
      ([Answer.take 1, .take 2, .take 1].length + 1) * s'.out.cap.toNat ≤
        s'.out.pos.toNat + (emitted s'.params.alignOnBoundary s'.acc .writeAlignBits).length) :=
  ⟨⟨inv_of (by decide), rfl, rfl, rfl, by decide, by decide⟩, inv_of (by decide), rfl, rfl, by decide, by decide⟩
/-- DESTROY and DRAIN_OUT; REFILL_IN after its read, and after the seek. -/
theorem witness_ResetInsideCommandAbandonsIt_others :
    let s := ready 4 { len := 0, val := 0 } [1] [.takeThenReset 1]
    let r := reading 4 [1, 2, 3] 0 [.takeThenReset 4]
    let d := debugging 2 [.take 2] [true]
    (s.mode = .ready ∧ s.out.pos ≠ 0 ∧ s.out.pos ≤ s.out.cap ∧ s.sinkAnswer = .takeThenReset 1) ∧
    (r.mode = .ready ∧ r.sourceAnswer = .takeThenReset 4) ∧
    (d.mode = .ready ∧ d.params.reversedDebug = true ∧ d.sourceAnswer = .take 2 ∧ d.inp.cap.toNat ≤ 2 ∧
      d.env.srcPos + d.inp.cap.toNat ≤ d.env.src.length ∧ d.env.seekResets = true :: []) := by decide
/-- The third byte of WRITE_BITS; DRAIN_OUT; REFILL_IN. -/
theorem witness_UnansweredTransactionHangsTheBlock :
    let s := ready 2 { len := 15, val := 0xFFFE } [7] [.take 2, .never]
    let d := ready 4 { len := 0, val := 0 } [1] [.never]
    let r := reading 4 [1, 2, 3] 0 [.never]
    (s.Inv ∧ s.mode = .ready ∧ (Instr.writeBits 16 0xFFFF).wellFormed = true ∧
      s.env.sinkAnswers = [.take 2] ++ .never :: [] ∧ (∀ a ∈ [Answer.take 2], a.acceptsAll s.out.cap.toNat = true) ∧
      ([Answer.take 2].length + 1) * s.out.cap.toNat ≤
        s.out.pos.toNat + (emitted s.params.alignOnBoundary s.acc (.writeBits 16 0xFFFF)).length) ∧
    (d.mode = .ready ∧ d.out.pos ≠ 0 ∧ d.out.pos ≤ d.out.cap ∧ d.sinkAnswer = .never) ∧
    (r.mode = .ready ∧ r.sourceAnswer = .never) :=
  ⟨⟨inv_of (by decide), rfl, by decide, rfl, by decide, by decide⟩, by decide, by decide⟩
/-- Both cases of a hang: with no reset to come, and with one. -/
theorem witness_Hangs :
    let d := ready 4 { len := 0, val := 0 } [1] [.never]
    d.resetToCome = false ∧ (offer .reset d).resetToCome = true ∧
    (offer (.wordThenReset 0x90000000#32) d).resetToCome = true := by decide
theorem witness_StepKeepsInvariant : (offer (.word 0x90000000#32) busy).Inv ∧
    step (offer (.word 0x90000000#32) busy) = .next (resultOf (step (offer (.word 0x90000000#32) busy))) :=
  ⟨inv_of (by decide), rfl⟩
theorem witness_StepStops_notAccepted : (offer (.word 0#32) dead).Inv ∧
    step (offer (.word 0#32) dead) = .fault .notAccepted := ⟨inv_of (by decide), rfl⟩
theorem witness_StepStops_unanswered :
    let s := offer (.word 0x90000000#32) (ready 4 { len := 0, val := 0 } [1] [.never])
    s.Inv ∧ step s = .fault .unanswered := ⟨inv_of (by decide), rfl⟩
theorem witness_StepKeepsParameters :
    step (offer .reset busy) = .next (resultOf (step (offer .reset busy))) := rfl
theorem witness_CapacitiesConstantWhileReady : busy.mode = .ready ∧
    exec (.writeBits 16 0xFFFF) busy = .next (after (.writeBits 16 0xFFFF) busy) ∧
    (after (.writeBits 16 0xFFFF) busy).mode = .ready := ⟨rfl, rfl, by decide⟩

/-! ### Lifecycle -/

/-- Both capacities at their maximum. -/
theorem witness_InitCreatesController : State.reset.mode = .uninit ∧ (16383 : Cursor) ≠ 0 ∧ (1 : Cursor) ≠ 0 ∧
    (16383 : Cursor) ≤ State.reset.params.nInMax ∧ (1 : Cursor) ≤ State.reset.params.nOutMax := by decide
/-- One over the maximum, and at it. -/
theorem witness_InitAllocationError :
    let s : State := { State.reset with params := { State.reset.params with nInMax := 4, nOutMax := 4 } }
    s.mode = .uninit ∧ s.fault = none ∧ s.params.nInMax < (5 : Cursor) ∧
    ¬(s.params.nInMax < (4 : Cursor) ∨ s.params.nOutMax < (4 : Cursor)) ∧
    exec (.init 4 4) s = .next (after (.init 4 4) s) := ⟨rfl, rfl, by decide, by decide, rfl⟩
theorem witness_InitWhileReadyIsIllegal : busy.mode = .ready := rfl
/-- With bytes buffered, and with none. -/
theorem witness_DestroyFlushesThenReleases : busy.mode = .ready ∧ busy.out.pos ≤ busy.out.cap ∧
    busy.sinkAnswer = .take 16383 ∧ busy.out.pos.toNat ≤ 16383 ∧ (packing 15 0xFFFE).out.pos = 0 ∧
    (packing 15 0xFFFE).mode = .ready := by decide
theorem witness_CompletedDestroyIsFinal : busy.Inv ∧ busy.mode = .ready ∧
    exec .destroy busy = .next (after .destroy busy) ∧ (after .destroy busy).completedDone :=
  ⟨busy_inv, rfl, rfl, by unfold State.completedDone; decide⟩
theorem witness_InitAfterDestroyAppends : busy.mode = .ready ∧ exec .destroy busy = .next (after .destroy busy) ∧
    (after .destroy busy).completedDone ∧ (1 : Cursor) ≠ 0 ∧ (16383 : Cursor) ≤ busy.params.nInMax ∧
    (1 : Cursor) ≤ busy.params.nOutMax :=
  ⟨rfl, rfl, by unfold State.completedDone; decide, by decide, by decide, by decide⟩
theorem witness_DrainsLeaveAccumulatorAlone :
    exec .destroy busy = .next (after .destroy busy) ∧ (after .destroy busy).epoch = busy.epoch ∧
    exec .drainOut jammed = .next (after .drainOut jammed) ∧ (after .drainOut jammed).epoch = jammed.epoch :=
  ⟨rfl, by decide, rfl, by decide⟩

/-! ### Buffer operations -/

theorem witness_DrainOutMovesBufferToSink : busy.mode = .ready ∧ busy.out.pos ≤ busy.out.cap ∧ busy.out.pos ≠ 0 ∧
    busy.sinkAnswer = .take 16383 ∧ (packing 0 0).mode = .ready ∧ (packing 0 0).out.pos = 0 := by decide
/-- One byte short. -/
theorem witness_ShortWriteIsFatal :
    let s := ready 4 { len := 0, val := 0 } [1, 2, 3] [.take 2]
    s.mode = .ready ∧ s.out.pos ≤ s.out.cap ∧ s.sinkAnswer = .take 2 ∧ 2 < s.out.pos.toNat := by decide
/-- Exactly the file's last bytes. -/
theorem witness_RefillFillsInputBuffer :
    let s := reading 2 [1, 2, 3, 4] 2 [.take 2]
    s.mode = .ready ∧ s.params.reversedDebug = false ∧ s.sourceAnswer = .take 2 ∧ s.inp.cap.toNat ≤ 2 ∧
    s.env.srcPos + s.inp.cap.toNat ≤ s.env.src.length := by decide
/-- A file that ends one byte early, and an answer of no byte. -/
theorem witness_ShortReadIsFatal :
    let s := reading 4 [1, 2, 3] 0 [.take 4]
    let s' := reading 1 [1, 2, 3] 0 [.take 0]
    (s.mode = .ready ∧ s.sourceAnswer = .take 4 ∧ min 4 (s.env.src.length - s.env.srcPos) < s.inp.cap.toNat) ∧
    (s'.mode = .ready ∧ s'.sourceAnswer = .take 0 ∧ min 0 (s'.env.src.length - s'.env.srcPos) < s'.inp.cap.toNat) := by
  decide
/-- A block read at the position `IN.cap`, which seeks to 0, and one read at 0. -/
theorem witness_ReversedDebugRewinds : ∀ p ∈ [0, 2],
    let s := { debugging 2 [.take 2] [false] with env := { (debugging 2 [.take 2] [false]).env with srcPos := p } }
    s.mode = .ready ∧ s.params.reversedDebug = true ∧ s.sourceAnswer = .take 2 ∧ s.inp.cap.toNat ≤ 2 ∧
    s.env.srcPos + s.inp.cap.toNat ≤ s.env.src.length ∧ s.env.seekResets = false :: [] := by decide
theorem witness_RefillTouchesOnlyInputSide :
    let s := reading 2 [1, 2, 3] 0 [.take 2]
    s.mode = .ready ∧ exec .refillIn s = .next (after .refillIn s) ∧ (after .refillIn s).mode ≠ .uninit :=
  ⟨rfl, rfl, by decide⟩

/-! ### Primitive writers -/

theorem witness_WriteByteStoresAtCursor :
    let s := ready 4 { len := 0, val := 0 } [1, 2] []
    s.mode = .ready ∧ s.out.pos.toNat + 1 < s.out.cap.toNat := by decide
/-- Three bytes of four, and a buffer of one byte. -/
theorem witness_WriteByteDrainsFullBuffer :
    let s := ready 1 { len := 0, val := 0 } [] [.take 1]
    (busy.mode = .ready ∧ busy.out.pos.toNat + 1 = busy.out.cap.toNat ∧ busy.sinkAnswer = .take 16383 ∧
      busy.out.cap.toNat ≤ 16383) ∧
    (s.mode = .ready ∧ s.out.pos.toNat + 1 = s.out.cap.toNat ∧ s.sinkAnswer = .take 1 ∧ s.out.cap.toNat ≤ 1) := by decide
theorem witness_BufferWriteErrorOnShortDrain :
    let s := ready 4 { len := 0, val := 0 } [1, 2, 3] [.take 3]
    s.mode = .ready ∧ s.out.pos.toNat + 1 = s.out.cap.toNat ∧ s.sinkAnswer = .take 3 ∧ 3 < s.out.cap.toNat := by decide
theorem witness_WriteWordIsBigEndian :
    let s := ready 3 { len := 0, val := 0 } [] []
    s.mode = .ready ∧ s.out.pos.toNat + 2 < s.out.cap.toNat := by decide
theorem witness_WriteMarkerIsLiteral :
    let s := ready 4 { len := 15, val := 0xFFFE } [1] []
    s.mode = .ready ∧ s.out.pos.toNat + 2 < s.out.cap.toNat := by decide
/-- The second byte fills the buffer, and the first faults. -/
theorem witness_WordAndMarkerAreTwoBytes :
    let s := ready 2 { len := 0, val := 0 } [] full
    let t := after (.writeByte 0xFF) s
    (s.mode = .ready ∧ exec (.writeByte 0xFF) s = .next t ∧ t.completedDone ∧
      exec (.writeByte 0xD9) { t with env := { t.env with log := t.env.log.dropLast } } =
        .next (after (.writeByte 0xD9) { t with env := { t.env with log := t.env.log.dropLast } })) ∧
    (jammed.mode = .ready ∧ exec (.writeByte 0xFF) jammed = .next (after (.writeByte 0xFF) jammed) ∧
      (after (.writeByte 0xFF) jammed).mode = .faulted) :=
  ⟨⟨rfl, rfl, by unfold State.completedDone; decide, rfl⟩, rfl, rfl, by decide⟩
theorem witness_PrimitiveWritersTouchOnlyOutput : busy.mode = .ready ∧
    exec (.writeWord 0xFFFF) busy = .next (after (.writeWord 0xFFFF) busy) ∧
    (after (.writeWord 0xFFFF) busy).mode ≠ .uninit ∧ (after (.writeWord 0xFFFF) busy).completedDone :=
  ⟨rfl, rfl, by decide, by unfold State.completedDone; decide⟩

/-! ### Bit writer -/

theorem witness_ZeroLengthCodeIsNoOp : (packing 15 0xFFFE).mode = .ready ∧ (packing 15 0xFFFE).acc.len.toNat ≤ 15 := by decide
/-- 15 bits afterwards. -/
theorem witness_ShortCodeStaysPending : (packing 10 0xFFC0).mode = .ready ∧ (0x1F : Word).toNat < 2 ^ (5 : BitVec 5).toNat ∧
    (5 : BitVec 5).toNat + (packing 10 0xFFC0).acc.len.toNat < 16 := by decide
/-- 16 bits exactly, and the largest sum. -/
theorem witness_FullWindowEmitsWord : ∀ l ∈ [(1 : BitVec 5), 16],
    let s := ready 5 { len := 15, val := 0xFFFE } [] []
    s.mode = .ready ∧ l.toNat ≤ 16 ∧ (1 : Word).toNat < 2 ^ l.toNat ∧ s.acc.len.toNat ≤ 16 ∧
    16 ≤ l.toNat + s.acc.len.toNat ∧ s.out.pos.toNat + 4 < s.out.cap.toNat := by decide
theorem witness_FullAccumulatorIsFlushed :
    let s := packing 16 0xFFFF
    s.mode = .ready ∧ s.acc.len = 16 ∧ exec (.writeBits 3 5) s = .next (after (.writeBits 3 5) s) ∧
    (after (.writeBits 3 5) s).completedDone := ⟨rfl, rfl, rfl, by unfold State.completedDone; decide⟩
theorem witness_AccumulatorLaws : AccOk { len := 15, val := 0xFFFE } ∧ (1 : Word).toNat < 2 ^ 1 ∧ 16 ≤ 1 + (15 : BitVec 5).toNat ∧
    AccOk { len := 10, val := 0xFFC0 } ∧ (0x1F : Word).toNat < 2 ^ 5 ∧ 5 + (10 : BitVec 5).toNat < 16 := by decide
/-- S1: 32 bits, one data `FF`. -/
theorem witness_BitStreamIsConcatenationOfCodes :
    let cs : List (BitVec 5 × Word) := [(3, 0b101), (5, 0b11111), (8, 0xFF), (16, 0x1234)]
    (packing 0 0).Inv ∧ (packing 0 0).acc.len = 0 ∧ (∀ c ∈ cs, (Instr.writeBits c.1 c.2).wellFormed = true) ∧
    writeCodes cs (packing 0 0) = .next (resultOf (writeCodes cs (packing 0 0))) ∧
    (resultOf (writeCodes cs (packing 0 0))).mode = .ready ∧
    (resultOf (writeCodes cs (packing 0 0))).buffered = [0xBF, 0xFF, 0x00, 0x12, 0x34] :=
  ⟨packing_inv.2, rfl, List.forall_mem_cons.2 ⟨by decide, List.forall_mem_cons.2 ⟨by decide, List.forall_mem_cons.2 ⟨by decide,
    List.forall_mem_cons.2 ⟨by decide, by simp⟩⟩⟩⟩, rfl, by decide, by decide⟩
/-- 15 bits pending and a code of 16, with a drain inside. -/
theorem witness_OneCodeExtendsBitStream :
    let s := ready 2 { len := 15, val := 0xFFFE } [7] full
    s.Inv ∧ s.mode = .ready ∧ (Instr.writeBits 16 0x8001).wellFormed = true ∧
    exec (.writeBits 16 0x8001) s = .next (after (.writeBits 16 0x8001) s) ∧
    (after (.writeBits 16 0x8001) s).mode = .ready := ⟨inv_of (by decide), rfl, by decide, rfl, by decide⟩
theorem witness_AlignEmitsTableBytes :
    let s := ready 1 { len := 8, val := 0xFF00 } [] full
    busy.Inv ∧ busy.SinkAcceptsAll ∧ busy.mode = .ready ∧ s.Inv ∧ s.SinkAcceptsAll ∧ s.mode = .ready :=
  ⟨busy_inv, by decide, rfl, inv_of (by decide), by decide, rfl⟩
/-- The least room, and both ends of the pending length. -/
theorem witness_AlignWithRoomStoresAtCursor : ∀ acc ∈ [({ len := 0, val := 0 } : Acc), { len := 15, val := 0xFFFE }],
    let s := ready 6 acc [1] []
    AccOk s.acc ∧ s.mode = .ready ∧ s.out.pos.toNat + 4 < s.out.cap.toNat := by
  simp only [List.forall_mem_cons]
  exact ⟨by decide, by decide, by simp⟩
theorem witness_BitWriterTouchesOnlyOutputSide : AccOk busy.acc ∧ busy.mode = .ready ∧
    exec .writeAlignBits busy = .next (after .writeAlignBits busy) ∧ (after .writeAlignBits busy).mode ≠ .uninit ∧
    (after .writeAlignBits busy).completedDone ∧ AccOk jammed.acc ∧
    exec (.writeBits 16 0xFFFF) jammed = .next (after (.writeBits 16 0xFFFF) jammed) ∧
    (after (.writeBits 16 0xFFFF) jammed).mode ≠ .uninit :=
  ⟨by decide, rfl, rfl, by decide, by unfold State.completedDone; decide, by decide, rfl, by decide⟩
theorem witness_AlignmentPadsWithOnes : busy.Inv ∧ busy.mode = .ready ∧
    exec .writeAlignBits busy = .next (after .writeAlignBits busy) ∧ (after .writeAlignBits busy).completedDone :=
  ⟨busy_inv, rfl, rfl, by unfold State.completedDone; decide⟩
theorem witness_BitWriterOutputIsStuffed : busy.Inv ∧ busy.mode = .ready ∧
    exec (.writeBits 16 0xFFFF) busy = .next (after (.writeBits 16 0xFFFF) busy) ∧
    (after (.writeBits 16 0xFFFF) busy).completedDone :=
  ⟨busy_inv, rfl, rfl, by unfold State.completedDone; decide⟩

/-! ### The byte stream -/

/-- One command for each constructor that the statement covers, with a buffer of one byte. -/
theorem witness_CommandsCompleteAndStreamGrows :
    let s := ready 1 { len := 15, val := 0xFFFE } [] full
    s.Inv ∧ s.mode = .ready ∧ s.SinkAcceptsAll ∧
    ∀ i ∈ [Instr.destroy, .writeByte 0xFF, .writeWord 0xFFFF, .writeMarker 0xD9, .writeBits 16 0xFFFF, .writeAlignBits, .drainOut],
      i.wellFormed = true ∧ i ≠ .refillIn := ⟨inv_of (by decide), rfl, by decide, by decide⟩
theorem witness_SinkIsAppendOnly :
    step (offer (.word 0x20000000#32) busy) = .next (resultOf (step (offer (.word 0x20000000#32) busy))) := rfl
theorem witness_SinkTransactionsInBounds : busy.Inv ∧
    exec (.writeWord 0x1234) busy = .next (after (.writeWord 0x1234) busy) := ⟨busy_inv, rfl⟩
theorem witness_PortsAreUsedOnlyByTheirCommands :
    let s := reading 2 [1, 2, 3] 0 [.take 2]
    exec .refillIn s = .next (after .refillIn s) ∧ s.params.reversedDebug = false ∧
    exec .drainOut busy = .next (after .drainOut busy) ∧ Instr.drainOut ≠ .refillIn := ⟨rfl, rfl, rfl, by decide⟩
/-- Four drains with a buffer of one byte. -/
theorem witness_AtMostFourDrainsPerCommand :
    let s := ready 1 { len := 0, val := 0 } [] full
    s.Inv ∧ exec (.writeBits 16 0xFFFF) s = .next (after (.writeBits 16 0xFFFF) s) ∧
    countSinkWrites (after (.writeBits 16 0xFFFF) s).env.log = 4 ∧ busy.out.cap.toNat ≠ 1 ∧
    exec .drainOut busy = .next (after .drainOut busy) := ⟨inv_of (by decide), rfl, by decide, by decide, rfl⟩

/-! ### Faults -/

theorem witness_FaultEntryRecordsKindAndHook : exec (.init 4 4) busy = .next dead ∧ dead.mode = .faulted ∧
    exec .drainOut busy = .next (after .drainOut busy) ∧ (after .drainOut busy).mode ≠ .faulted :=
  ⟨rfl, by decide, rfl, by decide⟩
theorem witness_FaultKindsByCommand : exec .destroy jammed = .next (after .destroy jammed) ∧ jammed.fault = none ∧
    (after .destroy jammed).fault = some .shortWriteError := ⟨rfl, rfl, by decide⟩
theorem witness_FaultKindsByCommand_noRow : (∀ r ∈ opcodeMap, ¬r.selects 0xA0000000#32) ∧ busy.mode ≠ .faulted ∧
    (offer (.word 0xA0000000#32) busy).env.port = .word 0xA0000000#32 :: [] := by
  refine ⟨?_, by decide, rfl⟩
  simp only [opcodeMap, List.forall_mem_cons, OpcodeRow.selects, rowOf]
  decide
theorem witness_ModeTransitions : exec (.init 1 1) State.reset = .next (after (.init 1 1) State.reset) ∧
    (after (.init 1 1) State.reset).mode = .ready ∧ exec .destroy busy = .next (after .destroy busy) ∧
    (after .destroy busy).mode = .uninit ∧ (after .destroy busy).completedDone ∧ exec (.init 4 4) busy = .next dead ∧
    dead.mode = .faulted := ⟨rfl, by decide, rfl, by decide, by unfold State.completedDone; decide, rfl, by decide⟩
/-- F9 for step 3 of WRITE_ALIGN_BITS (fewer than 8 bits pending), the same command with 12, and a byte that fills the
buffer. -/
theorem witness_BufferWriteErrorPartialEffects :
    let s := ready 1 { len := 3, val := 0xE000 } [] [.take 1, .take 0]
    let s' := ready 1 { len := 12, val := 0xABC0 } [] [.take 1, .take 0]
    (s.Inv ∧ s.mode = .ready ∧ exec .writeAlignBits s = .next (after .writeAlignBits s) ∧
      (after .writeAlignBits s).fault = some .bufferWriteError ∧ s.acc.len.toNat < 8) ∧
    (s'.Inv ∧ s'.mode = .ready ∧ exec .writeAlignBits s' = .next (after .writeAlignBits s') ∧
      (after .writeAlignBits s').fault = some .bufferWriteError ∧ ¬s'.acc.len.toNat < 8) ∧
    (jammed.Inv ∧ jammed.mode = .ready ∧ exec (.writeByte 9) jammed = .next (after (.writeByte 9) jammed) ∧
      (after (.writeByte 9) jammed).fault = some .bufferWriteError) :=
  ⟨⟨inv_of (by decide), rfl, rfl, by decide, by decide⟩, ⟨inv_of (by decide), rfl, rfl, by decide, by decide⟩,
    jammed_inv, rfl, rfl, by decide⟩
theorem witness_FaultedIsTerminal :
    let port : List Stimulus := [.word 0x20000000#32, .reset, .word 0x10004001#32]
    dead.mode = .faulted ∧ (offer (.word 0x20000000#32) dead).env.port = .word 0x20000000#32 :: [] ∧
    step (offer .reset dead) = .next (resultOf (step (offer .reset dead))) ∧
    (resultOf (step (offer .reset dead))).mode ≠ .faulted ∧
    port = [.word 0x20000000#32] ++ .reset :: [.word 0x10004001#32] ∧ Stimulus.reset.resets = true ∧
    (∀ y ∈ [Stimulus.word 0x20000000#32], y.resets = false) ∧ ([] : List Stimulus).any Stimulus.resets = false :=
  ⟨by decide, rfl, rfl, by decide, rfl, rfl, by decide, rfl⟩

end Sys2Proof.Tests
end

section
/-! The record of the ports only grows, and `SINK` and `HOOKS` grow with it (20_memory.md R60): said once per operation,
composed along a run by `Run.Grows.andThen`, and concluded for every step (O50). -/

namespace Sys2Proof.Machine

/-- From `e` to `f` the record gained events, `SINK` their accepted bytes and `HOOKS` their faults, at the end each. -/
def Env.Grows (e f : Env) : Prop :=
  ∃ l, f.log = e.log ++ l ∧ f.sink = e.sink ++ acceptedOf l ∧ f.hooks = e.hooks ++ hooksOf l

theorem Env.Grows.refl (e : Env) : e.Grows e := ⟨[], by simp, by simp [acceptedOf], by simp [hooksOf]⟩

theorem Env.Grows.trans {e f g : Env} (h : e.Grows f) (h' : f.Grows g) : e.Grows g := by
  obtain ⟨l, hlog, hsink, hhooks⟩ := h
  obtain ⟨m, hlog', hsink', hhooks'⟩ := h'
  exact ⟨l ++ m, by simp [hlog', hlog], by simp [hsink', hsink], by simp [hhooks', hhooks]⟩

/-! ## The operations that speak on a port -/

theorem complete_grows (c : Completion) (s : State) : s.env.Grows (s.complete c).env :=
  ⟨[.completed c], by simp, by simp [acceptedOf], by simp [hooksOf]⟩

theorem raise_grows (kind : FaultKind) (s : State) : s.env.Grows (raise kind s).env :=
  ⟨[.hook kind, .completed .fault], by simp, by simp [acceptedOf], by simp [hooksOf]⟩

/-- A sink transaction adds the bytes it accepted to `SINK` (20_memory.md R59). -/
theorem sinkWrite_popSink_grows (bytes : List Byte) (k : Nat) (s : State) :
    s.env.Grows (sinkWrite bytes k s.popSink).env :=
  ⟨[.sinkWrite bytes k], by simp, by simp [acceptedOf], by simp [hooksOf]⟩

theorem receive_clearIn_grows (data : List Byte) (s : State) :
    s.env.Grows (receive data (clearIn s.popSource)).env :=
  ⟨[.sourceRead s.inp.cap.toNat data], by simp, by simp [acceptedOf], by simp [hooksOf]⟩

theorem soughtBack_grows (s : State) : s.env.Grows (soughtBack s).env :=
  ⟨[.sourceSeek (rewindDelta s.inp.cap)], by simp [soughtBack], by simp [soughtBack, acceptedOf],
    by simp [soughtBack, hooksOf]⟩

/-- A reset of a hung block takes stimuli from the port and leaves the rest of the environment. -/
theorem resetWhileHung_grows (s : State) : s.env.Grows (resetWhileHung s).env :=
  ⟨[], by simp, by simp [acceptedOf], by simp [hooksOf]⟩

theorem popPort_grows (s : State) : s.env.Grows s.popPort.env :=
  ⟨[], by simp, by simp [acceptedOf], by simp [hooksOf]⟩

/-! ## Procedures -/

/-- However the run ended, short of a stop of the model, the environment grew from `e`. -/
def Run.Grows (e : Env) (r : Run) : Prop := r.Sat (fun t => e.Grows t.env) (fun t => e.Grows t.env) fun _ => True

theorem Run.Grows.andThen {e : Env} {r : Run} {f : State → Run} (hr : r.Grows e) (hf : ∀ t, (f t).Grows t.env) :
    (r.andThen f).Grows e :=
  Run.Sat.andThen hr fun t ht => (hf t).mono (fun _ => ht.trans) (fun _ => ht.trans) fun _ h => h

/-- A command whose procedure grows the environment grows it, its completion included. -/
theorem Run.Grows.outcome {e : Env} {r : Run} {t : State} (hr : r.Grows e) (h : r.outcome = .next t) : e.Grows t.env := by
  rcases outcome_eq_next.1 h with ⟨u, rfl, rfl⟩ | rfl
  · exact Env.Grows.trans hr (complete_grows .done u)
  · exact hr

theorem drainOr_grows (kind : FaultKind) (s : State) : (drainOr kind s).Grows s.env := by
  rcases drainOr_cases kind s with ⟨_, e⟩ | ⟨_, e⟩ |
    ⟨_, _, ⟨_, _, e⟩ | ⟨_, _, e⟩ | ⟨k, _, e⟩ | ⟨k, _, _, e⟩ | ⟨_, _, _, e⟩⟩ <;> rw [e]
  · exact .refl _
  · trivial
  · trivial
  · exact (sinkWrite_popSink_grows _ 0 s).trans (resetWhileHung_grows _)
  · exact sinkWrite_popSink_grows _ _ s
  · exact (sinkWrite_popSink_grows _ k s).trans (raise_grows kind _)
  · exact sinkWrite_popSink_grows _ _ s

/-- A byte is stored without a transaction; what the environment sees is the drain of a full buffer. -/
theorem writeByte_grows (v : Byte) (s : State) : (writeByte v s).Grows s.env := by
  unfold writeByte
  split
  · split
    · exact drainOr_grows .bufferWriteError (pushByte v s)
    · exact .refl _
  · trivial

theorem writeAll_grows (bs : List Byte) (s : State) : (writeAll bs s).Grows s.env := by
  induction bs generalizing s with
  | nil => exact .refl _
  | cons b bs ih => exact (writeByte_grows b s).andThen ih

theorem writeBits_grows (len : Nat) (val : Word) (s : State) : (writeBits len val s).Grows s.env := by
  rw [writeBits_eq]
  exact (writeAll_grows _ s).andThen fun t => .refl t.env

theorem flushByte_grows (s : State) : (flushByte s).Grows s.env := by
  rw [flushByte_eq]
  split
  · exact (writeAll_grows _ s).andThen fun t => .refl t.env
  · exact .refl _

theorem alignBody_grows (s : State) : (alignBody s).Grows s.env :=
  (writeBits_grows _ _ s).andThen flushByte_grows

theorem debugSeek_grows (s : State) : (debugSeek s).Grows s.env := by
  rcases debugSeek_cases s with ⟨_, e⟩ | ⟨_, _, e⟩ | ⟨_, _, e⟩ <;> rw [e]
  · exact .refl _
  · exact soughtBack_grows s
  · exact soughtBack_grows s

theorem refill_grows (s : State) : (refill s).Grows s.env := by
  rcases refill_cases s with ⟨_, _, e⟩ | ⟨_, _, e⟩ | ⟨k, _, e⟩ | ⟨k, _, _, e⟩ | ⟨k, _, _, _, e⟩ <;> rw [e]
  · trivial
  · exact (receive_clearIn_grows [] s).trans (resetWhileHung_grows _)
  · exact receive_clearIn_grows _ s
  · exact (receive_clearIn_grows _ s).trans (raise_grows .shortReadError _)
  · have hread : (Run.ok (rewindIn (received k s))).Grows s.env := receive_clearIn_grows _ s
    exact hread.andThen debugSeek_grows

theorem initBody_grows (a b : Cursor) (s : State) : (initBody a b s).Grows s.env := by
  rcases initBody_cases a b s with ⟨_, e⟩ | ⟨_, _, e⟩ <;> rw [e]
  · exact raise_grows .allocationError s
  · exact .refl _

theorem destroyBody_grows (s : State) : (destroyBody s).Grows s.env :=
  (drainOr_grows .shortWriteError s).andThen fun t => .refl t.env

/-! ## Commands and steps -/

theorem rejectWord_grows {s t : State} (h : rejectWord s = .next t) : s.env.Grows t.env := by
  by_cases hm : s.mode = .faulted
  · rw [rejectWord_faulted hm] at h; cases h
  · rw [rejectWord_raises hm] at h; cases h; exact raise_grows .illegalCommand s

theorem accept_grows {need : Mode} {legal : Bool} {body : State → Run} {s t : State} (hb : (body s).Grows s.env)
    (h : accept need legal body s = .next t) : s.env.Grows t.env := by
  rcases accept_next h with ⟨_, _, hrun⟩ | ⟨_, _, rfl⟩
  · exact hb.outcome hrun
  · exact raise_grows .illegalCommand s

theorem exec_grows {i : Instr} {s t : State} (h : exec i s = .next t) : s.env.Grows t.env := by
  cases i with
  | init a b => exact accept_grows (initBody_grows a b s) h
  | destroy => exact accept_grows (destroyBody_grows s) h
  | writeByte v => exact accept_grows (writeByte_grows v s) h
  | writeWord v => exact accept_grows (writeAll_grows _ s) (exec_writeWord v s ▸ h)
  | writeMarker code => exact accept_grows (writeAll_grows _ s) (exec_writeMarker code s ▸ h)
  | writeBits len val => exact accept_grows (writeBits_grows len.toNat val s) h
  | writeAlignBits => exact accept_grows (alignBody_grows s) h
  | refillIn => exact accept_grows (refill_grows s) h
  | drainOut => exact accept_grows (drainOr_grows .shortWriteError s) h

theorem step_grows {s t : State} (h : step s = .next t) : s.env.Grows t.env := by
  rcases step_cases s with ⟨_, e⟩ | ⟨_, _, _, _, e⟩ | ⟨_, _, _, ⟨_, _, e⟩ | ⟨_, _, e⟩⟩ <;> rw [e] at h
  · cases h; exact .refl _
  · cases h; exact popPort_grows s
  · exact (popPort_grows s).trans (exec_grows h)
  · exact (popPort_grows s).trans (rejectWord_grows h)

/-- Settles O50: the environment grows along every operation a step is made of. -/
theorem sinkIsAppendOnly : Obligations.SinkIsAppendOnly := fun _ _ => step_grows

end Sys2Proof.Machine
end

section
/-! The opcode map (30_encoding.md R76, R85): each row's mask covers the high bits of the word, so selecting a row is an equation
on the word's high digits, as the fields that the decoder checks are. -/

namespace Sys2Proof

/-- A mask of the bits from `k` up clears the bits below `k`. -/
theorem and_allOnes_shiftLeft {n : Nat} (x : BitVec n) (k : Nat) : x &&& (BitVec.allOnes n <<< k) = (x >>> k) <<< k := by
  ext i hi
  by_cases hik : i < k
  · simp [hik]
  · simp [hik, show k + (i - k) = i by omega, BitVec.getLsbD_eq_getElem hi]

theorem and_highMask_toNat (w : CmdWord) {m : CmdWord} (k : Nat) (hm : m = BitVec.allOnes 32 <<< k) :
    (w &&& m).toNat = w.toNat / 2 ^ k * 2 ^ k := by
  have hlt : w.toNat / 2 ^ k * 2 ^ k < 2 ^ 32 := Nat.lt_of_le_of_lt (Nat.div_mul_le_self _ _) w.isLt
  rw [hm, and_allOnes_shiftLeft, BitVec.toNat_shiftLeft, BitVec.toNat_ushiftRight, Nat.shiftLeft_eq,
    Nat.shiftRight_eq_div_pow, Nat.mod_eq_of_lt hlt]

/-- Under such a mask a word matches the row whose digits from bit `k` up are its own. -/
theorem and_highMask_eq_iff (w : CmdWord) {m v : CmdWord} (k : Nat) (hm : m = BitVec.allOnes 32 <<< k)
    (hv : v.toNat = v.toNat / 2 ^ k * 2 ^ k) : w &&& m = v ↔ w.toNat / 2 ^ k = v.toNat / 2 ^ k := by
  rw [← BitVec.toNat_inj, and_highMask_toNat w k hm]
  constructor
  · intro h; rw [← h, Nat.mul_div_cancel _ (Nat.two_pow_pos k)]
  · intro h; rw [h, ← hv]

theorem fieldZ_eq_zero_iff (w : CmdWord) : fieldZ w = 0#7 ↔ w.toNat / 2 ^ 21 % 2 ^ 7 = 0 := by
  rw [← BitVec.toNat_inj, fieldZ_toNat]; rfl

theorem fieldLen_eq_zero_iff (w : CmdWord) : fieldLen w = 0#5 ↔ w.toNat / 2 ^ 16 % 2 ^ 5 = 0 := by
  rw [← BitVec.toNat_inj, fieldLen_toNat]; rfl

theorem fieldData_eq_zero_iff (w : CmdWord) : fieldData w = 0#16 ↔ w.toNat % 2 ^ 16 = 0 := by
  rw [← BitVec.toNat_inj, fieldData_toNat]; rfl

theorem fieldDataHigh_eq_zero_iff (w : CmdWord) : fieldDataHigh w = 0#8 ↔ w.toNat / 2 ^ 8 % 2 ^ 8 = 0 := by
  rw [← BitVec.toNat_inj, fieldDataHigh_toNat]; rfl

/-! ## A row's mask and match against the decoder's checks -/

/-- The row of a command without operand (R76). -/
def plainRow (v : CmdWord) (j : Instr) : OpcodeRow := ⟨0xFFFFFFFF#32, v, fun _ => true, fun _ => j⟩

/-- The row of a command with an 8-bit operand (R76). -/
def byteRow (v : CmdWord) (mk : Byte → Instr) : OpcodeRow :=
  ⟨0xFFFFFF00#32, v, fun _ => true, fun w => mk (fieldDataLow w)⟩

variable {w : CmdWord} {i : Instr} {op : Nat} {v : CmdWord}

theorem decodePlain_iff_selects (j : Instr) (hv : v.toNat = op * 2 ^ 28) :
    (fieldOp w).toNat = op ∧ decodePlain j w = .ok i ↔ (plainRow v j).selects w ∧ (plainRow v j).read w = i := by
  have hword : w &&& 0xFFFFFFFF#32 = v ↔ w.toNat / 2 ^ 0 = v.toNat / 2 ^ 0 :=
    and_highMask_eq_iff w 0 (by decide) (by simp)
  have hfields : (fieldOp w).toNat = op ∧ fieldZ w = 0#7 ∧ fieldLen w = 0#5 ∧ fieldData w = 0#16 ↔
      w &&& 0xFFFFFFFF#32 = v := by
    rw [hword, fieldOp_toNat, fieldZ_eq_zero_iff, fieldLen_eq_zero_iff, fieldData_eq_zero_iff]; omega
  simp only [decodePlain_ok, OpcodeRow.selects, plainRow, ← hfields, and_true, and_assoc]

theorem decodeByte_iff_selects (mk : Byte → Instr) (hv : v.toNat = op * 2 ^ 28) :
    (fieldOp w).toNat = op ∧ decodeByte mk w = .ok i ↔ (byteRow v mk).selects w ∧ (byteRow v mk).read w = i := by
  have hword : w &&& 0xFFFFFF00#32 = v ↔ w.toNat / 2 ^ 8 = v.toNat / 2 ^ 8 :=
    and_highMask_eq_iff w 8 (by decide) (by rw [hv]; omega)
  have hfields : (fieldOp w).toNat = op ∧ fieldZ w = 0#7 ∧ fieldLen w = 0#5 ∧ fieldDataHigh w = 0#8 ↔
      w &&& 0xFFFFFF00#32 = v := by
    rw [hword, fieldOp_toNat, fieldZ_eq_zero_iff, fieldLen_eq_zero_iff, fieldDataHigh_eq_zero_iff]; omega
  simp only [decodeByte_ok, OpcodeRow.selects, byteRow, ← hfields, and_true, and_assoc]

theorem decodeWord_iff_selects :
    (fieldOp w).toNat = 4 ∧ decodeWord .writeWord w = .ok i ↔
      (rowOf (.writeWord 0)).selects w ∧ (rowOf (.writeWord 0)).read w = i := by
  have hword : w &&& 0xFFFF0000#32 = 0x40000000#32 ↔ w.toNat / 2 ^ 16 = 0x40000000 / 2 ^ 16 :=
    and_highMask_eq_iff w 16 (by decide) (by decide)
  have hfields : (fieldOp w).toNat = 4 ∧ fieldZ w = 0#7 ∧ fieldLen w = 0#5 ↔ w &&& 0xFFFF0000#32 = 0x40000000#32 := by
    rw [hword, fieldOp_toNat, fieldZ_eq_zero_iff, fieldLen_eq_zero_iff]; omega
  simp only [decodeWord_ok, OpcodeRow.selects, rowOf, ← hfields, and_true, and_assoc]

theorem decodeBits_iff_selects :
    (fieldOp w).toNat = 6 ∧ decodeBits w = .ok i ↔
      (rowOf (.writeBits 0 0)).selects w ∧ (rowOf (.writeBits 0 0)).read w = i := by
  have hword : w &&& 0xFFE00000#32 = 0x60000000#32 ↔ w.toNat / 2 ^ 21 = 0x60000000 / 2 ^ 21 :=
    and_highMask_eq_iff w 21 (by decide) (by decide)
  have hfields : (fieldOp w).toNat = 6 ∧ fieldZ w = 0#7 ↔ w &&& 0xFFE00000#32 = 0x60000000#32 := by
    rw [hword, fieldOp_toNat, fieldZ_eq_zero_iff]; omega
  simp only [decodeBits_ok, OpcodeRow.selects, rowOf, ← hfields, Bool.and_eq_true, and_assoc]

theorem decodeInit_iff_selects :
    (fieldOp w).toNat = 1 ∧ decodeInit w = .ok i ↔
      (rowOf (.init 0 0)).selects w ∧ (rowOf (.init 0 0)).read w = i := by
  have hword : w &&& 0xF0000000#32 = 0x10000000#32 ↔ w.toNat / 2 ^ 28 = 0x10000000 / 2 ^ 28 :=
    and_highMask_eq_iff w 28 (by decide) (by decide)
  have hfields : (fieldOp w).toNat = 1 ↔ w &&& 0xF0000000#32 = 0x10000000#32 := by
    rw [fieldOp_toNat]; exact hword.symm
  simp only [decodeInit_ok, OpcodeRow.selects, rowOf, ← hfields, and_assoc]

/-- A word decodes by the row that it selects: one row per case of the decoder. -/
theorem decode_ok_iff_row : decode w = .ok i ↔ ∃ r ∈ opcodeMap, r.selects w ∧ r.read w = i := by
  rw [decode_ok]
  simp only [opcodeMap, List.mem_cons, List.not_mem_nil, or_false, exists_eq_or_imp, exists_eq_left]
  exact or_congr decodeInit_iff_selects <| or_congr (decodePlain_iff_selects .destroy rfl) <|
    or_congr (decodeByte_iff_selects .writeByte rfl) <| or_congr decodeWord_iff_selects <|
    or_congr (decodeByte_iff_selects .writeMarker rfl) <| or_congr decodeBits_iff_selects <|
    or_congr (decodePlain_iff_selects .writeAlignBits rfl) <| or_congr (decodePlain_iff_selects .refillIn rfl) <|
    decodePlain_iff_selects .drainOut rfl

/-! ## The rows are disjoint -/

/-- Every row's mask covers `OP`, so a word that selects the row has the row's opcode. -/
theorem fieldOp_of_selects {r : OpcodeRow} (hr : r ∈ opcodeMap) (h : r.selects w) : fieldOp w = fieldOp r.matchBits := by
  have hmask : ∀ r ∈ opcodeMap, fieldOp r.mask = BitVec.allOnes 4 := by decide
  calc fieldOp w = fieldOp w &&& fieldOp r.mask := by rw [hmask r hr, BitVec.and_allOnes]
    _ = fieldOp (w &&& r.mask) := BitVec.extractLsb'_and.symm
    _ = fieldOp r.matchBits := by rw [h.1]

theorem opcodeMap_opcodes_distinct :
    opcodeMap.Pairwise fun r r' => fieldOp r.matchBits ≠ fieldOp r'.matchBits := by decide

end Sys2Proof

namespace Sys2Proof.Machine

/-- Settles O2: selecting a row is passing the decoder's checks, and no two rows have the same opcode. -/
theorem decodeFollowsOpcodeMap : Obligations.DecodeFollowsOpcodeMap :=
  ⟨fun _ _ => decode_ok_iff_row, opcodeMap_opcodes_distinct.imp_of_mem fun hr hr' hne _ ⟨h, h'⟩ =>
    hne ((fieldOp_of_selects hr h).symm.trans (fieldOp_of_selects hr' h'))⟩

/-- Settles O4: the example words by evaluation, the formulas by the values of the two formats. -/
theorem encodingExamples : Obligations.EncodingExamples := by
  refine ⟨rfl, rfl, rfl, rfl, rfl, rfl, rfl, rfl, rfl, rfl, rfl, rfl, fun a b => ?_, fun l v => ?_⟩
  · exact formatC_toNat 1#4 a b
  · exact formatD_toNat 6#4 l v

end Sys2Proof.Machine
end

section
/-! The illegal words (30_encoding.md R79): what R79's list says for each opcode is what that opcode's format rejects. -/

namespace Sys2Proof.Machine

section Rejected

variable {w : CmdWord}

/-! ## What each format's decoder rejects -/

theorem exists_error_iff {ε α : Type} {x : Except ε α} : (∃ e, x = .error e) ↔ ¬∃ a, x = .ok a := by
  cases x <;> simp

theorem decodeInit_error : (∃ e, decodeInit w = .error e) ↔ fieldInCap w = 0#14 ∨ fieldOutCap w = 0#14 := by
  simp only [exists_error_iff, decodeInit_ok, exists_and_left, exists_eq', and_true, capsLegal_iff, ne_eq,
    not_and_or, not_not]

theorem decodePlain_error (j : Instr) :
    (∃ e, decodePlain j w = .error e) ↔ fieldZ w ≠ 0#7 ∨ fieldLen w ≠ 0#5 ∨ fieldData w ≠ 0#16 := by
  simp only [exists_error_iff, decodePlain_ok, exists_and_left, exists_eq', and_true, not_and_or, ne_eq]

theorem decodeByte_error (mk : Byte → Instr) :
    (∃ e, decodeByte mk w = .error e) ↔ fieldZ w ≠ 0#7 ∨ fieldLen w ≠ 0#5 ∨ fieldDataHigh w ≠ 0#8 := by
  simp only [exists_error_iff, decodeByte_ok, exists_and_left, exists_eq', and_true, not_and_or, ne_eq]

theorem decodeWord_error (mk : Word → Instr) :
    (∃ e, decodeWord mk w = .error e) ↔ fieldZ w ≠ 0#7 ∨ fieldLen w ≠ 0#5 := by
  simp only [exists_error_iff, decodeWord_ok, exists_and_left, exists_eq', and_true, not_and_or, ne_eq]

theorem decodeBits_error : (∃ e, decodeBits w = .error e) ↔
    fieldZ w ≠ 0#7 ∨ 16 < (fieldLen w).toNat ∨ 2 ^ (fieldLen w).toNat ≤ (fieldData w).toNat := by
  simp only [exists_error_iff, decodeBits_ok, exists_and_left, exists_eq', and_true, lenLegal_iff, valueFits_iff,
    not_and_or, not_le, not_lt, ne_eq]

/-! ## What R79's list says for each opcode -/

theorem illegalWord_init (h : fieldOp w = 1#4) : illegalWord w ↔ fieldInCap w = 0#14 ∨ fieldOutCap w = 0#14 := by
  simp [illegalWord, h]

theorem illegalWord_plain (h : fieldOp w = 2#4 ∨ fieldOp w = 7#4 ∨ fieldOp w = 8#4 ∨ fieldOp w = 9#4) :
    illegalWord w ↔ fieldZ w ≠ 0#7 ∨ fieldLen w ≠ 0#5 ∨ fieldData w ≠ 0#16 := by
  rcases h with h | h | h | h <;> simp [illegalWord, h]

theorem illegalWord_byte (h : fieldOp w = 3#4 ∨ fieldOp w = 5#4) :
    illegalWord w ↔ fieldZ w ≠ 0#7 ∨ fieldLen w ≠ 0#5 ∨ fieldDataHigh w ≠ 0#8 := by
  rcases h with h | h <;> simp [illegalWord, h]

theorem illegalWord_word (h : fieldOp w = 4#4) : illegalWord w ↔ fieldZ w ≠ 0#7 ∨ fieldLen w ≠ 0#5 := by
  simp [illegalWord, h]

theorem illegalWord_bits (h : fieldOp w = 6#4) : illegalWord w ↔
    fieldZ w ≠ 0#7 ∨ 16 < (fieldLen w).toNat ∨ 2 ^ (fieldLen w).toNat ≤ (fieldData w).toNat := by
  simp [illegalWord, h]

theorem illegalWord_reserved (h : fieldOp w = 0#4 ∨ 10#4 ≤ fieldOp w) : illegalWord w :=
  h.imp_right .inl

/-- The decoder rejects exactly the words of R79's list: opcode by opcode. -/
theorem decode_error_iff_illegalWord : (∃ e, decode w = .error e) ↔ illegalWord w := by
  have hop {n : Nat} (h : (fieldOp w).toNat = n) : fieldOp w = BitVec.ofNat 4 n := by rw [← h, BitVec.ofNat_toNat]; simp
  unfold decode
  split
  case h_1 h => rw [decodeInit_error, illegalWord_init (hop h)]
  case h_2 h => rw [decodePlain_error, illegalWord_plain (.inl (hop h))]
  case h_3 h => rw [decodeByte_error, illegalWord_byte (.inl (hop h))]
  case h_4 h => rw [decodeWord_error, illegalWord_word (hop h)]
  case h_5 h => rw [decodeByte_error, illegalWord_byte (.inr (hop h))]
  case h_6 h => rw [decodeBits_error, illegalWord_bits (hop h)]
  case h_7 h => rw [decodePlain_error, illegalWord_plain (.inr (.inl (hop h)))]
  case h_8 h => rw [decodePlain_error, illegalWord_plain (.inr (.inr (.inl (hop h))))]
  case h_9 h => rw [decodePlain_error, illegalWord_plain (.inr (.inr (.inr (hop h))))]
  case h_10 =>
    have hreserved : fieldOp w = 0#4 ∨ 10#4 ≤ fieldOp w := by
      simp only [imp_false, ← BitVec.toNat_inj, BitVec.le_def, BitVec.toNat_ofNat] at *
      omega
    exact iff_of_true ⟨_, rfl⟩ (illegalWord_reserved hreserved)

/-- An illegal word raises `IllegalCommand` in the state without it (R78, R79). -/
theorem step_illegalWord {rest : List Stimulus} {s : State} (hw : illegalWord w) (hm : s.mode ≠ .faulted)
    (hp : s.env.port = .word w :: rest) :
    step s = .next (raise .illegalCommand { s with env := { s.env with port := rest } }) := by
  obtain ⟨e, he⟩ := decode_error_iff_illegalWord.2 hw
  have ha : s.arrivals = .word w :: rest := (arrivals_of_not_faulted hm).trans hp
  rw [step_illegal ha he, popPort_eq ha]
  exact rejectWord_raises hm

end Rejected

/-- Settles O3: the decoder rejects R79's words opcode by opcode, and a rejected word raises. -/
theorem illegalWordsRaiseIllegalCommand : Obligations.IllegalWordsRaiseIllegalCommand :=
  ⟨fun _ => decode_error_iff_illegalWord, illegalWord_reserved (by decide), illegalWord_reserved (by decide),
    fun _ _ _ => step_illegalWord⟩

end Sys2Proof.Machine
end

section
/-! The mode requirement (30_encoding.md R80), and the one kind of fault that each command's own pseudocode raises
(60_exceptions.md R146): never `IllegalCommand`. -/

namespace Sys2Proof.Machine

/-- The mode in which a command executes (R80). -/
def requiredMode : Instr → Mode
  | .init _ _ => .uninit
  | .destroy => .ready
  | .writeByte _ => .ready
  | .writeWord _ => .ready
  | .writeMarker _ => .ready
  | .writeBits _ _ => .ready
  | .writeAlignBits => .ready
  | .refillIn => .ready
  | .drainOut => .ready

/-- The pseudocode of a command. -/
def bodyOf : Instr → State → Run
  | .init a b => initBody a b
  | .destroy => destroyBody
  | .writeByte v => writeByte v
  | .writeWord v => writeTwo (hi8 v) (lo8 v)
  | .writeMarker code => writeTwo 0xFF#8 code
  | .writeBits len val => writeBits len.toNat val
  | .writeAlignBits => alignBody
  | .refillIn => refill
  | .drainOut => drainOr .shortWriteError

/-- The kind that a command's pseudocode raises (60_exceptions.md R146). -/
def bodyFault : Instr → FaultKind
  | .init _ _ => .allocationError
  | .destroy => .shortWriteError
  | .writeByte _ => .bufferWriteError
  | .writeWord _ => .bufferWriteError
  | .writeMarker _ => .bufferWriteError
  | .writeBits _ _ => .bufferWriteError
  | .writeAlignBits => .bufferWriteError
  | .refillIn => .shortReadError
  | .drainOut => .shortWriteError

theorem exec_eq_accept (i : Instr) (s : State) : exec i s = accept (requiredMode i) i.wellFormed (bodyOf i) s := by
  cases i <;> rfl

theorem requiredMode_ne_faulted (i : Instr) : requiredMode i ≠ .faulted := by
  cases i <;> simp [requiredMode]

theorem requiredMode_init {i : Instr} (h : ∃ a b, i = .init a b) : requiredMode i = .uninit := by
  obtain ⟨a, b, rfl⟩ := h; rfl

theorem requiredMode_not_init {i : Instr} (h : ∀ a b, i ≠ .init a b) : requiredMode i = .ready := by
  cases i with
  | init a b => exact absurd rfl (h a b)
  | _ => rfl

theorem bodyFault_ne_illegalCommand (i : Instr) : bodyFault i ≠ .illegalCommand := by
  cases i <;> simp [bodyFault]

/-- A command in another mode is rejected (R80). -/
theorem exec_wrong_mode {i : Instr} {s : State} (h : s.mode ≠ requiredMode i) : exec i s = rejectWord s := by
  rw [exec_eq_accept, accept_rejects _ fun hc => h hc.2]

/-! ## Which kind a procedure raises -/

/-- A run that went to its end left `FAULT` at `f`; one that ended inside a procedure left it empty, by a reset, or
raised `kind`. -/
def Run.RaisesOnly (kind : FaultKind) (f : Option FaultKind) (r : Run) : Prop :=
  r.Sat (fun t => t.fault = f) (fun t => t.fault = none ∨ t.fault = some kind) fun _ => True

theorem Run.RaisesOnly.andThen {kind : FaultKind} {f : Option FaultKind} {r : Run} {g : State → Run}
    (hr : r.RaisesOnly kind f) (hg : ∀ t, (g t).RaisesOnly kind t.fault) : (r.andThen g).RaisesOnly kind f :=
  Run.Sat.andThen hr fun t ht => ht ▸ hg t

theorem drainOr_raisesOnly (kind : FaultKind) (s : State) : (drainOr kind s).RaisesOnly kind s.fault := by
  rcases drainOr_cases kind s with ⟨_, e⟩ | ⟨_, e⟩ |
    ⟨_, _, ⟨_, _, e⟩ | ⟨_, _, e⟩ | ⟨_, _, e⟩ | ⟨_, _, _, e⟩ | ⟨_, _, _, e⟩⟩ <;> rw [e]
  · exact rfl
  · trivial
  · trivial
  · exact .inl rfl
  · exact .inl rfl
  · exact .inr rfl
  · exact rfl

theorem writeByte_raisesOnly (v : Byte) (s : State) : (writeByte v s).RaisesOnly .bufferWriteError s.fault := by
  unfold writeByte
  split
  · split
    · exact drainOr_raisesOnly .bufferWriteError (pushByte v s)
    · exact rfl
  · trivial

theorem writeAll_raisesOnly (bs : List Byte) (s : State) : (writeAll bs s).RaisesOnly .bufferWriteError s.fault := by
  induction bs generalizing s with
  | nil => exact rfl
  | cons b bs ih => exact (writeByte_raisesOnly b s).andThen ih

theorem writeBits_raisesOnly (len : Nat) (val : Word) (s : State) :
    (writeBits len val s).RaisesOnly .bufferWriteError s.fault := by
  rw [writeBits_eq]
  exact (writeAll_raisesOnly _ s).andThen fun _ => rfl

theorem flushByte_raisesOnly (s : State) : (flushByte s).RaisesOnly .bufferWriteError s.fault := by
  rw [flushByte_eq]
  split
  · exact (writeAll_raisesOnly _ s).andThen fun _ => rfl
  · exact rfl

theorem debugSeek_raisesOnly (kind : FaultKind) (s : State) : (debugSeek s).RaisesOnly kind s.fault := by
  rcases debugSeek_cases s with ⟨_, e⟩ | ⟨_, _, e⟩ | ⟨_, _, e⟩ <;> rw [e]
  · exact rfl
  · exact rfl
  · exact .inl rfl

theorem refill_raisesOnly (s : State) : (refill s).RaisesOnly .shortReadError s.fault := by
  rcases refill_cases s with ⟨_, _, e⟩ | ⟨_, _, e⟩ | ⟨_, _, e⟩ | ⟨_, _, _, e⟩ | ⟨k, _, _, _, e⟩ <;> rw [e]
  · trivial
  · exact .inl rfl
  · exact .inl rfl
  · exact .inr rfl
  · have hread : (Run.ok (rewindIn (received k s))).RaisesOnly .shortReadError s.fault := by
      simp [Run.RaisesOnly, received]
    exact hread.andThen (debugSeek_raisesOnly .shortReadError)

theorem initBody_raisesOnly (a b : Cursor) (s : State) : (initBody a b s).RaisesOnly .allocationError s.fault := by
  rcases initBody_cases a b s with ⟨_, e⟩ | ⟨_, _, e⟩ <;> rw [e]
  · exact .inr rfl
  · exact rfl

theorem bodyOf_raisesOnly (i : Instr) (s : State) : (bodyOf i s).RaisesOnly (bodyFault i) s.fault := by
  cases i with
  | init a b => exact initBody_raisesOnly a b s
  | destroy => exact (drainOr_raisesOnly .shortWriteError s).andThen fun _ => rfl
  | writeByte v => exact writeByte_raisesOnly v s
  | writeWord v => exact (writeByte_raisesOnly (hi8 v) s).andThen (writeByte_raisesOnly (lo8 v))
  | writeMarker code => exact (writeByte_raisesOnly 0xFF#8 s).andThen (writeByte_raisesOnly code)
  | writeBits len val => exact writeBits_raisesOnly len.toNat val s
  | writeAlignBits => exact (writeBits_raisesOnly _ _ s).andThen flushByte_raisesOnly
  | refillIn => exact refill_raisesOnly s
  | drainOut => exact drainOr_raisesOnly .shortWriteError s

/-- `FAULT` after a legal command that executed in its mode: as before, empty after a reset, or the command's own kind. -/
theorem exec_fault {i : Instr} {s t : State} (hw : i.wellFormed = true) (hm : s.mode = requiredMode i)
    (h : exec i s = .next t) : t.fault = s.fault ∨ t.fault = none ∨ t.fault = some (bodyFault i) := by
  have hbody := bodyOf_raisesOnly i s
  rw [exec_eq_accept, accept_runs _ hw hm] at h
  rcases outcome_eq_next.1 h with ⟨u, hu, rfl⟩ | hu <;> rw [hu] at hbody
  · exact .inl hbody
  · exact .inr hbody

/-- Settles O5: the wrong mode rejects the command, and in the right one its pseudocode raises no `IllegalCommand`. -/
theorem modeRequirement : Obligations.ModeRequirement := by
  intro i s hw
  refine ⟨fun hm => ?_, fun hwrong => ?_, fun hright hnone t ht => ?_⟩
  · rw [exec_wrong_mode (hm ▸ (requiredMode_ne_faulted i).symm), rejectWord_faulted hm]
  · have hmode : s.mode ≠ requiredMode i ∧ s.mode ≠ .faulted := by
      rcases hwrong with ⟨hm, hi⟩ | ⟨hm, hi⟩
      · simp [hm, requiredMode_init hi]
      · simp [hm, requiredMode_not_init hi]
    rw [exec_wrong_mode hmode.1, rejectWord_raises hmode.2]; rfl
  · have hmode : s.mode = requiredMode i := by
      rcases hright with ⟨hm, hi⟩ | ⟨hm, hi⟩
      · rw [hm, requiredMode_init hi]
      · rw [hm, requiredMode_not_init hi]
    rcases exec_fault hw hmode ht with h | h | h <;> rw [h]
    · simp [hnone]
    · simp
    · simpa using bodyFault_ne_illegalCommand i

end Sys2Proof.Machine
end

section
/-! The lifecycle (40_lifecycle.md): what a drain leaves behind, a DESTROY that completed, a legal INIT, and the two in
sequence (R92); INIT in READY (R93). -/

namespace Sys2Proof.Machine

/-! ## Drain, by how it ended -/

/-- A drain that ran to its end left nothing buffered and the byte stream, with all outside it, as it was. -/
theorem drainOr_eq_ok {kind : FaultKind} {s t : State} (h : drainOr kind s = .ok t) : Stored [] s t ∧ t.out.pos = 0#14 := by
  rcases drainOr_cases kind s with ⟨hempty, e⟩ | ⟨_, e⟩ |
    ⟨hne, hle, ⟨_, _, e⟩ | ⟨_, _, e⟩ | ⟨_, _, e⟩ | ⟨_, _, _, e⟩ | ⟨_, _, _, e⟩⟩ <;> rw [e] at h <;> cases h
  · exact ⟨.refl s, hempty⟩
  · exact ⟨stored_drained hne hle, rfl⟩

/-- A command that ended inside a drain did not complete with `done`: the last that its ports said is the cut-off
transaction or the completion of a fault. -/
theorem not_completedDone_of_drainOr_ended {kind : FaultKind} {s t : State} (h : drainOr kind s = .ended t) :
    ¬t.completedDone := by
  unfold State.completedDone
  rcases drainOr_cases kind s with ⟨_, e⟩ | ⟨_, e⟩ |
    ⟨_, _, ⟨_, _, e⟩ | ⟨_, _, e⟩ | ⟨_, _, e⟩ | ⟨_, _, _, e⟩ | ⟨_, _, _, e⟩⟩ <;> rw [e] at h <;> cases h
  · simp
  · simp
  · simp

/-! ## DESTROY and INIT -/

/-- A DESTROY that completed with `done` drained to the end, went to UNINIT and changed nothing after the drain (R91). -/
theorem destroy_completedDone {s t : State} (hm : s.mode = .ready) (h : exec .destroy s = .next t)
    (hdone : t.completedDone) :
    ∃ u, drainOr .shortWriteError s = .ok u ∧ t = { u with mode := .uninit }.complete .done := by
  rw [exec_destroy, accept_runs _ rfl hm] at h
  rcases outcome_eq_next.1 h with ⟨v, hv, rfl⟩ | hended
  · obtain ⟨u, hu, rfl⟩ := destroyBody_eq_ok.1 hv
    exact ⟨u, hu, rfl⟩
  · cases hdrain : drainOr .shortWriteError s with
    | ok u => simp [destroyBody, hdrain] at hended
    | ended u =>
      have hut : u = t := by simpa [destroyBody, hdrain] using hended
      exact absurd (hut ▸ hdone) (not_completedDone_of_drainOr_ended hdrain)
    | stop f => simp [destroyBody, hdrain] at hended

/-- A legal INIT in UNINIT whose capacities fit creates the controller and completes (R90). -/
theorem exec_init_of_fits {a b : Cursor} {s : State} (hm : s.mode = .uninit) (hlegal : capsLegal a b = true)
    (ha : a ≤ s.params.nInMax) (hb : b ≤ s.params.nOutMax) :
    exec (.init a b) s = .next ((create a b s).complete .done) := by
  rw [exec_init, accept_runs _ hlegal hm]
  rcases initBody_cases a b s with ⟨hover | hover, _⟩ | ⟨_, _, e⟩
  · exact absurd ha (BitVec.not_le.2 hover)
  · exact absurd hb (BitVec.not_le.2 hover)
  · rw [e, outcome_ok]

/-- Settles O19: INIT requires UNINIT, so in READY it is rejected. -/
theorem initWhileReadyIsIllegal : Obligations.InitWhileReadyIsIllegal := by
  intro a b s hm
  have hmode : s.mode ≠ requiredMode (.init a b) ∧ s.mode ≠ .faulted := by simp [hm, requiredMode]
  refine ⟨raise .illegalCommand s, ?_, rfl, rfl, rfl, rfl, rfl⟩
  rw [exec_wrong_mode hmode.1, rejectWord_raises hmode.2]

/-- Settles O22: the drain of a completed DESTROY leaves stream and parameters as they were and nothing buffered, so the
sink has the whole stream and the capacities still fit. -/
theorem initAfterDestroyAppends : Obligations.InitAfterDestroyAppends := by
  intro s t a b hm h hdone ha hb hain hbout
  obtain ⟨u, hu, rfl⟩ := destroy_completedDone hm h hdone
  obtain ⟨hstored, hempty⟩ := drainOr_eq_ok hu
  have hsink : u.env.sink = s.env.sink ++ s.buffered := by
    calc u.env.sink = u.stream := (stream_of_empty hempty).symm
      _ = s.env.sink ++ s.buffered := by rw [hstored.stream, List.append_nil, State.stream]
  have hlegal : capsLegal a b = true := by simpa [capsLegal] using And.intro ha hb
  exact ⟨rfl, hsink, _, exec_init_of_fits rfl hlegal (hstored.params ▸ hain) (hstored.params ▸ hbout),
    rfl, rfl, rfl, rfl, rfl⟩

end Sys2Proof.Machine
end

section
/-! The primitive writers (42_primitive_writers.md R114): they touch the output side alone, however they end but by a reset,
and never read `ACC`. -/

namespace Sys2Proof.Machine

/-! ## What a command that only stores bytes and drains leaves unchanged -/

/-- From `s` to `t` the parameters, the input buffer, `OUT.cap`, the source stream and the command port are as before, and
no source transaction was issued: what R114 says but for `ACC`. -/
structure OutputSideOnly (s t : State) : Prop where
  params : t.params = s.params
  inp : t.inp = s.inp
  cap : t.out.cap = s.out.cap
  src : t.env.src = s.env.src
  srcPos : t.env.srcPos = s.env.srcPos
  sourceAnswers : t.env.sourceAnswers = s.env.sourceAnswers
  seekResets : t.env.seekResets = s.env.seekResets
  port : t.env.port = s.env.port
  log : ∃ l, t.env.log = s.env.log ++ l ∧ ∀ e ∈ l, e.isSource = false

theorem OutputSideOnly.trans {s t u : State} (h : OutputSideOnly s t) (h' : OutputSideOnly t u) : OutputSideOnly s u := by
  obtain ⟨l, hl, hsl⟩ := h.log
  obtain ⟨m, hm, hsm⟩ := h'.log
  exact {
    params := h'.params.trans h.params
    inp := h'.inp.trans h.inp
    cap := h'.cap.trans h.cap
    src := h'.src.trans h.src
    srcPos := h'.srcPos.trans h.srcPos
    sourceAnswers := h'.sourceAnswers.trans h.sourceAnswers
    seekResets := h'.seekResets.trans h.seekResets
    port := h'.port.trans h.port
    log := ⟨l ++ m, by rw [hm, hl, List.append_assoc], fun e he => (List.mem_append.1 he).elim (hsl e) (hsm e)⟩ }

theorem Stored.outputSideOnly {bs : List Byte} {s t : State} (h : Stored bs s t) : OutputSideOnly s t := by
  obtain ⟨l, hl, _, honly⟩ := h.log
  exact ⟨h.params, h.inp, h.cap, h.src, h.srcPos, h.sourceAnswers, h.seekResets, h.port, l, hl,
    fun e he => (honly.facts.2 e he).1⟩

theorem complete_outputSideOnly (c : Completion) (s : State) : OutputSideOnly s (s.complete c) :=
  ⟨rfl, rfl, rfl, rfl, rfl, rfl, rfl, rfl, [.completed c], rfl, by simp [PortEvent.isSource]⟩

theorem raise_outputSideOnly (kind : FaultKind) (s : State) : OutputSideOnly s (raise kind s) :=
  ⟨rfl, rfl, rfl, rfl, rfl, rfl, rfl, rfl, [.hook kind, .completed .fault], rfl, by simp [PortEvent.isSource]⟩

theorem sinkWrite_popSink_outputSideOnly (bytes : List Byte) (k : Nat) (s : State) :
    OutputSideOnly s (sinkWrite bytes k s.popSink) :=
  ⟨rfl, rfl, rfl, rfl, rfl, rfl, rfl, rfl, [.sinkWrite bytes k], rfl, by simp [PortEvent.isSource]⟩

/-! ## A run of byte stores that a drain cut short -/

/-- The command ended inside a drain: by a reset, or by a fault, which touched the output side alone. -/
def CutShort (s t : State) : Prop := t.mode = .uninit ∨ OutputSideOnly s t ∧ ¬t.completedDone

theorem OutputSideOnly.cutShort {s t u : State} (h : OutputSideOnly s t) (h' : CutShort t u) : CutShort s u :=
  h'.imp_right fun ⟨hside, hdone⟩ => ⟨h.trans hside, hdone⟩

theorem not_completedDone_raise (kind : FaultKind) (s : State) : ¬(raise kind s).completedDone := by
  simp [State.completedDone]

theorem writeByte_ended {v : Byte} {s t : State} (h : writeByte v s = .ended t) : CutShort s t := by
  rcases writeByte_cases v s with ⟨_, e⟩ | ⟨_, _, e⟩ |
    ⟨hlt, _, ⟨_, _, e⟩ | ⟨_, _, e⟩ | ⟨_, _, e⟩ | ⟨k, _, _, e⟩ | ⟨_, _, _, e⟩⟩ <;> rw [e] at h <;> cases h
  · exact .inl rfl
  · exact .inl rfl
  · have hsunk := (stored_pushByte v hlt).outputSideOnly.trans (sinkWrite_popSink_outputSideOnly (s.buffered ++ [v]) k _)
    exact .inr ⟨hsunk.trans (raise_outputSideOnly _ _), not_completedDone_raise _ _⟩

theorem writeAll_ended {bs : List Byte} {s t : State} (h : writeAll bs s = .ended t) : CutShort s t := by
  rcases writeAll_cases bs s with ⟨_, e, _⟩ | ⟨_, _, _, _, _, hstored, _, e, _⟩ <;> rw [e] at h
  · cases h
  · exact hstored.outputSideOnly.cutShort (writeByte_ended h)

/-- A command that is a list of byte stores touches the output side alone, unless a reset ended it, and completed has added
its bytes to the stream. -/
theorem writeAll_outcome {bs : List Byte} {s t : State} (h : (writeAll bs s).outcome = .next t) (hm : t.mode ≠ .uninit) :
    OutputSideOnly s t ∧ (t.completedDone → t.stream = s.stream ++ bs) := by
  rcases outcome_eq_next.1 h with ⟨u, hu, rfl⟩ | hended
  · have hstored := stored_writeAll hu
    exact ⟨hstored.outputSideOnly.trans (complete_outputSideOnly _ _), fun _ => hstored.stream⟩
  · obtain ⟨hside, hnot⟩ := (writeAll_ended hended).resolve_left hm
    exact ⟨hside, fun hdone => absurd hdone hnot⟩

/-- A run with another accumulator gives the same command result but for it, where no reset ended it. -/
theorem outcome_withAcc {a : Acc} {r : Run} {t : State} (h : r.outcome = .next t) (hm : t.mode ≠ .uninit) :
    (r.withAcc a).outcome = .next (setAcc a t) := by
  rcases outcome_eq_next.1 h with ⟨u, rfl, rfl⟩ | rfl
  · rfl
  · simp [Run.withAcc, hm]

/-! ## The primitive writers -/

/-- A primitive writer is its own bytes written one after the other; neither the parameters nor `ACC` enter (R111 to R113). -/
theorem exec_primitive {i : Instr} (hi : (∃ v, i = .writeByte v) ∨ (∃ v, i = .writeWord v) ∨ ∃ c, i = .writeMarker c)
    (p : AlignOnBoundary) (a : Acc) {s : State} (hm : s.mode = .ready) :
    exec i s = (writeAll (emitted p a i) s).outcome := by
  rcases hi with ⟨v, rfl⟩ | ⟨v, rfl⟩ | ⟨c, rfl⟩
  · rw [exec_writeByte, accept_runs _ rfl hm, ← writeAll_single]; rfl
  · rw [exec_writeWord, accept_runs _ rfl hm]; rfl
  · rw [exec_writeMarker, accept_runs _ rfl hm]; rfl

/-- Settles O36: a primitive writer is a list of byte stores, which touches the output side alone and runs alike with any
accumulator; with its own accumulator, that says `ACC` is unchanged. -/
theorem primitiveWritersTouchOnlyOutput : Obligations.PrimitiveWritersTouchOnlyOutput := by
  intro i s t hi hready h hm
  have hrun {u : State} := exec_primitive hi s.params.alignOnBoundary s.acc (s := u)
  rw [hrun hready] at h
  obtain ⟨hside, hstream⟩ := writeAll_outcome h hm
  have hany : ∀ a, exec i (setAcc a s) = .next (setAcc a t) := fun a => by
    rw [hrun (by exact hready), writeAll_setAcc, outcome_withAcc h hm]
  have hacc : t.acc = s.acc := by
    have hown : exec i s = .next (setAcc s.acc t) := hany s.acc
    rw [hrun hready, h] at hown
    calc t.acc = (setAcc s.acc t).acc := congrArg State.acc (Host.Outcome.next.inj hown)
      _ = s.acc := rfl
  exact ⟨hacc, hside.inp, hside.cap, hside.params, hside.src, hside.srcPos, hside.sourceAnswers,
    hside.seekResets, hside.port, hany, hside.log, hstream⟩

end Sys2Proof.Machine
end

section
/-! The bit writer (43_bit_writer.md): a command that completed with `done` stored its data bytes, stuffed, and nothing else, and
then wrote `ACC`; with that, the stuffing invariant (R130) and the two ends of `ACC.len`, no code at all (R123) and a full
accumulator (R125). -/

namespace Sys2Proof.Machine

/-! ## Only a procedure that ran to its end completes with `done` -/

/-- A run that ended inside a drain left no completion with `done` as the last event on the ports. -/
def Run.DoneOnlyAtEnd (r : Run) : Prop := r.Sat (fun _ => True) (fun t => ¬t.completedDone) fun _ => True

theorem Run.DoneOnlyAtEnd.andThen {r : Run} {f : State → Run} (hr : r.DoneOnlyAtEnd) (hf : ∀ t, (f t).DoneOnlyAtEnd) :
    (r.andThen f).DoneOnlyAtEnd :=
  Run.Sat.andThen hr fun t _ => hf t

/-- A command that completed with `done` ran its procedure to the end. -/
theorem Run.DoneOnlyAtEnd.eq_ok {r : Run} {t : State} (hr : r.DoneOnlyAtEnd) (h : r.outcome = .next t)
    (hdone : t.completedDone) : ∃ u, r = .ok u ∧ t = u.complete .done := by
  rcases outcome_eq_next.1 h with hok | rfl
  · exact hok
  · exact absurd hdone hr

theorem drainOr_doneOnlyAtEnd (kind : FaultKind) (s : State) : (drainOr kind s).DoneOnlyAtEnd := by
  cases h : drainOr kind s with
  | ok t => trivial
  | ended t => exact not_completedDone_of_drainOr_ended h
  | stop f => trivial

theorem writeByte_doneOnlyAtEnd (v : Byte) (s : State) : (writeByte v s).DoneOnlyAtEnd := by
  unfold writeByte
  split
  · split
    · exact drainOr_doneOnlyAtEnd .bufferWriteError (pushByte v s)
    · trivial
  · trivial

theorem writeAll_doneOnlyAtEnd (bs : List Byte) (s : State) : (writeAll bs s).DoneOnlyAtEnd := by
  induction bs generalizing s with
  | nil => trivial
  | cons b bs ih => exact (writeByte_doneOnlyAtEnd b s).andThen ih

theorem writeBits_doneOnlyAtEnd (len : Nat) (val : Word) (s : State) : (writeBits len val s).DoneOnlyAtEnd := by
  rw [writeBits_eq]
  exact (writeAll_doneOnlyAtEnd _ s).andThen fun _ => trivial

theorem flushByte_doneOnlyAtEnd (s : State) : (flushByte s).DoneOnlyAtEnd := by
  rw [flushByte_eq]
  split
  · exact (writeAll_doneOnlyAtEnd _ s).andThen fun _ => trivial
  · trivial

theorem alignBody_doneOnlyAtEnd (s : State) : (alignBody s).DoneOnlyAtEnd :=
  (writeBits_doneOnlyAtEnd _ _ s).andThen flushByte_doneOnlyAtEnd

/-- A command whose procedure says `done` only at its end was accepted and ran to that end, if it completed with `done`. -/
theorem accept_completedDone {need : Mode} {legal : Bool} {body : State → Run} {s t : State}
    (hb : (body s).DoneOnlyAtEnd) (h : accept need legal body s = .next t) (hdone : t.completedDone) :
    ∃ u, body s = .ok u ∧ t = u.complete .done := by
  rcases accept_next h with ⟨_, _, hrun⟩ | ⟨_, _, rfl⟩
  · exact hb.eq_ok hrun hdone
  · exact absurd hdone (not_completedDone_raise _ _)

/-! ## A completed command of the bit writer -/

/-- A WRITE_BITS that completed with `done` stored its data bytes, stuffed, then wrote `ACC` (R121). -/
theorem writeBits_completedDone {l : BitVec 5} {v : Word} {s t : State} (h : exec (.writeBits l v) s = .next t)
    (hdone : t.completedDone) : ∃ u, Stored (stuff (writeBitsData l.toNat v s.acc)) s u ∧
      t = (setAcc (accAfter l.toNat v s.acc) u).complete .done := by
  obtain ⟨w, hw, rfl⟩ := accept_completedDone (writeBits_doneOnlyAtEnd _ _ s) h hdone
  rw [writeBits_eq] at hw
  obtain ⟨u, hu, hacc⟩ := andThen_eq_ok.1 hw
  cases hacc
  exact ⟨u, stored_writeAll hu, rfl⟩

/-- A WRITE_ALIGN_BITS that completed with `done` stored the bytes of R126's table, stuffed, then emptied `ACC`. -/
theorem writeAlignBits_completedDone {s t : State} (ha : AccOk s.acc) (h : exec .writeAlignBits s = .next t)
    (hdone : t.completedDone) : ∃ u, Stored (stuff (alignData s.params.alignOnBoundary s.acc)) s u ∧
      t = (setAcc { len := 0#5, val := 0#16 } u).complete .done := by
  obtain ⟨w, hw, rfl⟩ := accept_completedDone (alignBody_doneOnlyAtEnd s) h hdone
  obtain ⟨u, hu, rfl⟩ := alignBody_eq_ok ha hw
  exact ⟨u, hu, rfl⟩

/-- Neither the write of `ACC` nor the completion is in the byte stream. -/
theorem stream_complete_setAcc (a : Acc) (c : Completion) (s : State) : ((setAcc a s).complete c).stream = s.stream := rfl

/-! ## Stuffing -/

/-- A data byte with its stuffing byte, before bytes in which every `FF` is followed by `00` (R120). -/
theorem StuffedOk.stuffed_append {l : List Byte} (b : Byte) (hl : StuffedOk l) : StuffedOk (stuffed b ++ l) := by
  by_cases hb : b = 0xFF#8
  · rw [stuffed, if_pos hb]
    rintro (_ | _ | i) h
    · rfl
    · simp at h
    · exact hl i h
  · rw [stuffed, if_neg hb]
    rintro (_ | i) h
    · exact absurd (Option.some.inj h) hb
    · exact hl i h

theorem stuffedOk_stuff (data : List Byte) : StuffedOk (stuff data) := by
  induction data with
  | nil => exact fun _ h => nomatch h
  | cons b data ih => exact ih.stuffed_append b

/-- Settles O48: the bytes that either command stores are its data bytes, stuffed. -/
theorem bitWriterOutputIsStuffed : Obligations.BitWriterOutputIsStuffed := by
  rintro i s t (⟨l, v, rfl⟩ | rfl) hinv _ h hdone
  · obtain ⟨u, hu, rfl⟩ := writeBits_completedDone h hdone
    exact ⟨_, (stream_complete_setAcc _ _ u).trans hu.stream, stuffedOk_stuff _⟩
  · obtain ⟨u, hu, rfl⟩ := writeAlignBits_completedDone hinv.acc h hdone
    exact ⟨_, (stream_complete_setAcc _ _ u).trans hu.stream, stuffedOk_stuff _⟩

/-! ## A code of length 0 -/

theorem accAfter_zero {a : Acc} (ha : a.len.toNat ≤ 15) : accAfter 0 0#16 a = a := by
  rw [accAfter_part (by omega)]
  simp [shl16]

theorem writeBitsData_zero {v : Word} {a : Acc} (ha : a.len.toNat ≤ 15) : writeBitsData 0 v a = [] :=
  if_neg (by omega)

/-- Settles O37: a code of length 0 does not fill the window, so no byte is stored and `ACC` is written as it was. -/
theorem zeroLengthCodeIsNoOp : Obligations.ZeroLengthCodeIsNoOp := by
  intro s hm hlen
  have hdata : writeBitsData (0 : BitVec 5).toNat 0 s.acc = [] := writeBitsData_zero hlen
  have hacc : accAfter (0 : BitVec 5).toNat 0 s.acc = s.acc := accAfter_zero hlen
  have hlegal : (lenLegal 0 && valueFits 0 0) = true := by decide
  rw [exec_writeBits, accept_runs _ hlegal hm, writeBits_eq, hdata, hacc]
  rfl

/-! ## A full accumulator -/

/-- With 16 bits pending the code starts a fresh window, left-justified (R125). -/
theorem accAfter_of_len_16 (l : BitVec 5) (v : Word) {a : Acc} (ha : a.len = 16) :
    accAfter l.toNat v a = { len := l, val := v <<< (16 - l.toNat) } := by
  rw [accAfter_full (by simp [ha])]
  simp [ha, shl16]

/-- With 16 bits pending no bit of the code is in the emitted word (R125). -/
theorem writeBitsData_of_len_16 {l : BitVec 5} {v : Word} {a : Acc} (hv : v.toNat < 2 ^ l.toNat) (ha : a.len = 16) :
    writeBitsData l.toNat v a = [hi8 a.val, lo8 a.val] := by
  have hshr : shr v l.toNat = 0#16 := eq_of_beq ((valueFits_iff l v).2 hv)
  have hletter : letterOf l.toNat v a = a.val := by simp [letterOf, totalBits, ha, hshr]
  rw [writeBitsData, if_pos (by simp [ha]), hletter]

/-- Settles O40: the command stored the two bytes of the accumulator, stuffed, and `ACC` is the code left-justified. -/
theorem fullAccumulatorIsFlushed : Obligations.FullAccumulatorIsFlushed := by
  intro l v s t _ _ hv hlen h hdone
  obtain ⟨u, hu, rfl⟩ := writeBits_completedDone h hdone
  rw [writeBitsData_of_len_16 hv hlen] at hu
  exact ⟨accAfter_of_len_16 l v hlen, (stream_complete_setAcc _ _ u).trans hu.stream⟩

end Sys2Proof.Machine
end

section
/-! The fault kinds one by one: INIT's capacity check (60_exceptions.md R141), a short write (R143) and a short read (R142). -/

namespace Sys2Proof.Machine

/-- Settles O18: INIT's pseudocode raises where a capacity is too large, and elsewhere INIT leaves `FAULT` empty. -/
theorem initAllocationError : Obligations.InitAllocationError := by
  intro a b s hm hnone ha hb
  have hlegal : capsLegal a b = true := (capsLegal_iff a b).2 ⟨ha, hb⟩
  refine ⟨fun hover => ?_, fun hfits t ht => ?_⟩
  · rw [exec_init, accept_runs _ hlegal hm]
    rcases initBody_cases a b s with ⟨_, e⟩ | ⟨hain, hbout, _⟩
    · rw [e]; rfl
    · exact absurd hover (not_or.2 ⟨BitVec.not_lt.2 hain, BitVec.not_lt.2 hbout⟩)
  · obtain ⟨hain, hbout⟩ := not_or.1 hfits
    rw [exec_init_of_fits hm hlegal (BitVec.not_lt.1 hain) (BitVec.not_lt.1 hbout)] at ht
    cases ht
    simp [hnone]

/-- A sink that takes fewer bytes than are buffered faults the drain (41_buffer.md R100). -/
theorem drainOr_short {kind : FaultKind} {s : State} {k : Nat} (hle : s.out.pos ≤ s.out.cap) (hk : s.sinkAnswer = .take k)
    (hshort : k < s.out.pos.toNat) : drainOr kind s = .ended (raise kind (sinkWrite s.buffered k s.popSink)) := by
  have hne : s.out.pos ≠ 0#14 := fun h => by simp [h] at hshort
  simp [drainOr, drain, hne, BitVec.not_lt.2 hle, hk, short, hshort]

/-- A read that delivers fewer than `IN.cap` bytes faults the refill (41_buffer.md R102). -/
theorem refill_short {s : State} {k : Nat} (hk : s.sourceAnswer = .take k)
    (hshort : min k (s.env.src.length - s.env.srcPos) < s.inp.cap.toNat) :
    refill s = .ended (raise .shortReadError (received k s)) := by
  have hlen : (s.sourceData s.inp.cap.toNat k).length < s.inp.cap.toNat := by rw [sourceData_length]; omega
  simp [refill, hk, short, hlen, received]

/-- Settles O25: both commands begin with the drain, which ends them. -/
theorem shortWriteIsFatal : Obligations.ShortWriteIsFatal := by
  intro i s k hi hm hle hk hshort
  have hrun : exec i s = .next (raise .shortWriteError (sinkWrite s.buffered k s.popSink)) := by
    rcases hi with rfl | rfl
    · rw [exec_destroy, accept_runs _ rfl hm, destroyBody, drainOr_short hle hk hshort]; rfl
    · rw [exec_drainOut, accept_runs _ rfl hm, drainOr_short hle hk hshort]; rfl
  exact ⟨_, hrun, by simp [raise, sinkWrite, State.popSink]⟩

/-- Settles O27: the data is the file from its position on, as much as the answer and the file give. -/
theorem shortReadIsFatal : Obligations.ShortReadIsFatal := by
  intro s k hm hk hshort
  have hlen : (s.sourceData s.inp.cap.toNat k).length = min k (s.env.src.length - s.env.srcPos) := by
    rw [sourceData_length]; omega
  have hdata : s.sourceData s.inp.cap.toNat k = (s.env.src.drop s.env.srcPos).take k := by
    rw [State.sourceData, List.take_eq_take_iff, List.length_drop]; omega
  refine ⟨raise .shortReadError (received k s), ?_, ?_, fun a => ?_⟩
  · rw [exec_refillIn, accept_runs _ rfl hm, refill_short hk hshort, outcome_ended]
  · simp [raise, received, receive, sourceRead, clearIn, State.popSource, hlen, ← hdata]
  · rw [raise_inp, read_received, hlen]
    split
    · rw [hdata, List.getElem?_take_of_lt (by omega), List.getElem?_drop]
    · rfl

end Sys2Proof.Machine
end

section
/-! Fault entry (60_exceptions.md R148, R149): a command either signals no fault and does not end FAULTED, or ends in one
`raise`, before which it signalled none. -/

namespace Sys2Proof.Machine

/-- From `e` to `f` the record gained no Hook. -/
def Env.Quiet (e f : Env) : Prop := e.Grows f ∧ f.hooks = e.hooks

theorem Env.Quiet.refl (e : Env) : e.Quiet e := ⟨.refl e, rfl⟩

theorem Env.Quiet.trans {e f g : Env} (h : e.Quiet f) (h' : f.Quiet g) : e.Quiet g :=
  ⟨h.1.trans h'.1, h'.2.trans h.2⟩

theorem Env.Quiet.log {e f : Env} (h : e.Quiet f) : ∃ l, f.log = e.log ++ l ∧ hooksOf l = [] := by
  obtain ⟨⟨l, hlog, _, hhooks⟩, hsame⟩ := h
  exact ⟨l, hlog, List.append_right_eq_self.1 (hhooks.symm.trans hsame)⟩

theorem sinkWrite_popSink_quiet (bytes : List Byte) (k : Nat) (s : State) :
    s.env.Quiet (sinkWrite bytes k s.popSink).env := ⟨sinkWrite_popSink_grows bytes k s, rfl⟩

theorem receive_clearIn_quiet (data : List Byte) (s : State) :
    s.env.Quiet (receive data (clearIn s.popSource)).env := ⟨receive_clearIn_grows data s, rfl⟩

theorem soughtBack_quiet (s : State) : s.env.Quiet (soughtBack s).env := ⟨soughtBack_grows s, rfl⟩

/-- The command that began in the environment `e` has signalled no fault and is not FAULTED. -/
def Unfaulted (e : Env) (t : State) : Prop := t.mode ≠ .faulted ∧ e.Quiet t.env

/-- Fault entry at the end of a command that began in the environment `e` and had signalled no fault. -/
def Raised (e : Env) (t : State) : Prop := ∃ (kind : FaultKind) (u : State), t = raise kind u ∧ e.Quiet u.env

theorem resetBlock_unfaulted {e : Env} {s : State} (h : e.Quiet s.env) : Unfaulted e (resetBlock s) :=
  ⟨by simp, h⟩

theorem resetWhileHung_unfaulted {e : Env} {s : State} (h : e.Quiet s.env) : Unfaulted e (resetWhileHung s) :=
  ⟨by simp, h.trans ⟨resetWhileHung_grows s, rfl⟩⟩

/-- The run signals a fault only where `raise` ends it. -/
def Run.FaultsByRaise (e : Env) (r : Run) : Prop :=
  r.Sat (Unfaulted e) (fun t => Unfaulted e t ∨ Raised e t) fun _ => True

theorem Run.FaultsByRaise.andThen {e : Env} {r : Run} {f : State → Run} (hr : r.FaultsByRaise e)
    (hf : ∀ t, t.mode ≠ .faulted → (f t).FaultsByRaise t.env) : (r.andThen f).FaultsByRaise e :=
  Run.Sat.andThen hr fun t ⟨hm, hq⟩ => (hf t hm).mono
    (fun _ => And.imp_right hq.trans)
    (fun _ => Or.imp (And.imp_right hq.trans) fun ⟨kind, v, hv, hqv⟩ => ⟨kind, v, hv, hq.trans hqv⟩)
    fun _ h => h

theorem initBody_faultsByRaise (a b : Cursor) (s : State) : (initBody a b s).FaultsByRaise s.env := by
  rcases initBody_cases a b s with ⟨_, e⟩ | ⟨_, _, e⟩ <;> rw [e]
  · exact .inr ⟨_, s, rfl, .refl _⟩
  · exact ⟨by simp, .refl _⟩

section Procedures

variable {s : State} (hm : s.mode ≠ .faulted)
include hm

theorem drainOr_faultsByRaise (kind : FaultKind) : (drainOr kind s).FaultsByRaise s.env := by
  rcases drainOr_cases kind s with ⟨_, e⟩ | ⟨_, e⟩ |
    ⟨_, _, ⟨_, _, e⟩ | ⟨_, _, e⟩ | ⟨_, _, e⟩ | ⟨_, _, _, e⟩ | ⟨_, _, _, e⟩⟩ <;> rw [e]
  · exact ⟨hm, .refl _⟩
  · trivial
  · trivial
  · exact .inl (resetWhileHung_unfaulted (sinkWrite_popSink_quiet _ _ s))
  · exact .inl (resetBlock_unfaulted (sinkWrite_popSink_quiet _ _ s))
  · exact .inr ⟨kind, _, rfl, sinkWrite_popSink_quiet _ _ s⟩
  · exact ⟨hm, sinkWrite_popSink_quiet _ _ s⟩

theorem writeByte_faultsByRaise (v : Byte) : (writeByte v s).FaultsByRaise s.env := by
  unfold writeByte
  split
  · split
    · exact drainOr_faultsByRaise (s := pushByte v s) hm .bufferWriteError
    · exact ⟨hm, .refl _⟩
  · trivial

theorem writeAll_faultsByRaise (bs : List Byte) : (writeAll bs s).FaultsByRaise s.env := by
  induction bs generalizing s with
  | nil => exact ⟨hm, .refl _⟩
  | cons b bs ih => exact (writeByte_faultsByRaise hm b).andThen fun _ => ih

theorem writeBits_faultsByRaise (len : Nat) (val : Word) : (writeBits len val s).FaultsByRaise s.env := by
  rw [writeBits_eq]
  exact (writeAll_faultsByRaise hm _).andThen fun _ ht => ⟨ht, .refl _⟩

theorem flushByte_faultsByRaise : (flushByte s).FaultsByRaise s.env := by
  rw [flushByte_eq]
  split
  · exact (writeAll_faultsByRaise hm _).andThen fun _ ht => ⟨ht, .refl _⟩
  · exact ⟨hm, .refl _⟩

theorem debugSeek_faultsByRaise : (debugSeek s).FaultsByRaise s.env := by
  rcases debugSeek_cases s with ⟨_, e⟩ | ⟨_, _, e⟩ | ⟨_, _, e⟩ <;> rw [e]
  · exact ⟨hm, .refl _⟩
  · exact ⟨hm, soughtBack_quiet s⟩
  · exact .inl (resetBlock_unfaulted (soughtBack_quiet s))

theorem refill_faultsByRaise : (refill s).FaultsByRaise s.env := by
  rcases refill_cases s with ⟨_, _, e⟩ | ⟨_, _, e⟩ | ⟨_, _, e⟩ | ⟨_, _, _, e⟩ | ⟨k, _, _, _, e⟩ <;> rw [e]
  · trivial
  · exact .inl (resetWhileHung_unfaulted (receive_clearIn_quiet _ s))
  · exact .inl (resetBlock_unfaulted (receive_clearIn_quiet _ s))
  · exact .inr ⟨_, _, rfl, receive_clearIn_quiet _ s⟩
  · have hread : (Run.ok (rewindIn (received k s))).FaultsByRaise s.env := ⟨hm, receive_clearIn_quiet _ s⟩
    exact hread.andThen fun _ ht => debugSeek_faultsByRaise ht

theorem bodyOf_faultsByRaise (i : Instr) : (bodyOf i s).FaultsByRaise s.env := by
  cases i with
  | init a b => exact initBody_faultsByRaise a b s
  | destroy => exact (drainOr_faultsByRaise hm _).andThen fun _ _ => ⟨by simp, .refl _⟩
  | writeByte v => exact writeByte_faultsByRaise hm v
  | writeWord v => exact (writeByte_faultsByRaise hm _).andThen fun _ ht => writeByte_faultsByRaise ht _
  | writeMarker code => exact (writeByte_faultsByRaise hm _).andThen fun _ ht => writeByte_faultsByRaise ht _
  | writeBits len val => exact writeBits_faultsByRaise hm _ val
  | writeAlignBits => exact (writeBits_faultsByRaise hm _ _).andThen fun _ ht => flushByte_faultsByRaise ht
  | refillIn => exact refill_faultsByRaise hm
  | drainOut => exact drainOr_faultsByRaise hm _

end Procedures

/-- A command that has a next state signalled no fault, or ended in fault entry. -/
theorem exec_unfaulted_or_raised {i : Instr} {s t : State} (h : exec i s = .next t) :
    Unfaulted s.env t ∨ Raised s.env t := by
  rw [exec_eq_accept] at h
  rcases accept_next h with ⟨hm, _, hrun⟩ | ⟨_, _, rfl⟩
  · have hbody := bodyOf_faultsByRaise (hm ▸ requiredMode_ne_faulted i) i
    rcases outcome_eq_next.1 hrun with ⟨u, hu, rfl⟩ | hu <;> rw [hu] at hbody
    · exact .inl ⟨hbody.1, hbody.2.trans ⟨complete_grows .done u, rfl⟩⟩
    · exact hbody
  · exact .inr ⟨_, s, rfl, .refl _⟩

/-- Settles O54: the two ends of a command differ in the mode. -/
theorem faultEntryRecordsKindAndHook : Obligations.FaultEntryRecordsKindAndHook := by
  refine ⟨fun _ _ => rfl, fun i s t h hf => ?_, fun i s t h hf => ?_⟩
  · rcases exec_unfaulted_or_raised h with ⟨hm, _⟩ | ⟨kind, u, ht, hquiet⟩
    · exact absurd hf hm
    · exact ⟨kind, u, ht, hquiet.2, hquiet.log⟩
  · rcases exec_unfaulted_or_raised h with ⟨_, hquiet⟩ | ⟨kind, u, rfl, _⟩
    · exact hquiet.2
    · exact absurd rfl hf

end Sys2Proof.Machine
end

section
/-! The table of 60_exceptions.md R146: a command raises its own pseudocode's kind or, rejected, `IllegalCommand`; for each
cell that allows a kind a state in which it is raised; a word of no row. -/

namespace Sys2Proof.Machine

/-! ## No other pair -/

theorem mayRaise_illegalCommand (i : Instr) : mayRaise i .illegalCommand = true := by cases i <;> rfl

theorem mayRaise_bodyFault (i : Instr) : mayRaise i (bodyFault i) = true := by cases i <;> rfl

theorem mayRaise_of_exec {i : Instr} {s t : State} {kind : FaultKind} (h : exec i s = .next t) (hnone : s.fault = none)
    (hkind : t.fault = some kind) : mayRaise i kind = true := by
  rcases accept_next (exec_eq_accept i s ▸ h) with ⟨hm, hw, _⟩ | ⟨_, _, rfl⟩
  · rcases exec_fault hw hm h with hf | hf | hf <;> rw [hkind] at hf
    · cases hf.trans hnone
    · cases hf
    · cases hf; exact mayRaise_bodyFault i
  · cases hkind; exact mayRaise_illegalCommand i

/-! ## Every pair that the table allows -/

/-- UNINIT, storage for 4 bytes on either side. -/
def smallBlock : State :=
  { State.reset with params := { State.reset.params with nInMax := 4#14, nOutMax := 4#14 } }

/-- READY, one byte buffered of two, a sink that accepts nothing and a source stream that delivers nothing. -/
def starvedBlock : State :=
  { smallBlock with
    mode := .ready
    out := { cap := 2#14, pos := 1#14, mem := [(0, 7#8)] }
    inp := { cap := 1#14, pos := 0#14, mem := [] }
    env := { State.reset.env with sinkAnswers := [.take 0], sourceAnswers := [.take 0] } }

theorem smallBlock_inv : smallBlock.Inv := by constructor <;> decide

theorem starvedBlock_inv : starvedBlock.Inv := by constructor <;> decide

/-- The kind that a command leaves in `FAULT`. -/
def faultAfter : Host.Outcome State Fault Refusal → Option FaultKind
  | .next t => t.fault
  | .fault _ => none
  | .refused _ => none

theorem exists_next_of_faultAfter {o : Host.Outcome State Fault Refusal} {kind : FaultKind}
    (h : faultAfter o = some kind) : ∃ t, o = .next t ∧ t.fault = some kind := by
  cases o with
  | next t => exact ⟨t, rfl, h⟩
  | fault _ => cases h
  | refused _ => cases h

/-- The state in which a case of the table is shown: `IllegalCommand` in the mode that the command does not require, the
command's own kind in the one it does. -/
def raisingState (i : Instr) (kind : FaultKind) : State :=
  if requiredMode i = .uninit ↔ kind = .illegalCommand then starvedBlock else smallBlock

theorem raisingState_inv (i : Instr) (kind : FaultKind) : (raisingState i kind).Inv ∧ (raisingState i kind).fault = none := by
  unfold raisingState
  split
  · exact ⟨starvedBlock_inv, rfl⟩
  · exact ⟨smallBlock_inv, rfl⟩

theorem exec_raisingState : ∀ c ∈ raiseCases, faultAfter (exec c.1 (raisingState c.1 c.2)) = some c.2 := by decide

/-! ## A word of no row -/

theorem illegalWord_of_no_row {w : CmdWord} (h : ∀ r ∈ opcodeMap, ¬r.selects w) : illegalWord w := by
  refine decode_error_iff_illegalWord.1 (exists_error_iff.2 fun ⟨i, hi⟩ => ?_)
  obtain ⟨r, hr, hsel, _⟩ := decode_ok_iff_row.1 hi
  exact h r hr hsel

/-- Settles O55: an accepted command raises its own kind only and a rejected one `IllegalCommand`; the cells run from
`raisingState`; a word of no row is one of R79's illegal words. -/
theorem faultKindsByCommand : Obligations.FaultKindsByCommand := by
  refine ⟨fun i s t kind => mayRaise_of_exec, fun c hc => ?_, fun w rest s hrow hm hport => ?_⟩
  · have hcell : ∀ c ∈ raiseCases, mayRaise c.1 c.2 = true ∧ c.1.wellFormed = true := by decide
    obtain ⟨hmay, hwf⟩ := hcell c hc
    obtain ⟨hinv, hnone⟩ := raisingState_inv c.1 c.2
    obtain ⟨t, ht, hkind⟩ := exists_next_of_faultAfter (exec_raisingState c hc)
    exact ⟨hmay, hwf, _, t, hinv, hnone, ht, hkind⟩
  · exact ⟨_, step_illegalWord (illegalWord_of_no_row hrow) hm hport, rfl⟩

end Sys2Proof.Machine
end

section
/-! Decode and encode are inverse (30_encoding.md R73 to R79): the word of a well-formed command selects the command's own row and
is read as the command; a decoded word is put together again from the fields that its format reads or finds zero. -/

namespace Sys2Proof

theorem fieldDataLow_formatD (op : BitVec 4) (l : BitVec 5) (v : Byte) : fieldDataLow (formatD op l (v.setWidth 16)) = v := by
  apply BitVec.eq_of_toNat_eq
  have := l.isLt; have := v.isLt
  rw [fieldDataLow_toNat, formatD_toNat, BitVec.toNat_setWidth]; omega

theorem rowOf_mem_opcodeMap (i : Instr) : rowOf i ∈ opcodeMap := by
  cases i <;> simp [opcodeMap, rowOf]

/-- A command's row reads the command from its word (R75). -/
theorem rowOf_read_encode (i : Instr) : (rowOf i).read (encode i) = i := by
  cases i with
  | init a b => exact congrArg₂ Instr.init (fieldInCap_formatC _ a b) (fieldOutCap_formatC _ a b)
  | writeByte v => exact congrArg Instr.writeByte (fieldDataLow_formatD _ _ v)
  | writeWord v => exact congrArg Instr.writeWord (fieldData_formatD _ _ v)
  | writeMarker code => exact congrArg Instr.writeMarker (fieldDataLow_formatD _ _ code)
  | writeBits len val => exact congrArg₂ Instr.writeBits (fieldLen_formatD _ len val) (fieldData_formatD _ len val)
  | destroy | writeAlignBits | refillIn | drainOut => rfl

/-- The word of a well-formed command selects the command's own row (R76). -/
theorem rowOf_selects_encode {i : Instr} (h : i.wellFormed = true) : (rowOf i).selects (encode i) := by
  cases i with
  | init a b => exact Laws.SelectsOwnRow.init a b h
  | destroy => exact Laws.SelectsOwnRow.destroy h
  | writeByte v => exact Laws.SelectsOwnRow.writeByte v h
  | writeWord v => exact Laws.SelectsOwnRow.writeWord v h
  | writeMarker code => exact Laws.SelectsOwnRow.writeMarker code h
  | writeBits len val => exact Laws.SelectsOwnRow.writeBits len val h
  | writeAlignBits => exact Laws.SelectsOwnRow.writeAlignBits h
  | refillIn => exact Laws.SelectsOwnRow.refillIn h
  | drainOut => exact Laws.SelectsOwnRow.drainOut h

theorem decode_encode {i : Instr} (h : i.wellFormed = true) : decode (encode i) = .ok i :=
  decode_ok_iff_row.2 ⟨rowOf i, rowOf_mem_opcodeMap i, rowOf_selects_encode h, rowOf_read_encode i⟩

/-! ## A word is put together again from its fields -/

variable {w : CmdWord} {op : BitVec 4}

theorem formatC_of_fields (hop : fieldOp w = op) : formatC op (fieldInCap w) (fieldOutCap w) = w := by
  apply BitVec.eq_of_toNat_eq
  rw [formatC_toNat, ← hop, fieldOp_toNat, fieldInCap_toNat, fieldOutCap_toNat]; omega

theorem formatD_of_fields (hop : fieldOp w = op) (hz : fieldZ w = 0#7) :
    formatD op (fieldLen w) (fieldData w) = w := by
  rw [fieldZ_eq_zero_iff] at hz
  apply BitVec.eq_of_toNat_eq
  rw [formatD_toNat, ← hop, fieldOp_toNat, fieldLen_toNat, fieldData_toNat]; omega

/-- With its high byte zero the operand field is its low byte (R75). -/
theorem fieldDataLow_setWidth (hhigh : fieldDataHigh w = 0#8) : (fieldDataLow w).setWidth 16 = fieldData w := by
  rw [fieldDataHigh_eq_zero_iff] at hhigh
  apply BitVec.eq_of_toNat_eq
  rw [BitVec.toNat_setWidth, fieldDataLow_toNat, fieldData_toNat]; omega

theorem encode_of_decode {i : Instr} (h : decode w = .ok i) : encode i = w := by
  have hop {n : Nat} (hn : (fieldOp w).toNat = n) : fieldOp w = BitVec.ofNat 4 n := by
    rw [← hn, BitVec.ofNat_toNat]; simp
  rw [decode_ok] at h
  simp only [decodeInit_ok, decodePlain_ok, decodeByte_ok, decodeWord_ok, decodeBits_ok] at h
  rcases h with ⟨ho, _, rfl⟩ | ⟨ho, hz, hl, hd, rfl⟩ | ⟨ho, hz, hl, hd, rfl⟩ | ⟨ho, hz, hl, rfl⟩ | ⟨ho, hz, hl, hd, rfl⟩ |
    ⟨ho, hz, _, _, rfl⟩ | ⟨ho, hz, hl, hd, rfl⟩ | ⟨ho, hz, hl, hd, rfl⟩ | ⟨ho, hz, hl, hd, rfl⟩
  case inl => exact formatC_of_fields (hop ho)
  all_goals
    refine Eq.trans ?_ (formatD_of_fields (hop ho) hz)
    simp only [encode, *, fieldDataLow_setWidth]

end Sys2Proof

namespace Sys2Proof.Machine

/-- Settles O1: a decoded word is well formed and is put together again; the word of a well-formed command is read as it. -/
theorem decodeAndEncodeAgree : Obligations.DecodeAndEncodeAgree := fun _ _ =>
  ⟨fun h => ⟨decode_wellFormed h, encode_of_decode h⟩, fun ⟨hw, he⟩ => he ▸ decode_encode hw⟩

end Sys2Proof.Machine
end

section
/-! Every writer in one form: the bytes that it emits, written one after the other, and then `ACC` (42_primitive_writers.md R111
to R113, 43_bit_writer.md R121, R126). What holds of a list of byte stores thus holds of every writer. -/

namespace Sys2Proof.Machine

/-- The commands that store bytes. -/
def isWriter : Instr → Bool
  | .init _ _ => false
  | .destroy => false
  | .writeByte _ => true
  | .writeWord _ => true
  | .writeMarker _ => true
  | .writeBits _ _ => true
  | .writeAlignBits => true
  | .refillIn => false
  | .drainOut => false

/-- `ACC` after a command that stores or drains and completes. -/
def accWhenDone (i : Instr) (s : State) : Acc :=
  match i with
  | .writeBits l v => accAfter l.toNat v s.acc
  | .writeAlignBits => { len := 0, val := 0 }
  | _ => s.acc

/-- `ACC` after a writer that a fault ended: the padding of WRITE_ALIGN_BITS that only completed a byte is already there
(60_exceptions.md R150). -/
def accWhenCut (i : Instr) (s : State) : Acc :=
  if i = .writeAlignBits ∧ s.acc.len.toNat < 8 then
    { len := 8, val := s.acc.val ||| ones (8 - s.acc.len.toNat) <<< 8 } else s.acc

theorem accWhenCut_of_ne_align {i : Instr} (h : i ≠ .writeAlignBits) (s : State) : accWhenCut i s = s.acc :=
  if_neg fun hc => h hc.1

/-! ## A run with its accumulator written -/

/-- The accumulator is written at the end of a run: `done` where it ran to its end, `cut` where a fault ended it. -/
def Run.withAccs (done cut : Acc) : Run → Run
  | .ok s => .ok (setAcc done s)
  | .ended s => .ended (if s.mode = .uninit then s else setAcc cut s)
  | .stop f => .stop f

theorem withAcc_eq_withAccs (a : Acc) (r : Run) : r.withAcc a = r.withAccs a a := by cases r <;> rfl

/-- Byte stores leave `ACC` as it is. -/
theorem writeAll_withAcc_self (bs : List Byte) (s : State) : (writeAll bs s).withAcc s.acc = writeAll bs s :=
  (writeAll_setAcc bs s.acc s).symm

/-- `ACC` written after a run that ran to its end. -/
theorem withAcc_andThen_setAcc (a cut : Acc) (r : Run) :
    ((r.withAcc cut).andThen fun u => .ok (setAcc a u)) = r.withAccs a cut := by
  cases r <;> rfl

/-- Byte stores, then a write of `ACC`. -/
theorem writeAll_andThen_setAcc (bs : List Byte) (a : Acc) (s : State) :
    ((writeAll bs s).andThen fun u => .ok (setAcc a u)) = (writeAll bs s).withAccs a s.acc := by
  rw [← withAcc_andThen_setAcc, writeAll_withAcc_self]

/-- Only the write of `ACC` differs, so what a run says of the rest it says with any accumulator. -/
theorem Run.Sat.withAccs {P Q P' Q' : State → Prop} {F : Fault → Prop} {r : Run} {done cut : Acc} (h : r.Sat P Q F)
    (hp : ∀ t, P t → P' (setAcc done t)) (hq : ∀ t, Q t → t.mode = .uninit → Q' t)
    (hq' : ∀ t, Q t → t.mode ≠ .uninit → Q' (setAcc cut t)) : (r.withAccs done cut).Sat P' Q' F := by
  cases r with
  | ok t => exact hp t h
  | ended t =>
    by_cases hm : t.mode = .uninit
    · simpa [Run.withAccs, hm] using hq t h hm
    · simpa [Run.withAccs, hm] using hq' t h hm
  | stop f => exact h

/-! ## WRITE_ALIGN_BITS -/

section Align

variable {p : AlignOnBoundary} {a : Acc}

/-- With fewer than 8 bits pending the padding does not fill the window. -/
theorem padLength_add_len_lt (hlen : a.len.toNat < 8) : padLength p a + a.len.toNat < 16 := by
  unfold padLength alignRemainder; split <;> omega

/-- `ACC` after the padding: with fewer than 8 bits pending the byte is completed, and step 3 finds it there; from 8 on either
nothing is added or the window is filled; on the boundary without padding nothing is there to emit. -/
theorem align_padding_cases (ha : a.len.toNat ≤ 15) :
    (a.len.toNat < 8 ∧ accAfter (padLength p a) (ones (padLength p a)) a =
      { len := 8, val := a.val ||| ones (8 - a.len.toNat) <<< 8 }) ∨
    (a.len.toNat < 8 ∧ (accAfter (padLength p a) (ones (padLength p a)) a).len = 0#5) ∨
    (a.len.toNat = 8 ∧ padLength p a = 0 ∧ accAfter (padLength p a) (ones (padLength p a)) a = a) ∨
    (8 ≤ a.len.toNat ∧ (accAfter (padLength p a) (ones (padLength p a)) a).len = 0#5) := by
  by_cases hnone : p = .noPad ∧ a.len.toNat % 8 = 0
  · have hn : padLength p a = 0 := if_pos hnone
    have hsame : accAfter (padLength p a) (ones (padLength p a)) a = a := by rw [hn]; exact accAfter_zero ha
    by_cases h0 : a.len.toNat = 0
    · exact .inr (.inl ⟨by omega, by rw [hsame]; exact BitVec.eq_of_toNat_eq h0⟩)
    · exact .inr (.inr (.inl ⟨by omega, hn, hsame⟩))
  · have hn : padLength p a = 8 - a.len.toNat % 8 := if_neg hnone
    by_cases hlen : a.len.toNat < 8
    · refine .inl ⟨hlen, ?_⟩
      rw [accAfter_part (by omega), hn, Nat.mod_eq_of_lt hlen, show 8 - a.len.toNat + a.len.toNat = 8 by omega]
      rfl
    · refine .inr (.inr (.inr ⟨by omega, ?_⟩))
      rw [accAfter_full (by omega), show padLength p a + a.len.toNat - 16 = 0 by omega]

end Align

/-- Step 3 from the accumulator that the padding left: the byte pending there, stuffed, then `ACC` empty (R126). -/
theorem flushByte_setAcc {a : Acc} (ha : a.len = 8#5 ∨ a = ⟨0#5, 0#16⟩) (u : State) :
    flushByte (setAcc a u) =
      (writeAll (stuff (if a.len = 8#5 then [hi8 a.val] else [])) u).withAccs ⟨0#5, 0#16⟩ a := by
  rw [flushByte_eq, setAcc_acc]
  by_cases h8 : a.len = 8#5
  · rw [if_pos h8, if_pos h8, writeAll_setAcc, withAcc_andThen_setAcc]
    simp [stuff]
  · rw [if_neg h8, if_neg h8, ha.resolve_left h8]
    rfl

/-- WRITE_ALIGN_BITS is the bytes of R126's table, stuffed: all of them come either before step 3 or in it. -/
theorem alignBody_eq_withAccs {s : State} (ha : AccOk s.acc) :
    alignBody s = (writeAll (stuff (alignData s.params.alignOnBoundary s.acc)) s).withAccs ⟨0#5, 0#16⟩
      (accWhenCut .writeAlignBits s) := by
  obtain ⟨hdata, hleft⟩ := alignData_of_pseudocode s.params.alignOnBoundary s.acc ha _ rfl
  have hpad := align_padding_cases (p := s.params.alignOnBoundary) ha.1
  have hfirst : padLength s.params.alignOnBoundary s.acc + s.acc.len.toNat < 16 →
      writeBitsData (padLength s.params.alignOnBoundary s.acc) (ones (padLength s.params.alignOnBoundary s.acc)) s.acc = [] :=
    fun h => if_neg (by omega)
  rw [← hdata]
  unfold alignBody
  rw [writeBits_eq]
  generalize hn : padLength s.params.alignOnBoundary s.acc = n at *
  simp only [andThen_assoc, andThen_ok, flushByte_setAcc hleft]
  rcases hpad with ⟨hlen, hacc⟩ | ⟨hlen, hacc⟩ | ⟨hlen, hzero, hacc⟩ | ⟨hlen, hacc⟩
  · have hlt : n + s.acc.len.toNat < 16 := hn ▸ padLength_add_len_lt hlen
    simp [hfirst hlt, hacc, accWhenCut, hlen, stuff, writeAll]
  · have hlt : n + s.acc.len.toNat < 16 := hn ▸ padLength_add_len_lt hlen
    simp [hfirst hlt, hacc, stuff, writeAll, Run.withAccs]
  · simp [hfirst (by omega), hacc, accWhenCut, hlen, stuff, writeAll]
  · have hcut : accWhenCut .writeAlignBits s = s.acc := if_neg fun h => by omega
    rw [if_neg (by simp [hacc]), List.append_nil, hcut, ← writeAll_andThen_setAcc]
    rfl

/-! ## Every writer -/

/-- A writer is the bytes that it emits, written one after the other, and then `ACC`. -/
theorem bodyOf_writer {i : Instr} {s : State} (hi : isWriter i = true) (ha : i = .writeAlignBits → AccOk s.acc) :
    bodyOf i s = (writeAll (emitted s.params.alignOnBoundary s.acc i) s).withAccs (accWhenDone i s) (accWhenCut i s) := by
  cases i with
  | writeByte v =>
    rw [accWhenCut_of_ne_align (by simp)]
    exact (writeAll_single v s).symm.trans ((writeAll_withAcc_self [v] s).symm.trans (withAcc_eq_withAccs _ _))
  | writeWord v =>
    rw [accWhenCut_of_ne_align (by simp)]
    exact (writeTwo_eq _ _ s).trans ((writeAll_withAcc_self _ s).symm.trans (withAcc_eq_withAccs _ _))
  | writeMarker code =>
    rw [accWhenCut_of_ne_align (by simp)]
    exact (writeTwo_eq _ _ s).trans ((writeAll_withAcc_self _ s).symm.trans (withAcc_eq_withAccs _ _))
  | writeBits len val =>
    rw [accWhenCut_of_ne_align (by simp)]
    exact (writeBits_eq _ _ s).trans (writeAll_andThen_setAcc _ _ s)
  | writeAlignBits => exact alignBody_eq_withAccs (ha rfl)
  | init | destroy | refillIn | drainOut => cases hi

theorem requiredMode_writer {i : Instr} (hi : isWriter i = true) : requiredMode i = .ready :=
  requiredMode_not_init fun _ _ h => by rw [h] at hi; cases hi

/-- A legal writer in READY runs its bytes and then writes `ACC`. -/
theorem exec_writer {i : Instr} {s : State} (hi : isWriter i = true) (ha : i = .writeAlignBits → AccOk s.acc)
    (hw : i.wellFormed = true) (hm : s.mode = .ready) :
    exec i s = ((writeAll (emitted s.params.alignOnBoundary s.acc i) s).withAccs (accWhenDone i s) (accWhenCut i s)).outcome := by
  rw [exec_eq_accept, accept_runs _ hw (hm.trans (requiredMode_writer hi).symm), bodyOf_writer hi ha]

/-- R126's table has at most two bytes in a row. -/
theorem alignData_length_le (p : AlignOnBoundary) (a : Acc) : (alignData p a).length ≤ 2 := by
  have hpad : (boundaryPad p).length ≤ 1 := by cases p <;> simp [boundaryPad]
  unfold alignData
  split
  · omega
  · split
    · simp
    · split
      · simpa using hpad
      · simp

/-- No writer emits more than four bytes (R175). -/
theorem emitted_length_le (p : AlignOnBoundary) (a : Acc) (i : Instr) : (emitted p a i).length ≤ 4 := by
  cases i with
  | writeBits len val =>
    have hdata := writeBitsData_length len.toNat val a
    have hstuff := stuff_length_le (writeBitsData len.toNat val a)
    simp only [emitted]; omega
  | writeAlignBits =>
    have hdata := alignData_length_le p a
    have hstuff := stuff_length_le (alignData p a)
    simp only [emitted]; omega
  | _ => simp [emitted]

end Sys2Proof.Machine
end

section
/-! The arithmetic of the bit writer (43_bit_writer.md R124, R129): bit `j` of the pending bits and a code together, in the order
of the stream, and with it `ACC`, the emitted word and the padding. -/

namespace Sys2Proof.Machine

/-! ## The accumulator's laws -/

section Laws

variable {l : Nat} {v : Word} {a : Acc}

/-- The bits of `ACC` at and below the pending ones are zero (R25). -/
theorem AccOk.getLsbD_eq_false (ha : AccOk a) {i : Nat} (hi : i + a.len.toNat < 16) : a.val.getLsbD i = false :=
  (shl_eq_zero_iff _ _).1 ha.2 i hi

theorem accAfter_full_len (h : 16 ≤ l + a.len.toNat) (hmax : l + a.len.toNat < 32) :
    (accAfter l v a).len.toNat = l + a.len.toNat - 16 := by
  rw [accAfter_full h, BitVec.toNat_ofNat]; omega

theorem accAfter_part_len (h : ¬16 ≤ l + a.len.toNat) : (accAfter l v a).len.toNat = l + a.len.toNat := by
  rw [accAfter_part h, BitVec.toNat_ofNat]; omega

/-- A legal code leaves an accumulator that meets R25 and R26. -/
theorem accAfter_ok (ha : AccOk a) (hl : l ≤ 16) : AccOk (accAfter l v a) := by
  have hlen := ha.1
  by_cases h : 16 ≤ l + a.len.toNat
  · have hn := accAfter_full_len (v := v) h (by omega)
    refine ⟨by omega, (shl_eq_zero_iff _ _).2 fun i hi => ?_⟩
    rw [hn] at hi
    rw [accAfter_full h]
    simp only [shl16, BitVec.getLsbD_shiftLeft, show i < 16 - (l + a.len.toNat - 16) by omega, decide_true, Bool.not_true,
      Bool.and_false, Bool.false_and]
  · have hn := accAfter_part_len (v := v) h
    refine ⟨by omega, (shl_eq_zero_iff _ _).2 fun i hi => ?_⟩
    rw [hn] at hi
    rw [accAfter_part h]
    simp only [shl16, BitVec.getLsbD_or, BitVec.getLsbD_shiftLeft, show i < 16 - (l + a.len.toNat) by omega, decide_true,
      Bool.not_true, Bool.and_false, Bool.false_and, Bool.or_false]
    exact ha.getLsbD_eq_false (by omega)

/-- The pending bits and the top of the code have no common 1-bit. -/
theorem and_shr_eq_zero (ha : AccOk a) (hv : v.toNat < 2 ^ l) (h : 16 ≤ l + a.len.toNat) :
    a.val &&& shr v (l + a.len.toNat - 16) = 0#16 := by
  refine and_eq_zero fun i _ => ?_
  by_cases hlow : i + a.len.toNat < 16
  · exact .inl (ha.getLsbD_eq_false hlow)
  · right
    rw [shr, BitVec.getLsbD_ushiftRight]
    exact getLsbD_of_fits hv _ (by omega)

/-- The pending bits and the code moved under them have no common 1-bit. -/
theorem and_shl_eq_zero (ha : AccOk a) (hv : v.toNat < 2 ^ l) (h : l + a.len.toNat < 16) :
    a.val &&& shl16 v (16 - (l + a.len.toNat)) = 0#16 := by
  refine and_eq_zero fun i _ => ?_
  by_cases hlow : i + a.len.toNat < 16
  · exact .inl (ha.getLsbD_eq_false hlow)
  · right
    rw [shl16, BitVec.getLsbD_shiftLeft, getLsbD_of_fits hv (i - (16 - (l + a.len.toNat))) (by omega), Bool.and_false]

end Laws

/-- Settles O41: what is pending after a legal code, and that neither merge loses a bit. -/
theorem accumulatorLaws : Obligations.AccumulatorLaws := by
  intro l v a ha hl hv
  have hlen := ha.1
  refine ⟨accAfter_ok ha hl, ?_, and_shr_eq_zero ha hv, and_shl_eq_zero ha hv⟩
  by_cases h : 16 ≤ l + a.len.toNat
  · rw [accAfter_full_len h (by omega)]; omega
  · rw [accAfter_part_len h]; omega

/-! ## Bits in the order of the stream -/

/-- Bit `j` of the pending bits followed by the code: the pending ones stand left-justified in `ACC`, of a code of which `n`
bits end the window the bit `n - 1 - j` follows. -/
def mergedBit (v : Word) (a : Acc) (n j : Nat) : Bool := a.val.getLsbD (15 - j) || v.getLsbD (n - 1 - j)

/-- The pending bits and the code are one run of merged bits. -/
theorem pendingBits_append_codeBits {l : Nat} {v : Word} {a : Acc} (ha : AccOk a) (hv : v.toNat < 2 ^ l) :
    pendingBits a ++ codeBits l v = (List.range (a.len.toNat + l)).map (mergedBit v a (a.len.toNat + l)) := by
  rw [List.range_add, List.map_append, List.map_map]
  congr 1
  · refine List.map_congr_left fun j hj => ?_
    have hj := List.mem_range.1 hj
    rw [mergedBit, getLsbD_of_fits hv _ (by omega), Bool.or_false]
  · refine List.map_congr_left fun j hj => ?_
    have hj := List.mem_range.1 hj
    have hlen := ha.1
    rw [Function.comp_apply, mergedBit, ha.getLsbD_eq_false (by omega), Bool.false_or]
    congr 1; omega

/-- The bits of a 16-bit word stored high byte first (20_memory.md R53, R54). -/
theorem dataBits_word (w : Word) : dataBits [hi8 w, lo8 w] = (List.range 16).map fun j => w.getLsbD (15 - j) := by
  have hhi : byteBits (hi8 w) = (List.range 8).map fun j => w.getLsbD (15 - j) := List.map_congr_left fun j hj => by
    have hj := List.mem_range.1 hj
    rw [hi8, BitVec.getLsbD_extractLsb', show 8 + (7 - j) = 15 - j by omega]
    simp; omega
  have hlo : byteBits (lo8 w) = (List.range 8).map fun j => w.getLsbD (15 - (8 + j)) := List.map_congr_left fun j hj => by
    have hj := List.mem_range.1 hj
    rw [lo8, BitVec.getLsbD_extractLsb', show 0 + (7 - j) = 15 - (8 + j) by omega]
    simp; omega
  calc dataBits [hi8 w, lo8 w] = byteBits (hi8 w) ++ byteBits (lo8 w) := by simp [dataBits]
    _ = (List.range (8 + 8)).map fun j => w.getLsbD (15 - j) := by
      rw [hhi, hlo, List.range_add, List.map_append, List.map_map]; rfl

/-- The window is filled: the emitted word has the first 16 of the merged bits, `ACC` the rest. -/
theorem dataBits_full {l : Nat} {v : Word} {a : Acc} (h : 16 ≤ l + a.len.toNat) (hl : l ≤ 16) (ha : AccOk a) :
    dataBits [hi8 (letterOf l v a), lo8 (letterOf l v a)] ++ pendingBits (accAfter l v a) =
      (List.range (a.len.toNat + l)).map (mergedBit v a (a.len.toNat + l)) := by
  have hlen := ha.1
  rw [show a.len.toNat + l = 16 + (l + a.len.toNat - 16) by omega, List.range_add, List.map_append, List.map_map,
    dataBits_word, pendingBits, accAfter_full_len h (by omega), accAfter_full h]
  congr 1
  · refine List.map_congr_left fun j hj => ?_
    have hj := List.mem_range.1 hj
    rw [mergedBit, letterOf, BitVec.getLsbD_or, shr, BitVec.getLsbD_ushiftRight, totalBits]
    congr 2; omega
  · refine List.map_congr_left fun j hj => ?_
    have hj := List.mem_range.1 hj
    rw [Function.comp_apply, mergedBit, ha.getLsbD_eq_false (by omega), Bool.false_or, shl16, BitVec.getLsbD_shiftLeft]
    simp only [show 15 - j < 16 by omega, show ¬ 15 - j < 16 - (l + a.len.toNat - 16) by omega, decide_true, decide_false,
      Bool.true_and, Bool.not_false]
    congr 1; omega

/-- The window is not filled: `ACC` has all of the merged bits. -/
theorem pendingBits_part {l : Nat} {v : Word} {a : Acc} (h : ¬16 ≤ l + a.len.toNat) :
    pendingBits (accAfter l v a) = (List.range (a.len.toNat + l)).map (mergedBit v a (a.len.toNat + l)) := by
  rw [pendingBits, accAfter_part_len h, accAfter_part h, Nat.add_comm l]
  refine List.map_congr_left fun j hj => ?_
  have hj := List.mem_range.1 hj
  rw [mergedBit, BitVec.getLsbD_or, shl16, BitVec.getLsbD_shiftLeft]
  simp only [show 15 - j < 16 by omega, show ¬ 15 - j < 16 - (a.len.toNat + l) by omega, decide_true, decide_false,
    Bool.true_and, Bool.not_false]
  congr 2; omega

/-- What WriteBits emits, followed by what is pending then, are the bits pending before and the code's (R129). -/
theorem dataBits_append_pendingBits {l : Nat} {v : Word} {a : Acc} (ha : AccOk a) (hl : l ≤ 16) (hv : v.toNat < 2 ^ l) :
    dataBits (writeBitsData l v a) ++ pendingBits (accAfter l v a) = pendingBits a ++ codeBits l v := by
  rw [pendingBits_append_codeBits ha hv]
  by_cases h : 16 ≤ l + a.len.toNat
  · rw [writeBitsData, if_pos h, dataBits_full h hl ha]
  · rw [writeBitsData, if_neg h]
    exact pendingBits_part h

theorem pendingBits_length (a : Acc) : (pendingBits a).length = a.len.toNat := by simp [pendingBits]

theorem dataBits_length (data : List Byte) : (dataBits data).length = 8 * data.length := by
  simp [dataBits, byteBits, List.length_flatMap, List.map_const', Nat.mul_comm]

theorem dataBits_append (data data' : List Byte) : dataBits (data ++ data') = dataBits data ++ dataBits data' :=
  List.flatMap_append

/-! ## Alignment -/

/-- A padding code is 1-bits only (R12). -/
theorem codeBits_ones {n : Nat} (hn : n ≤ 16) : codeBits n (ones n) = List.replicate n true := by
  refine List.eq_replicate_iff.2 ⟨by simp [codeBits], fun b hb => ?_⟩
  obtain ⟨j, hj, rfl⟩ := List.mem_map.1 hb
  have hj := List.mem_range.1 hj
  rw [ones, BitVec.getLsbD_ofNat, Nat.testBit_two_pow_sub_one]
  simp; omega

/-- A pending byte is the high byte of `ACC`. -/
theorem pendingBits_byte {a : Acc} (ha : a.len = 8#5) : pendingBits a = dataBits [hi8 a.val] := by
  rw [pendingBits, ha]
  simp only [dataBits, byteBits, List.flatMap_cons, List.flatMap_nil, List.append_nil]
  refine List.map_congr_left fun j hj => ?_
  have hj : j < 8 := List.mem_range.1 hj
  rw [hi8, BitVec.getLsbD_extractLsb', show 8 + (7 - j) = 15 - j by omega]
  simp; omega

/-- The bytes of R126's table are the pending bits, then 1-bits (R131). -/
theorem dataBits_alignData (p : AlignOnBoundary) {a : Acc} (ha : AccOk a) :
    dataBits (alignData p a) = pendingBits a ++ List.replicate (padLength p a) true := by
  have hn : padLength p a ≤ 16 := Nat.le_trans (padLength_le p a) (by decide)
  obtain ⟨hdata, hleft⟩ := alignData_of_pseudocode p a ha _ rfl
  rw [← codeBits_ones hn, ← dataBits_append_pendingBits ha hn (ones_lt hn), ← hdata, dataBits_append]
  congr 1
  split
  · next h8 => exact (pendingBits_byte h8).symm
  · next h8 => rw [hleft.resolve_left h8]; rfl

end Sys2Proof.Machine
end

section
/-! The invariant (10_state.md R25 to R30, R37): each command's pseudocode keeps it and stops only where the environment is silent;
with the decode order and the arrivals, every step does. -/

namespace Sys2Proof.Machine

variable {s : State}

/-! ## `ACC` -/

theorem setAcc_inv (hi : s.Inv) {a : Acc} (ha : AccOk a) : (setAcc a s).Inv := { hi with acc := ha }

theorem accOk_empty : AccOk ⟨0#5, 0#16⟩ := by decide

theorem accWhenDone_ok {i : Instr} (hw : i.wellFormed = true) (ha : AccOk s.acc) : AccOk (accWhenDone i s) := by
  cases i with
  | writeBits len val =>
    rw [Instr.wellFormed, Bool.and_eq_true, lenLegal_iff] at hw
    exact accAfter_ok ha hw.1
  | writeAlignBits => exact accOk_empty
  | _ => exact ha

/-- Below the padded byte `ACC` stays zero (R25). -/
theorem accWhenCut_ok (i : Instr) (ha : AccOk s.acc) : AccOk (accWhenCut i s) := by
  unfold accWhenCut
  split
  · next h =>
    refine ⟨show (8 : Nat) ≤ 15 by decide, (shl_eq_zero_iff _ _).2 fun j hj => ?_⟩
    have hj : j < 8 := by simp at hj; omega
    rw [BitVec.getLsbD_or, BitVec.getLsbD_shiftLeft, ha.getLsbD_eq_false (by omega)]
    simp [hj]
  · exact ha

/-! ## The bodies of INIT, DESTROY and REFILL_IN -/

/-- Outside FAULTED `FAULT` is empty (R22). -/
theorem State.Inv.fault_eq_none (hi : s.Inv) (hm : s.mode ≠ .faulted) : s.fault = none := by
  by_contra h
  exact hm (hi.fault.2 h)

theorem create_inv (hi : s.Inv) (hm : s.mode = .uninit) {a b : Cursor} (hlegal : capsLegal a b = true)
    (ha : a ≤ s.params.nInMax) (hb : b ≤ s.params.nOutMax) : (create a b s).Inv := by
  obtain ⟨ha0, hb0⟩ := (capsLegal_iff a b).1 hlegal
  exact {
    params := hi.params
    acc := accOk_empty
    out := ⟨.nil, fun c hc => by simp at hc⟩
    inp := ⟨.nil, fun c hc => by simp at hc⟩
    outPos := Nat.zero_le _
    inPos := rfl
    written := fun j hj => by simp at hj
    caps := ⟨hb, ha⟩
    ready := fun _ => ⟨Nat.pos_of_ne_zero fun h => hb0 (BitVec.eq_of_toNat_eq h), ha0⟩
    uninit := fun h => by cases h
    fault := by simp [hi.fault_eq_none (by simp [hm])]
    sink := hi.sink
    hooks := hi.hooks }

theorem release_inv (hi : s.Inv) (hm : s.mode = .ready) (hempty : s.out.pos = 0#14) : State.Inv { s with mode := .uninit } :=
  { hi with
    ready := fun h => by cases h
    uninit := fun _ => hempty
    fault := by simp [hi.fault_eq_none (by simp [hm])] }

/-- A read of at most `IN.cap` bytes fills offsets below the capacity only. -/
theorem receive_inv (hi : s.Inv) {data : List Byte} (hlen : data.length ≤ s.inp.cap.toNat) :
    (receive data (clearIn s.popSource)).Inv :=
  { hi with
    inp := ⟨store_wf _ _ _ (zeroFill_wf _ _ hi.inp.1), fun c hc => by
      rcases mem_store _ _ _ c hc with h | h
      · exact (mem_zeroFill _ _ c h).elim (hi.inp.2 c) id
      · exact Nat.lt_of_lt_of_le h.2 (by simpa using hlen)⟩
    sink := by simp [hi.sink, acceptedOf]
    hooks := by simp [hi.hooks, hooksOf] }

theorem received_inv (hi : s.Inv) (k : Nat) : (received k s).Inv :=
  receive_inv hi (by rw [sourceData_length]; omega)

theorem rewindIn_inv (hi : s.Inv) : (rewindIn s).Inv := { hi with inPos := rfl }

theorem soughtBack_inv (hi : s.Inv) : (soughtBack s).Inv :=
  { hi with
    sink := by simp [soughtBack, hi.sink, acceptedOf]
    hooks := by simp [soughtBack, hi.hooks, hooksOf] }

theorem State.Inv.resetBlock (hi : s.Inv) : (resetBlock s).Inv := resetBlock_inv hi.params hi.sink hi.hooks

theorem State.Inv.resetWhileHung (hi : s.Inv) : (resetWhileHung s).Inv := resetBlock_inv hi.params hi.sink hi.hooks

theorem debugSeek_sat {F : Fault → Prop} (hi : s.Inv) : (debugSeek s).Sat State.Inv State.Inv F := by
  rcases debugSeek_cases s with ⟨_, e⟩ | ⟨_, _, e⟩ | ⟨_, _, e⟩ <;> rw [e]
  · exact hi
  · exact soughtBack_inv hi
  · exact (soughtBack_inv hi).resetBlock

theorem refill_sat (hi : s.Inv) : (refill s).Sat State.Inv State.Inv (Silent s) := by
  rcases refill_cases s with ⟨ha, hr, e⟩ | ⟨_, _, e⟩ | ⟨k, _, e⟩ | ⟨k, _, _, e⟩ | ⟨k, _, _, _, e⟩ <;> rw [e]
  · exact ⟨rfl, hr, .inr (never_mem_of_sourceAnswer ha)⟩
  · exact (receive_inv hi (Nat.zero_le _)).resetWhileHung
  · exact (received_inv hi k).resetBlock
  · exact raise_inv _ (received_inv hi k)
  · exact debugSeek_sat (rewindIn_inv (received_inv hi k))

/-! ## Commands -/

/-- A legal command in its mode keeps the invariant, and stops only where the environment never answers. -/
theorem bodyOf_sat {i : Instr} (hi : s.Inv) (hm : s.mode = requiredMode i) (hw : i.wellFormed = true) :
    (bodyOf i s).Sat State.Inv State.Inv (Silent s) := by
  have hwriter (h : isWriter i = true) : (bodyOf i s).Sat State.Inv State.Inv (Silent s) := by
    rw [bodyOf_writer h fun _ => hi.acc]
    exact (writeAll_sat _ hi (hm.trans (requiredMode_writer h))).withAccs
      (fun _ ht => setAcc_inv ht.1 (accWhenDone_ok hw hi.acc)) (fun _ ht _ => ht)
      (fun _ ht _ => setAcc_inv ht (accWhenCut_ok i hi.acc))
  cases i with
  | init a b =>
    rcases initBody_cases a b s with ⟨_, e⟩ | ⟨ha, hb, e⟩ <;> rw [bodyOf, e]
    · exact raise_inv _ hi
    · exact create_inv hi hm hw ha hb
  | destroy => exact (drainOr_sat _ hi hm).andThen fun t ⟨ht, hempty⟩ => release_inv ht.1 ht.2.1 hempty
  | refillIn => exact refill_sat hi
  | drainOut => exact (drainOr_sat _ hi hm).mono (fun _ ht => ht.1.1) (fun _ h => h) fun _ h => h
  | writeByte | writeWord | writeMarker | writeBits | writeAlignBits => exact hwriter rfl

/-- What an outcome of the model keeps: a next state that meets the invariant, or a stop of the kind `F`. -/
def OutcomeSat (F : Fault → Prop) : Host.Outcome State Fault Refusal → Prop
  | .next t => t.Inv
  | .fault f => F f
  | .refused _ => False

theorem Run.Sat.outcomeSat {F : Fault → Prop} {r : Run} (h : r.Sat State.Inv State.Inv F) : OutcomeSat F r.outcome := by
  cases r with
  | ok t => exact complete_inv h _
  | ended t => exact h
  | stop f => exact h

/-- Where a step stops: at a word in FAULTED, or at a silent environment; in either case with no reset to come. -/
def Stuck (s : State) (f : Fault) : Prop :=
  (f = .notAccepted ∧ s.mode = .faulted) ∨ Silent s f

theorem rejectWord_outcomeSat (hi : s.Inv) : OutcomeSat (Stuck s) (rejectWord s) := by
  by_cases hm : s.mode = .faulted
  · rw [rejectWord_faulted hm]; exact .inl ⟨rfl, hm⟩
  · rw [rejectWord_raises hm]; exact raise_inv _ hi

theorem exec_outcomeSat {i : Instr} (hi : s.Inv) : OutcomeSat (Stuck s) (exec i s) := by
  rw [exec_eq_accept]
  by_cases h : i.wellFormed = true ∧ s.mode = requiredMode i
  · rw [accept_runs _ h.1 h.2]
    exact ((bodyOf_sat hi h.2 h.1).mono (fun _ h => h) (fun _ h => h) fun _ h => Or.inr h).outcomeSat
  · rw [accept_rejects _ h]; exact rejectWord_outcomeSat hi

/-- Every next state of a command meets the invariant. -/
theorem exec_inv {i : Instr} {t : State} (hi : s.Inv) (h : exec i s = .next t) : t.Inv := by
  have hsat := exec_outcomeSat (i := i) hi
  rwa [h] at hsat

/-! ## Nothing is refused -/

theorem outcome_ne_refused (run : Run) (r : Refusal) : run.outcome ≠ .refused r := by cases run <;> simp

theorem rejectWord_ne_refused (s : State) (r : Refusal) : rejectWord s ≠ .refused r := by
  by_cases hm : s.mode = .faulted
  · simp [rejectWord_faulted hm]
  · simp [rejectWord_raises hm]

theorem exec_ne_refused (i : Instr) (s : State) (r : Refusal) : exec i s ≠ .refused r := by
  rw [exec_eq_accept]
  by_cases h : i.wellFormed = true ∧ s.mode = requiredMode i
  · rw [accept_runs _ h.1 h.2]; exact outcome_ne_refused _ r
  · rw [accept_rejects _ h]; exact rejectWord_ne_refused s r

theorem step_ne_refused (s : State) (r : Refusal) : step s ≠ .refused r := by
  rcases step_cases s with ⟨_, e⟩ | ⟨_, _, _, _, e⟩ | ⟨_, _, _, ⟨i, _, e⟩ | ⟨_, _, e⟩⟩ <;> rw [e]
  · simp
  · simp
  · exact exec_ne_refused i _ r
  · exact rejectWord_ne_refused _ r

/-! ## Steps -/

theorem popPort_inv (hi : s.Inv) : s.popPort.Inv := { hi with }

/-- A word takes no reset from the port. -/
theorem resetToCome_popPort_of_word {w : CmdWord} {rest : List Stimulus} (h : s.arrivals = .word w :: rest) :
    s.popPort.resetToCome = s.resetToCome := by
  rw [State.resetToCome, popPort_port, h, State.resetToCome, port_of_arrivals_word h]
  simp [Stimulus.resets]

/-- Where a step stops, seen from before the word was taken: no reset is to come. -/
theorem stuck_of_popPort {w : CmdWord} {rest : List Stimulus} {f : Fault} (h : s.arrivals = .word w :: rest)
    (hf : Stuck s.popPort f) : Stuck s f ∧ s.resetToCome = false := by
  rcases hf with ⟨rfl, hm⟩ | ⟨rfl, hr, hnever⟩
  · exact ⟨.inl ⟨rfl, hm⟩, no_reset_of_word_in_faulted hm h⟩
  · rw [resetToCome_popPort_of_word h] at hr
    exact ⟨.inr ⟨rfl, hr, hnever⟩, hr⟩

theorem OutcomeSat.mono {F G : Fault → Prop} {o : Host.Outcome State Fault Refusal} (h : OutcomeSat F o)
    (hf : ∀ f, F f → G f) : OutcomeSat G o := by
  cases o with
  | next t => exact h
  | fault f => exact hf f h
  | refused r => exact h

/-- A step keeps the invariant or stops where the spec gives no next step. -/
theorem step_outcomeSat (hi : s.Inv) : OutcomeSat (fun f => Stuck s f ∧ s.resetToCome = false) (step s) := by
  rcases step_cases s with ⟨_, e⟩ | ⟨_, _, _, _, e⟩ | ⟨w, rest, ha, ⟨i, _, e⟩ | ⟨_, _, e⟩⟩ <;> rw [e]
  · exact hi
  · exact (popPort_inv hi).resetBlock
  · exact (exec_outcomeSat (popPort_inv hi)).mono fun _ => stuck_of_popPort ha
  · exact (rejectWord_outcomeSat (popPort_inv hi)).mono fun _ => stuck_of_popPort ha

/-- Settles O11: the registers are those that reset gives any block, and no port has said anything. -/
theorem resetMeetsInvariant : Obligations.ResetMeetsInvariant :=
  { resetBlock_inv (s := State.reset) (by decide) rfl rfl with }

/-- Settles O12: a step keeps the invariant wherever it has a next state. -/
theorem stepKeepsInvariant : Obligations.StepKeepsInvariant := by
  intro s t hi h
  have hsat := step_outcomeSat hi
  rwa [h] at hsat

/-- Settles O13: a step from the invariant is refused nowhere and stops at a word in FAULTED or a silent environment only; whatever
the state, no command is refused. -/
theorem stepStopsOnlyWhereSpecIsStuck : Obligations.StepStopsOnlyWhereSpecIsStuck := by
  refine ⟨fun s f hi h => ?_, step_ne_refused⟩
  have hsat := step_outcomeSat hi
  rw [h] at hsat
  obtain ⟨⟨hf, hm⟩ | ⟨hf, _, hnever⟩, hr⟩ := hsat
  · exact .inl ⟨hf, hm, hr⟩
  · exact .inr ⟨hf, hr, hnever⟩

end Sys2Proof.Machine
end

section
/-! How a command ends: its procedure runs to the end, or the command ends inside it, abandoned by a reset (70_reset_and_hazards.md
R160) or in fault entry (60_exceptions.md R148), or it is rejected. Said once for every command; the parameters and the file
(10_state.md section 7), the capacities (R37) and the modes (60_exceptions.md R154) follow. -/

namespace Sys2Proof.Machine

/-! ## A command under way -/

/-- The command that began in `s` has come to `t` inside a procedure: it made transactions, but neither raised nor completed. -/
structure Underway (s t : State) : Prop where
  params : t.params = s.params
  mode : t.mode = s.mode
  outCap : t.out.cap = s.out.cap
  inpCap : t.inp.cap = s.inp.cap
  src : t.env.src = s.env.src
  hooks : t.env.hooks = s.env.hooks
  log : ∃ l, t.env.log = s.env.log ++ l ∧ t.env.sink = s.env.sink ++ acceptedOf l ∧ hooksOf l = [] ∧
    ∀ c, PortEvent.completed c ∉ l

theorem Underway.of_env_eq {s t : State} (hp : t.params = s.params) (hm : t.mode = s.mode) (ho : t.out.cap = s.out.cap)
    (hi : t.inp.cap = s.inp.cap) (he : t.env = s.env) : Underway s t :=
  ⟨hp, hm, ho, hi, by rw [he], by rw [he], [], by simp [he], by simp [he, acceptedOf], rfl, by simp⟩

theorem Underway.refl (s : State) : Underway s s := .of_env_eq rfl rfl rfl rfl rfl

theorem Underway.trans {s t u : State} (h : Underway s t) (h' : Underway t u) : Underway s u := by
  obtain ⟨l, hlog, hsink, hhooks, hnone⟩ := h.log
  obtain ⟨m, hlog', hsink', hhooks', hnone'⟩ := h'.log
  exact {
    params := h'.params.trans h.params
    mode := h'.mode.trans h.mode
    outCap := h'.outCap.trans h.outCap
    inpCap := h'.inpCap.trans h.inpCap
    src := h'.src.trans h.src
    hooks := h'.hooks.trans h.hooks
    log := ⟨l ++ m, by simp [hlog', hlog], by simp [hsink', hsink], by simp [hhooks, hhooks'], fun c hc =>
      (List.mem_append.1 hc).elim (hnone c) (hnone' c)⟩ }

theorem pushByte_underway (v : Byte) (s : State) : Underway s (pushByte v s) := .of_env_eq rfl rfl rfl rfl rfl

theorem setAcc_underway (a : Acc) (s : State) : Underway s (setAcc a s) := .of_env_eq rfl rfl rfl rfl rfl

theorem sinkWrite_popSink_underway (bytes : List Byte) (k : Nat) (s : State) :
    Underway s (sinkWrite bytes k s.popSink) :=
  ⟨rfl, rfl, rfl, rfl, rfl, rfl, [.sinkWrite bytes k], rfl, by simp [acceptedOf], rfl, by simp⟩

theorem drained_underway (s : State) : Underway s (drained s) :=
  (sinkWrite_popSink_underway _ _ s).trans (.of_env_eq rfl rfl rfl rfl rfl)

theorem receive_clearIn_underway (data : List Byte) (s : State) :
    Underway s (receive data (clearIn s.popSource)) :=
  ⟨rfl, rfl, rfl, rfl, rfl, rfl, [.sourceRead s.inp.cap.toNat data], rfl, by simp [acceptedOf], rfl, by simp⟩

theorem soughtBack_underway (s : State) : Underway s (soughtBack s) :=
  ⟨rfl, rfl, rfl, rfl, rfl, rfl, [.sourceSeek (rewindDelta s.inp.cap)], rfl, by simp [soughtBack, acceptedOf], rfl, by simp⟩

/-! ## A command that ended inside a procedure -/

/-- Reset abandons the command where it stands (R160). -/
theorem Underway.abandoned {s u : State} (h : Underway s u) : Abandoned s (resetBlock u) :=
  ⟨h.params, rfl, rfl, rfl, rfl, rfl, h.src, h.hooks, h.log⟩

theorem Underway.abandoned_hung {s u : State} (h : Underway s u) : Abandoned s (resetWhileHung u) :=
  ⟨h.params, rfl, rfl, rfl, rfl, rfl, h.src, h.hooks, h.log⟩

theorem Underway.trans_abandoned {s t u : State} (h : Underway s t) (h' : Abandoned t u) : Abandoned s u := by
  obtain ⟨l, hlog, hsink, hhooks, hnone⟩ := h.log
  obtain ⟨m, hlog', hsink', hhooks', hnone'⟩ := h'.log
  exact { h' with
    params := h'.params.trans h.params
    src := h'.src.trans h.src
    hooks := h'.hooks.trans h.hooks
    log := ⟨l ++ m, by simp [hlog', hlog], by simp [hsink', hsink], by simp [hhooks, hhooks'], fun c hc =>
      (List.mem_append.1 hc).elim (hnone c) (hnone' c)⟩ }

/-- The command ended inside a procedure: a reset abandoned it, or it raised a fault. The last that the ports said is then no
completion with `done`. -/
def EndedInside (s t : State) : Prop :=
  ¬t.completedDone ∧ (Abandoned s t ∨ ∃ kind u, Underway s u ∧ t = raise kind u)

theorem Underway.trans_ended {s t u : State} (h : Underway s t) (h' : EndedInside t u) : EndedInside s u :=
  ⟨h'.1, h'.2.imp h.trans_abandoned fun ⟨kind, v, hv, e⟩ => ⟨kind, v, h.trans hv, e⟩⟩

theorem EndedInside.of_raise {s u : State} (kind : FaultKind) (h : Underway s u) : EndedInside s (raise kind u) :=
  ⟨not_completedDone_raise kind u, .inr ⟨kind, u, h, rfl⟩⟩

theorem EndedInside.mode_ne_ready {s t : State} (h : EndedInside s t) : t.mode ≠ .ready := by
  rcases h.2 with ha | ⟨kind, u, _, rfl⟩
  · simp [ha.mode]
  · simp

theorem EndedInside.params_src {s t : State} (h : EndedInside s t) : t.params = s.params ∧ t.env.src = s.env.src := by
  rcases h.2 with ha | ⟨kind, u, hu, rfl⟩
  · exact ⟨ha.params, ha.src⟩
  · exact ⟨hu.params, hu.src⟩

/-- `ACC` plays no part in how the command ended. -/
theorem EndedInside.setAcc {s t : State} (h : EndedInside s t) (hm : t.mode ≠ .uninit) (a : Acc) :
    EndedInside s (setAcc a t) := by
  rcases h.2 with ha | ⟨kind, u, hu, rfl⟩
  · exact absurd ha.mode hm
  · exact .of_raise kind (hu.trans (setAcc_underway a u))

/-! ## Procedures -/

/-- The procedure leaves the command under way or ends it inside. -/
def Run.Proper (s : State) (r : Run) : Prop := r.Sat (Underway s) (EndedInside s) fun _ => True

theorem Run.Proper.andThen {s : State} {r : Run} {f : State → Run} (hr : r.Proper s) (hf : ∀ t, (f t).Proper t) :
    (r.andThen f).Proper s :=
  Run.Sat.andThen hr fun t ht => (hf t).mono (fun _ => ht.trans) (fun _ => ht.trans_ended) fun _ h => h

theorem drainOr_proper (kind : FaultKind) (s : State) : (drainOr kind s).Proper s := by
  rcases drainOr_cases kind s with ⟨_, e⟩ | ⟨_, e⟩ |
    ⟨_, _, ⟨_, _, e⟩ | ⟨_, _, e⟩ | ⟨k, _, e⟩ | ⟨k, _, _, e⟩ | ⟨_, _, _, e⟩⟩ <;> rw [e]
  · exact .refl _
  · trivial
  · trivial
  · exact ⟨by simp [State.completedDone], .inl (sinkWrite_popSink_underway _ 0 s).abandoned_hung⟩
  · exact ⟨by simp [State.completedDone], .inl (sinkWrite_popSink_underway _ _ s).abandoned⟩
  · exact .of_raise kind (sinkWrite_popSink_underway _ k s)
  · exact drained_underway s

theorem writeByte_proper (v : Byte) (s : State) : (writeByte v s).Proper s := by
  unfold writeByte
  split
  · have hpush : (Run.ok (pushByte v s)).Proper s := pushByte_underway v s
    split
    · exact hpush.andThen (drainOr_proper .bufferWriteError)
    · exact hpush
  · trivial

theorem writeAll_proper (bs : List Byte) (s : State) : (writeAll bs s).Proper s := by
  induction bs generalizing s with
  | nil => exact .refl _
  | cons b bs ih => exact (writeByte_proper b s).andThen ih

theorem writeBits_proper (len : Nat) (val : Word) (s : State) : (writeBits len val s).Proper s := by
  rw [writeBits_eq]
  exact (writeAll_proper _ s).andThen (setAcc_underway _)

theorem flushByte_proper (s : State) : (flushByte s).Proper s := by
  rw [flushByte_eq]
  split
  · exact (writeAll_proper _ s).andThen (setAcc_underway _)
  · exact .refl _

theorem debugSeek_proper (s : State) : (debugSeek s).Proper s := by
  rcases debugSeek_cases s with ⟨_, e⟩ | ⟨_, _, e⟩ | ⟨_, _, e⟩ <;> rw [e]
  · exact .refl _
  · exact soughtBack_underway s
  · exact ⟨by simp [State.completedDone, soughtBack], .inl (soughtBack_underway s).abandoned⟩

theorem refill_proper (s : State) : (refill s).Proper s := by
  rcases refill_cases s with ⟨_, _, e⟩ | ⟨_, _, e⟩ | ⟨k, _, e⟩ | ⟨k, _, _, e⟩ | ⟨k, _, _, _, e⟩ <;> rw [e]
  · trivial
  · exact ⟨by simp [State.completedDone], .inl (receive_clearIn_underway [] s).abandoned_hung⟩
  · exact ⟨by simp [State.completedDone, received], .inl (receive_clearIn_underway _ s).abandoned⟩
  · exact .of_raise _ (receive_clearIn_underway _ s)
  · have hread : (Run.ok (rewindIn (received k s))).Proper s :=
      (receive_clearIn_underway _ s).trans (.of_env_eq rfl rfl rfl rfl rfl)
    exact hread.andThen debugSeek_proper

/-! ## Commands -/

/-- The mode in which a command that ran to its end leaves the block (R154). -/
def modeWhenDone : Instr → Mode
  | .init _ _ => .ready
  | .destroy => .uninit
  | .writeByte _ => .ready
  | .writeWord _ => .ready
  | .writeMarker _ => .ready
  | .writeBits _ _ => .ready
  | .writeAlignBits => .ready
  | .refillIn => .ready
  | .drainOut => .ready

/-- The procedure of the command ran to its end. -/
structure Finished (i : Instr) (s t : State) : Prop where
  params : t.params = s.params
  src : t.env.src = s.env.src
  mode : t.mode = modeWhenDone i
  caps : (∀ a b, i ≠ .init a b) → t.out.cap = s.out.cap ∧ t.inp.cap = s.inp.cap

/-- A command in its mode runs to its end or ends inside a procedure. -/
theorem bodyOf_ends {i : Instr} {s : State} (hm : s.mode = requiredMode i) :
    (bodyOf i s).Sat (Finished i s) (EndedInside s) fun _ => True := by
  have hkeeps (hready : requiredMode i = modeWhenDone i) {r : Run} (hr : r.Proper s) :
      r.Sat (Finished i s) (EndedInside s) fun _ => True :=
    Run.Sat.mono hr (fun _ ht => ⟨ht.params, ht.src, ht.mode.trans (hm.trans hready), fun _ => ⟨ht.outCap, ht.inpCap⟩⟩)
      (fun _ h => h) fun _ h => h
  cases i with
  | init a b =>
    rcases initBody_cases a b s with ⟨_, e⟩ | ⟨_, _, e⟩ <;> rw [bodyOf, e]
    · exact .of_raise _ (.refl s)
    · exact ⟨rfl, rfl, rfl, fun h => absurd rfl (h a b)⟩
  | destroy =>
    exact Run.Sat.andThen (drainOr_proper .shortWriteError s) fun t ht =>
      ⟨ht.params, ht.src, rfl, fun _ => ⟨ht.outCap, ht.inpCap⟩⟩
  | writeByte v => exact hkeeps rfl (writeByte_proper v s)
  | writeWord v => exact hkeeps rfl ((writeByte_proper _ s).andThen (writeByte_proper _))
  | writeMarker code => exact hkeeps rfl ((writeByte_proper _ s).andThen (writeByte_proper _))
  | writeBits len val => exact hkeeps rfl (writeBits_proper _ _ s)
  | writeAlignBits => exact hkeeps rfl ((writeBits_proper _ _ s).andThen flushByte_proper)
  | refillIn => exact hkeeps rfl (refill_proper s)
  | drainOut => exact hkeeps rfl (drainOr_proper _ s)

/-- Every way in which a command has a next state. -/
theorem exec_ends {i : Instr} {s t : State} (h : exec i s = .next t) :
    (s.mode = requiredMode i ∧ ∃ u, bodyOf i s = .ok u ∧ Finished i s u ∧ t = u.complete .done) ∨
    (s.mode = requiredMode i ∧ bodyOf i s = .ended t ∧ EndedInside s t) ∨
    t = raise .illegalCommand s := by
  rw [exec_eq_accept] at h
  rcases accept_next h with ⟨hm, _, hrun⟩ | ⟨_, _, rfl⟩
  · have hends := bodyOf_ends hm
    rcases outcome_eq_next.1 hrun with ⟨u, hu, rfl⟩ | hu <;> rw [hu] at hends
    · exact .inl ⟨hm, u, hu, hends, rfl⟩
    · exact .inr (.inl ⟨hm, hu, hends⟩)
  · exact .inr (.inr rfl)

theorem exec_params_src {i : Instr} {s t : State} (h : exec i s = .next t) :
    t.params = s.params ∧ t.env.src = s.env.src := by
  rcases exec_ends h with ⟨_, u, _, hu, rfl⟩ | ⟨_, _, hin⟩ | rfl
  · exact ⟨hu.params, hu.src⟩
  · exact hin.params_src
  · exact ⟨rfl, rfl⟩

/-- Settles O14: no command and no reset writes either. -/
theorem stepKeepsParameters : Obligations.StepKeepsParameters := by
  intro s t h
  rcases step_cases s with ⟨_, e⟩ | ⟨_, _, _, _, e⟩ | ⟨_, _, _, ⟨i, _, e⟩ | ⟨_, _, e⟩⟩ <;> rw [e] at h
  · cases h; exact ⟨rfl, rfl⟩
  · cases h; exact ⟨rfl, rfl⟩
  · obtain ⟨hparams, hsrc⟩ := exec_params_src h
    exact ⟨hparams, hsrc⟩
  · by_cases hm : s.popPort.mode = .faulted
    · rw [rejectWord_faulted hm] at h; cases h
    · rw [rejectWord_raises hm] at h; cases h; exact ⟨rfl, rfl⟩

/-- A command that leaves the block READY ran its procedure to the end. -/
theorem exec_ready {i : Instr} {s t : State} (h : exec i s = .next t) (hready : t.mode = .ready) :
    s.mode = requiredMode i ∧ ∃ u, bodyOf i s = .ok u ∧ Finished i s u ∧ t = u.complete .done := by
  rcases exec_ends h with hdone | ⟨_, _, hin⟩ | rfl
  · exact hdone
  · exact absurd hready hin.mode_ne_ready
  · simp at hready

/-- Settles O15: only INIT, which READY rejects, writes a capacity of a block that stays READY. -/
theorem capacitiesConstantWhileReady : Obligations.CapacitiesConstantWhileReady := by
  intro i s t hm h hready
  obtain ⟨hmode, u, _, hu, rfl⟩ := exec_ready h hready
  exact hu.caps fun a b hi => by rw [hm, requiredMode_init ⟨a, b, hi⟩] at hmode; cases hmode

/-- Settles O56: by how the command ended; only DESTROY and INIT change the mode at their end. -/
theorem modeTransitions : Obligations.ModeTransitions := by
  intro i s t h
  refine ⟨fun hready => ?_, fun hun hdone => ?_, fun hfaulted hdone => ?_⟩
  · obtain ⟨hm, _⟩ := exec_ready h hready
    cases i with
    | init a b => exact .inr ⟨hm, a, b, rfl⟩
    | _ => exact .inl ⟨hm, fun _ _ => by simp⟩
  · rcases exec_ends h with ⟨hm, u, _, hu, rfl⟩ | ⟨_, _, hin⟩ | rfl
    · have hmode : modeWhenDone i = .uninit := hu.mode.symm.trans hun
      cases i with
      | destroy => exact ⟨hm, rfl⟩
      | _ => cases hmode
    · exact absurd hdone hin.1
    · cases hun
  · rcases exec_ends h with ⟨_, u, _, hu, rfl⟩ | ⟨_, _, hin⟩ | rfl
    · have hmode : modeWhenDone i = .faulted := hu.mode.symm.trans hfaulted
      cases i <;> cases hmode
    · exact hin.1 hdone
    · exact not_completedDone_raise _ s hdone

end Sys2Proof.Machine
end

section
/-! A list of byte stores and its drains, counted (42_primitive_writers.md R110): how many there are, which answers they used up,
what the sink has at any of them. With the writers' common form this says where a writer is abandoned or hangs (R160, R176), that
an accepting sink lets it complete (R64), how many transactions it makes (R175) and what a BufferWriteError leaves (R150). -/

namespace Sys2Proof.Machine

/-! ## Storing bytes with `n` drains -/

@[simp] theorem countSinkWrites_append (l m : List PortEvent) :
    countSinkWrites (l ++ m) = countSinkWrites l + countSinkWrites m := by
  induction l with
  | nil => simp [countSinkWrites]
  | cons e l ih => cases e <;> simp [countSinkWrites, ih]; omega

/-- `t` comes from `s` by storing `bytes` with `n` drains, each of a full buffer and accepted whole. -/
structure Drains (n : Nat) (bytes : List Byte) (s t : State) : Prop extends Stored bytes s t where
  count : n * s.out.cap.toNat + t.out.pos.toNat = s.out.pos.toNat + bytes.length
  room : t.out.pos.toNat < t.out.cap.toNat
  answers : t.env.sinkAnswers = s.env.sinkAnswers.drop n
  accepted : ∀ a ∈ s.env.sinkAnswers.take n, a.acceptsAll s.out.cap.toNat = true
  writes : ∃ l, t.env.log = s.env.log ++ l ∧ countSinkWrites l = n

theorem Drains.refl {s : State} (h : s.out.pos.toNat < s.out.cap.toNat) : Drains 0 [] s s where
  toStored := .refl s
  count := by simp
  room := h
  answers := rfl
  accepted := by simp
  writes := ⟨[], by simp, rfl⟩

theorem Drains.trans {n m : Nat} {b c : List Byte} {s t u : State} (h : Drains n b s t) (h' : Drains m c t u) :
    Drains (n + m) (b ++ c) s u := by
  obtain ⟨l, hl, hn⟩ := h.writes
  obtain ⟨l', hl', hm⟩ := h'.writes
  have hcount := h.count
  have hcount' := h'.count
  rw [h.cap] at hcount'
  exact {
    toStored := h.toStored.trans h'.toStored
    count := by rw [List.length_append, Nat.add_mul]; omega
    room := h'.room
    answers := by rw [h'.answers, h.answers, List.drop_drop]
    accepted := fun a ha => by
      rw [List.take_add, ← h.answers] at ha
      rcases List.mem_append.1 ha with ha | ha
      · exact h.accepted a ha
      · exact h.cap ▸ h'.accepted a ha
    writes := ⟨l ++ l', by rw [hl', hl, List.append_assoc], by simp [hn, hm]⟩ }

theorem pushByte_drains {s : State} (v : Byte) (h : s.out.pos.toNat + 1 < s.out.cap.toNat) :
    Drains 0 [v] s (pushByte v s) := by
  have hlt : s.out.pos < s.out.cap := show s.out.pos.toNat < s.out.cap.toNat by omega
  have hpos : (pushByte v s).out.pos.toNat = s.out.pos.toNat + 1 := pos_succ hlt
  exact {
    toStored := stored_pushByte v hlt
    count := by rw [hpos]; simp
    room := by rw [hpos]; exact h
    answers := rfl
    accepted := by simp
    writes := ⟨[], by simp, rfl⟩ }

/-- Where the sink's next answer takes `n` bytes, so does the first fixed one, if one is left. -/
theorem acceptsAll_of_sinkAnswer {s : State} {k n : Nat} (h : s.sinkAnswer = .take k) (hk : n ≤ k) :
    ∀ a ∈ s.env.sinkAnswers.take 1, a.acceptsAll n = true := by
  intro a ha
  cases hs : s.env.sinkAnswers with
  | nil => simp [hs] at ha
  | cons b l =>
    have hb : s.sinkAnswer = b := by simp [State.sinkAnswer, hs]
    have hab : a = b := by simpa [hs] using ha
    rw [hab, ← hb, h]
    simpa [Answer.acceptsAll] using hk

theorem drained_pushByte_drains {s : State} {v : Byte} {k : Nat} (hw : writeByte v s = .ok (drained (pushByte v s)))
    (hfull : s.out.pos.toNat + 1 = s.out.cap.toNat) (ha : s.sinkAnswer = .take k) (hk : s.out.cap.toNat ≤ k) :
    Drains 1 [v] s (drained (pushByte v s)) where
  toStored := stored_writeByte hw
  count := by simp [hfull]
  room := by simp; omega
  answers := by simp [drained]
  accepted := acceptsAll_of_sinkAnswer ha hk
  writes := ⟨[.sinkWrite (pushByte v s).buffered (pushByte v s).out.pos.toNat], rfl, rfl⟩

/-- WriteByte that ran to its end stored its byte, with a drain or without. -/
theorem writeByte_drains {v : Byte} {s t : State} (h : writeByte v s = .ok t) : ∃ n, Drains n [v] s t := by
  have hw := h
  rcases writeByte_cases v s with ⟨_, e⟩ | ⟨_, hroom, e⟩ |
    ⟨_, hfull, ⟨_, _, e⟩ | ⟨_, _, e⟩ | ⟨_, _, e⟩ | ⟨_, _, _, e⟩ | ⟨k, ha, hk, e⟩⟩ <;> rw [e] at h <;> cases h
  · exact ⟨0, pushByte_drains v hroom⟩
  · exact ⟨1, drained_pushByte_drains hw hfull ha hk⟩

/-- The list of byte stores `bs` from `s` comes, after `n` drains that succeeded, to a byte `v` that fills the buffer in `u`,
and ends with its drain. -/
structure CutAt (n : Nat) (bs : List Byte) (v : Byte) (s u : State) : Prop where
  split : ∃ pre post, bs = pre ++ v :: post ∧ Drains n pre s u
  full : u.out.pos.toNat + 1 = u.out.cap.toNat
  run : writeAll bs s = writeByte v u
  fails : ∀ t, writeByte v u ≠ .ok t

/-- Everything a list of byte stores from a buffer with room can do. -/
theorem writeAll_ends (bs : List Byte) {s : State} (hroom : s.out.pos.toNat < s.out.cap.toNat) :
    (∃ n t, writeAll bs s = .ok t ∧ Drains n bs s t) ∨ ∃ n v u, CutAt n bs v s u := by
  induction bs generalizing s with
  | nil => exact .inl ⟨0, s, rfl, .refl hroom⟩
  | cons b bs ih =>
    by_cases hb : ∃ u, writeByte b s = .ok u
    · obtain ⟨u, hu⟩ := hb
      obtain ⟨n, hn⟩ := writeByte_drains hu
      rcases ih hn.room with ⟨m, t, e, ht⟩ | ⟨m, v, w, ⟨pre, post, rfl, hw⟩, hfull, hrun, hfails⟩
      · exact .inl ⟨n + m, t, by simp [writeAll, hu, e], hn.trans ht⟩
      · exact .inr ⟨n + m, v, w, ⟨b :: pre, post, rfl, hn.trans hw⟩, hfull, by simp [writeAll, hu, hrun], hfails⟩
    · have hfails : ∀ t, writeByte b s ≠ .ok t := fun t ht => hb ⟨t, ht⟩
      refine .inr ⟨0, b, s, ⟨[], bs, rfl, .refl hroom⟩, ?_, ?_, hfails⟩
      · rcases writeByte_cases b s with ⟨h, _⟩ | ⟨_, _, e⟩ | ⟨_, hfull, _⟩
        · have h : s.out.cap.toNat ≤ s.out.pos.toNat := h
          omega
        · exact absurd e (hfails _)
        · exact hfull
      · cases h : writeByte b s with
        | ok t => exact absurd h (hfails t)
        | ended t => simp [writeAll, h]
        | stop f => simp [writeAll, h]

section Cut

variable {n : Nat} {bs : List Byte} {v : Byte} {s u : State}

/-- At the byte where the run is cut `n + 1` whole buffers have come together. -/
theorem CutAt.count (h : CutAt n bs v s u) : (n + 1) * s.out.cap.toNat ≤ s.out.pos.toNat + bs.length := by
  obtain ⟨pre, post, rfl, hd⟩ := h.split
  have hcount := hd.count
  have hfull := h.full
  rw [hd.cap] at hfull
  simp only [List.length_append, List.length_cons, Nat.succ_mul]
  omega

theorem CutAt.cap (h : CutAt n bs v s u) : u.out.cap = s.out.cap := by
  obtain ⟨_, _, _, hd⟩ := h.split
  exact hd.cap

theorem CutAt.lt (h : CutAt n bs v s u) : u.out.pos < u.out.cap := by
  have hfull := h.full
  show u.out.pos.toNat < u.out.cap.toNat
  omega

/-- Everything the run can do there: the drain of the byte that fills the buffer does not succeed. -/
theorem CutAt.cases (h : CutAt n bs v s u) :
    (u.sinkAnswer = .never ∧ u.resetToCome = false ∧ writeAll bs s = .stop .unanswered) ∨
    (u.sinkAnswer = .never ∧ u.resetToCome = true ∧
      writeAll bs s = .ended (resetWhileHung (sinkWrite (u.buffered ++ [v]) 0 (pushByte v u).popSink))) ∨
    (∃ k, u.sinkAnswer = .takeThenReset k ∧ writeAll bs s =
      .ended (resetBlock (sinkWrite (u.buffered ++ [v]) (min k s.out.cap.toNat) (pushByte v u).popSink))) ∨
    (∃ k, u.sinkAnswer = .take k ∧ k < s.out.cap.toNat ∧ writeAll bs s =
      .ended (raise .bufferWriteError (sinkWrite (u.buffered ++ [v]) k (pushByte v u).popSink))) := by
  rw [h.run, ← h.cap]
  rcases writeByte_cases v u with ⟨hcap, _⟩ | ⟨_, hroom, _⟩ | ⟨_, _, hend | hend | hend | hend | ⟨_, _, _, e⟩⟩
  · exact absurd hcap (BitVec.not_le.2 h.lt)
  · exact absurd h.full (Nat.ne_of_lt hroom)
  · exact .inl hend
  · exact .inr (.inl hend)
  · exact .inr (.inr (.inl hend))
  · exact .inr (.inr (.inr hend))
  · exact absurd e (h.fails _)

/-- The sink's next answer there does not take the whole buffer. -/
theorem CutAt.not_acceptsAll (h : CutAt n bs v s u) : u.sinkAnswer.acceptsAll s.out.cap.toNat = false := by
  rcases h.cases with ⟨ha, _⟩ | ⟨ha, _⟩ | ⟨_, ha, _⟩ | ⟨_, ha, hk, _⟩ <;> rw [ha]
  · rfl
  · rfl
  · rfl
  · simpa [Answer.acceptsAll] using hk

/-- Where a fixed answer is left at the cut, it is the one that does not take the whole buffer. -/
theorem CutAt.getElem (h : CutAt n bs v s u) (hn : n < s.env.sinkAnswers.length) : u.sinkAnswer = s.env.sinkAnswers[n] := by
  obtain ⟨_, _, _, hd⟩ := h.split
  rw [State.sinkAnswer, hd.answers, List.drop_eq_getElem_cons hn]

/-- What the sink has when it accepts `m` bytes of the transaction there: that many of the command's, after the whole
buffers drained before. -/
theorem CutAt.sink (h : CutAt n bs v s u) {m : Nat} (hm : m ≤ s.out.cap.toNat) :
    u.env.sink ++ (u.buffered ++ [v]).take m =
      s.env.sink ++ (s.buffered ++ bs).take (n * s.out.cap.toNat + m) := by
  obtain ⟨pre, post, rfl, hd⟩ := h.split
  have hstream : u.env.sink ++ u.buffered = s.env.sink ++ s.buffered ++ pre := hd.stream
  have hlen := congrArg List.length hstream
  simp only [List.length_append, buffered_length] at hlen
  have hcount := hd.count
  have hfull := h.full
  rw [h.cap] at hfull
  have hsame : u.env.sink ++ (u.buffered ++ [v] ++ post) = s.env.sink ++ (s.buffered ++ (pre ++ v :: post)) := by
    simp only [← List.append_assoc, hstream]; simp
  have htake : (u.buffered ++ [v] ++ post).take m = (u.buffered ++ [v]).take m :=
    List.take_append_of_le_length (by simp only [List.length_append, buffered_length, List.length_singleton]; omega)
  have hsum : u.env.sink.length + m = s.env.sink.length + (n * s.out.cap.toNat + m) := by omega
  calc u.env.sink ++ (u.buffered ++ [v]).take m
      = (u.env.sink ++ (u.buffered ++ [v] ++ post)).take (u.env.sink.length + m) := by
        rw [List.take_length_add_append, htake]
    _ = (s.env.sink ++ (s.buffered ++ (pre ++ v :: post))).take (s.env.sink.length + (n * s.out.cap.toNat + m)) := by
        rw [hsame, hsum]
    _ = s.env.sink ++ (s.buffered ++ (pre ++ v :: post)).take (n * s.out.cap.toNat + m) :=
        List.take_length_add_append ..

end Cut

/-- The first answer of a list that does not take a whole buffer is where the run is cut, if it stores enough to come there. -/
theorem writeAll_cut_at {bs : List Byte} {s : State} {accepted rest : List Answer} {x : Answer}
    (hroom : s.out.pos.toNat < s.out.cap.toNat) (hs : s.env.sinkAnswers = accepted ++ x :: rest)
    (haccepted : ∀ a ∈ accepted, a.acceptsAll s.out.cap.toNat = true) (hx : x.acceptsAll s.out.cap.toNat = false)
    (hlen : (accepted.length + 1) * s.out.cap.toNat ≤ s.out.pos.toNat + bs.length) :
    ∃ v u, CutAt accepted.length bs v s u ∧ u.sinkAnswer = x ∧ u.env.sinkAnswers = x :: rest := by
  have hnot {n : Nat} (hn : accepted.length < n) (h : ∀ a ∈ s.env.sinkAnswers.take n, a.acceptsAll s.out.cap.toNat = true) :
      False := by
    have hmem : x ∈ s.env.sinkAnswers.take n := by
      rw [hs, List.take_append, List.mem_append]
      right
      rw [List.take_cons (by omega)]
      exact List.mem_cons_self
    rw [h x hmem] at hx
    cases hx
  rcases writeAll_ends bs hroom with ⟨n, t, _, hd⟩ | ⟨n, v, u, hcut⟩
  · refine absurd hd.accepted (hnot ?_)
    have hcount := hd.count
    have htroom := hd.room
    rw [hd.cap] at htroom
    by_contra hle
    have hmul := Nat.mul_le_mul_right s.out.cap.toNat (Nat.succ_le_succ (Nat.not_lt.1 hle))
    simp only [Nat.succ_mul, Nat.succ_eq_add_one] at hmul hlen
    omega
  · obtain ⟨_, _, _, hd⟩ := hcut.split
    have hle : n ≤ accepted.length := Nat.not_lt.1 fun h => hnot h hd.accepted
    have hn : n = accepted.length := by
      by_contra hne
      have hlt : n < accepted.length := by omega
      have hanswer := hcut.getElem (by rw [hs, List.length_append]; omega)
      have hfalse := hcut.not_acceptsAll
      simp only [hs, List.getElem_append_left hlt] at hanswer
      rw [hanswer, haccepted _ (List.getElem_mem hlt)] at hfalse
      cases hfalse
    subst hn
    have hleft : u.env.sinkAnswers = x :: rest := by rw [hd.answers, hs, List.drop_left]
    exact ⟨v, u, hcut, by simp [State.sinkAnswer, hleft], hleft⟩

/-- Four bytes or fewer fill a buffer with room at most four times, and at most twice where it holds more than one byte. -/
theorem drains_le {n cap pos len : Nat} (hroom : pos < cap) (hlen : len ≤ 4) (h : n * cap ≤ pos + len) :
    n ≤ 4 ∧ (cap ≠ 1 → n ≤ 2) := by
  constructor
  · by_contra hn
    have := Nat.mul_le_mul_right cap (show 5 ≤ n by omega)
    omega
  · intro hne
    by_contra hn
    have := Nat.mul_le_mul_right cap (show 3 ≤ n by omega)
    omega

/-- A sink that accepts everything lets up to four bytes be stored. -/
theorem writeAll_completes {bs : List Byte} {s : State} (hroom : s.out.pos.toNat < s.out.cap.toNat) (hlen : bs.length ≤ 4)
    (hs : s.SinkAcceptsAll) : ∃ n t, writeAll bs s = .ok t ∧ Drains n bs s t := by
  rcases writeAll_ends bs hroom with h | ⟨n, v, u, hcut⟩
  · exact h
  · have hn := (drains_le hroom hlen hcut.count).1
    have hlt : n < s.env.sinkAnswers.length := by have := hs.1; omega
    have hfalse := hcut.not_acceptsAll
    have hmem : s.env.sinkAnswers[n] ∈ s.env.sinkAnswers.take 4 :=
      List.mem_take_iff_getElem.2 ⟨n, by omega, rfl⟩
    rw [hcut.getElem hlt, hs.2 _ hmem] at hfalse
    cases hfalse

end Sys2Proof.Machine
end

section
/-! Commands at a drain or a read that does not succeed: abandoned by a reset (70_reset_and_hazards.md R160), hung (R176), or in
fault entry after a partial effect (60_exceptions.md R150); and commands that an accepting sink lets complete (20_memory.md R64). -/

namespace Sys2Proof.Machine

/-! ## The drain of DESTROY and DRAIN_OUT, and the read of REFILL_IN -/

theorem drainOr_of_takeThenReset {kind : FaultKind} {s : State} {k : Nat} (hne : s.out.pos ≠ 0) (hle : s.out.pos ≤ s.out.cap)
    (ha : s.sinkAnswer = .takeThenReset k) :
    drainOr kind s = .ended (resetBlock (sinkWrite s.buffered (min k s.out.pos.toNat) s.popSink)) := by
  have hne : ¬s.out.pos = 0#14 := hne
  simp [drainOr, drain, hne, BitVec.not_lt.2 hle, ha]

theorem drainOr_of_never {kind : FaultKind} {s : State} (hne : s.out.pos ≠ 0) (hle : s.out.pos ≤ s.out.cap)
    (ha : s.sinkAnswer = .never) : drainOr kind s =
      if s.resetToCome then .ended (resetWhileHung (sinkWrite s.buffered 0 s.popSink)) else .stop .unanswered := by
  have hne : ¬s.out.pos = 0#14 := hne
  cases hr : s.resetToCome <;> simp [drainOr, drain, hne, BitVec.not_lt.2 hle, ha, hr]

theorem drainOr_of_take {kind : FaultKind} {s : State} {k : Nat} (hne : s.out.pos ≠ 0) (hle : s.out.pos ≤ s.out.cap)
    (ha : s.sinkAnswer = .take k) (hk : s.out.pos.toNat ≤ k) : drainOr kind s = .ok (drained s) := by
  have hne : ¬s.out.pos = 0#14 := hne
  simp [drainOr, drain, hne, BitVec.not_lt.2 hle, ha, short, Nat.not_lt.2 hk, drained]

theorem drainOr_of_empty {kind : FaultKind} {s : State} (h : s.out.pos = 0) : drainOr kind s = .ok s := by
  have h : s.out.pos = 0#14 := h
  simp [drainOr, drain, h]

section Drain

variable {i : Instr} {s t : State} (hi : i = .destroy ∨ i = .drainOut) (hm : s.mode = .ready)
include hi hm

/-- Both commands begin with the drain: where that does not run to its end, neither do they. -/
theorem exec_drain_ended (h : drainOr .shortWriteError s = .ended t) : exec i s = .next t := by
  rcases hi with rfl | rfl
  · rw [exec_destroy, accept_runs _ rfl hm, destroyBody, h]; rfl
  · rw [exec_drainOut, accept_runs _ rfl hm, h]; rfl

theorem exec_drain_stop {f : Fault} (h : drainOr .shortWriteError s = .stop f) : exec i s = .fault f := by
  rcases hi with rfl | rfl
  · rw [exec_destroy, accept_runs _ rfl hm, destroyBody, h]; rfl
  · rw [exec_drainOut, accept_runs _ rfl hm, h]; rfl

end Drain

/-- A read that the environment and the file answer in full goes on to the seek (41_buffer.md R102). -/
theorem refill_of_full {s : State} {k : Nat} (ha : s.sourceAnswer = .take k) (hk : s.inp.cap.toNat ≤ k)
    (hfile : s.env.srcPos + s.inp.cap.toNat ≤ s.env.src.length) : refill s = debugSeek (rewindIn (received k s)) := by
  have hlen : ¬(s.sourceData s.inp.cap.toNat k).length < s.inp.cap.toNat := by rw [sourceData_length]; omega
  simp only [refill, ha, short, hlen, decide_false, received]
  rfl

theorem sourceData_full {s : State} {k : Nat} (hk : s.inp.cap.toNat ≤ k) :
    s.sourceData s.inp.cap.toNat k = (s.env.src.drop s.env.srcPos).take s.inp.cap.toNat := by
  rw [State.sourceData, Nat.min_eq_right hk]

theorem sourceData_full_length {s : State} {k : Nat} (hk : s.inp.cap.toNat ≤ k)
    (hfile : s.env.srcPos + s.inp.cap.toNat ≤ s.env.src.length) :
    (s.sourceData s.inp.cap.toNat k).length = s.inp.cap.toNat := by
  rw [sourceData_length]; omega

/-- The seek of the debug mode, with the choice of a reset after it fixed (41_buffer.md R105). -/
theorem debugSeek_of_seekResets {s : State} {b : Bool} {rest : List Bool} (hd : s.params.reversedDebug = true)
    (hs : s.env.seekResets = b :: rest) :
    debugSeek s = if b then .ended (resetBlock (soughtBack s)) else .ok (soughtBack s) := by
  have hb : (sourceSeek (rewindDelta s.inp.cap) s).seekReset = b := by
    simp [State.seekReset, hs]
  cases b <;> simp [debugSeek, hd, seekBack, hb, soughtBack]

/-! ## Abandoned -/

/-- A command that ended inside a procedure and left UNINIT was abandoned. -/
theorem EndedInside.abandoned {s t : State} (h : EndedInside s t) (hm : t.mode = .uninit) : Abandoned s t := by
  rcases h.2 with ha | ⟨kind, u, _, rfl⟩
  · exact ha
  · cases hm

theorem drainOr_ended {kind : FaultKind} {s t : State} (h : drainOr kind s = .ended t) : EndedInside s t := by
  have hproper := drainOr_proper kind s
  rwa [h] at hproper

theorem writeAll_endedInside {bs : List Byte} {s t : State} (h : writeAll bs s = .ended t) : EndedInside s t := by
  have hproper := writeAll_proper bs s
  rwa [h] at hproper

theorem refill_ended {s t : State} (h : refill s = .ended t) : EndedInside s t := by
  have hproper := refill_proper s
  rwa [h] at hproper

theorem emitted_of_not_writer {i : Instr} (h : isWriter i = false) (p : AlignOnBoundary) (a : Acc) : emitted p a i = [] := by
  cases i with
  | init | destroy | refillIn | drainOut => rfl
  | _ => cases h

/-- A command whose bytes fill the buffer is a writer. -/
theorem isWriter_of_fills {i : Instr} {s : State} {n : Nat} (hroom : s.out.pos.toNat < s.out.cap.toNat)
    (hlen : (n + 1) * s.out.cap.toNat ≤ s.out.pos.toNat + (emitted s.params.alignOnBoundary s.acc i).length) :
    isWriter i = true := by
  by_contra h
  rw [emitted_of_not_writer (by simpa using h), List.length_nil, Nat.succ_mul] at hlen
  omega

/-- A writer that a reset ended. -/
theorem exec_writer_reset {i : Instr} {s t : State} (hi : isWriter i = true) (ha : i = .writeAlignBits → AccOk s.acc)
    (hw : i.wellFormed = true) (hm : s.mode = .ready) (hrun : writeAll (emitted s.params.alignOnBoundary s.acc i) s = .ended t)
    (ht : t.mode = .uninit) : exec i s = .next t := by
  rw [exec_writer hi ha hw hm, hrun]
  simp [Run.withAccs, ht]

theorem exec_writer_stop {i : Instr} {s : State} {f : Fault} (hi : isWriter i = true) (ha : i = .writeAlignBits → AccOk s.acc)
    (hw : i.wellFormed = true) (hm : s.mode = .ready) (hrun : writeAll (emitted s.params.alignOnBoundary s.acc i) s = .stop f) :
    exec i s = .fault f := by
  rw [exec_writer hi ha hw hm, hrun]; rfl

/-- The drain after `accepted` is answered and a reset follows. -/
theorem writer_abandoned {i : Instr} {s : State} {accepted rest : List Answer} {k : Nat} (hinv : s.Inv)
    (hm : s.mode = .ready) (hw : i.wellFormed = true) (hs : s.env.sinkAnswers = accepted ++ .takeThenReset k :: rest)
    (haccepted : ∀ a ∈ accepted, a.acceptsAll s.out.cap.toNat = true)
    (hlen : (accepted.length + 1) * s.out.cap.toNat ≤
      s.out.pos.toNat + (emitted s.params.alignOnBoundary s.acc i).length) :
    ∃ t, exec i s = .next t ∧ Abandoned s t ∧ t.env.sinkAnswers = rest ∧
      t.env.sink = s.env.sink ++ (s.buffered ++ emitted s.params.alignOnBoundary s.acc i).take
        (accepted.length * s.out.cap.toNat + min k s.out.cap.toNat) := by
  have hroom := (hinv.ready hm).1
  obtain ⟨v, u, hcut, hx, hleft⟩ := writeAll_cut_at hroom hs haccepted rfl hlen
  rcases hcut.cases with ⟨h, _⟩ | ⟨h, _⟩ | ⟨j, h, e⟩ | ⟨_, h, _⟩ <;> rw [hx] at h <;> cases h
  refine ⟨_, exec_writer_reset (isWriter_of_fills hroom hlen) (fun _ => hinv.acc) hw hm e rfl,
    (writeAll_endedInside e).abandoned rfl, by simp [hleft], hcut.sink (Nat.min_le_right _ _)⟩

/-- Settles O9: each command with transactions runs to the transaction that the reset follows. -/
theorem resetInsideCommandAbandonsIt : Obligations.ResetInsideCommandAbandonsIt := by
  refine ⟨fun i s accepted rest k => writer_abandoned, fun i s k hi hm hne hle ha => ?_, fun s k hm ha => ?_,
    fun s k rest hm hd ha hk hfile hseek => ?_⟩
  · have e := drainOr_of_takeThenReset (kind := .shortWriteError) hne hle ha
    have htake : s.buffered.take (min k s.out.pos.toNat) = s.buffered.take k := by
      rw [← buffered_length s, ← List.take_eq_take_min]
    exact ⟨_, exec_drain_ended hi hm e, (drainOr_ended e).abandoned rfl, congrArg (s.env.sink ++ ·) htake⟩
  · have e : refill s = .ended (resetBlock (received k s)) := by simp [refill, ha, received]
    exact ⟨_, by rw [exec_refillIn, accept_runs _ rfl hm, e]; rfl, (refill_ended e).abandoned rfl, rfl,
      congrArg (s.env.srcPos + ·) (sourceData_length s _ k)⟩
  · have e : refill s = .ended (resetBlock (soughtBack (rewindIn (received k s)))) := by
      rw [refill_of_full ha hk hfile, debugSeek_of_seekResets (s := rewindIn (received k s)) hd hseek]; rfl
    refine ⟨_, by rw [exec_refillIn, accept_runs _ rfl hm, e]; rfl, (refill_ended e).abandoned rfl, rfl, ?_⟩
    simp [soughtBack, received, sourceData_full hk, rewindDelta]

/-! ## Hung -/

/-- The drain after `accepted` is not answered. -/
theorem writer_hangs {i : Instr} {s : State} {accepted rest : List Answer} (hinv : s.Inv) (hm : s.mode = .ready)
    (hw : i.wellFormed = true) (hs : s.env.sinkAnswers = accepted ++ .never :: rest)
    (haccepted : ∀ a ∈ accepted, a.acceptsAll s.out.cap.toNat = true)
    (hlen : (accepted.length + 1) * s.out.cap.toNat ≤
      s.out.pos.toNat + (emitted s.params.alignOnBoundary s.acc i).length) :
    Hangs i s ((s.buffered ++ emitted s.params.alignOnBoundary s.acc i).take (accepted.length * s.out.cap.toNat)) := by
  have hroom := (hinv.ready hm).1
  have hi := isWriter_of_fills hroom hlen
  obtain ⟨v, u, hcut, hx, hleft⟩ := writeAll_cut_at hroom hs haccepted rfl hlen
  obtain ⟨_, _, _, hd⟩ := hcut.split
  have hcome : u.resetToCome = s.resetToCome := congrArg (List.any · _) hd.port
  have hport : u.portFromReset = s.portFromReset := congrArg (List.dropWhile _) hd.port
  rcases hcut.cases with ⟨_, hr, e⟩ | ⟨_, hr, e⟩ | ⟨_, h, _⟩ | ⟨_, h, _⟩
  · exact ⟨fun _ => exec_writer_stop hi (fun _ => hinv.acc) hw hm e, fun h => by simp [← hcome, hr] at h⟩
  · refine ⟨fun h => by simp [← hcome, hr] at h, fun _ => ⟨_, exec_writer_reset hi (fun _ => hinv.acc) hw hm e rfl,
      (writeAll_endedInside e).abandoned rfl, ?_, congrArg List.tail hport⟩⟩
    exact hcut.sink (Nat.zero_le _)
  · rw [hx] at h; cases h
  · rw [hx] at h; cases h

/-- Settles O10: each command with answered transactions runs to the one that is not answered. -/
theorem unansweredTransactionHangsTheBlock : Obligations.UnansweredTransactionHangsTheBlock := by
  refine ⟨fun i s accepted rest => writer_hangs, fun i s hi hm hne hle ha => ?_, fun s hm ha => ?_⟩
  · have e := drainOr_of_never (kind := .shortWriteError) hne hle ha
    refine ⟨fun hr => exec_drain_stop hi hm ?_, fun hr => ?_⟩
    · rw [e, hr]; rfl
    · rw [hr, if_pos rfl] at e
      exact ⟨_, exec_drain_ended hi hm e, (drainOr_ended e).abandoned rfl, by simp, rfl⟩
  · refine ⟨fun hr => ?_, fun hr => ?_⟩
    · rw [exec_refillIn, accept_runs _ rfl hm]; simp [refill, ha, hr]
    · have e : refill s = .ended (resetWhileHung (receive [] (clearIn s.popSource))) := by simp [refill, ha, hr]
      exact ⟨_, by rw [exec_refillIn, accept_runs _ rfl hm, e]; rfl, (refill_ended e).abandoned rfl, by simp, rfl⟩

/-! ## Completed -/

/-- A sink that accepts everything lets the buffer be drained. -/
theorem drainOr_completes {kind : FaultKind} {s : State} (hle : s.out.pos.toNat ≤ s.out.cap.toNat) (hs : s.SinkAcceptsAll) :
    ∃ t, drainOr kind s = .ok t := by
  by_cases hne : s.out.pos = 0
  · exact ⟨s, drainOr_of_empty hne⟩
  · obtain ⟨hlen, haccept⟩ := hs
    cases hl : s.env.sinkAnswers with
    | nil => simp [hl] at hlen
    | cons a rest =>
      have ha : s.sinkAnswer = a := by simp [State.sinkAnswer, hl]
      have hall : a.acceptsAll s.out.cap.toNat = true := haccept a (by simp [hl])
      cases a with
      | take k =>
        have hk : s.out.cap.toNat ≤ k := by simpa [Answer.acceptsAll] using hall
        exact ⟨_, drainOr_of_take hne hle ha (Nat.le_trans hle hk)⟩
      | takeThenReset k => cases hall
      | never => cases hall

theorem completedDone_complete (s : State) : (s.complete .done).completedDone := by simp [State.completedDone]

/-- Settles O49: the sink takes the at most four buffers that a writer fills, or the one that is drained; what stored the
bytes changed nothing else. -/
theorem commandsCompleteAndStreamGrows : Obligations.CommandsCompleteAndStreamGrows := by
  intro i s hinv hm haccept hw hinit hrefill
  have hnone : s.fault = none := hinv.fault_eq_none (by simp [hm])
  have hwriter (hi : isWriter i = true) : ∃ t, Stored (emitted s.params.alignOnBoundary s.acc i) s t ∧
      exec i s = .next ((setAcc (accWhenDone i s) t).complete .done) := by
    obtain ⟨_, t, e, ht⟩ := writeAll_completes (hinv.ready hm).1 (emitted_length_le s.params.alignOnBoundary s.acc i) haccept
    exact ⟨t, ht.toStored, by rw [exec_writer hi (fun _ => hinv.acc) hw hm, e]; rfl⟩
  obtain ⟨u, hu⟩ := drainOr_completes (kind := .shortWriteError) hinv.outPos haccept
  obtain ⟨hstored, _⟩ := drainOr_eq_ok hu
  cases i with
  | init a b => exact absurd rfl (hinit a b)
  | refillIn => exact absurd rfl hrefill
  | destroy =>
    refine ⟨State.complete .done { u with mode := .uninit }, ?_, completedDone_complete _, hstored.stream, hstored.inp,
      hstored.fault.trans hnone, hstored.hooks, hstored.params, hstored.cap, rfl, hstored.acc⟩
    rw [exec_destroy, accept_runs _ rfl hm, destroyBody, hu]; rfl
  | drainOut =>
    refine ⟨u.complete .done, ?_, completedDone_complete _, hstored.stream, hstored.inp, hstored.fault.trans hnone,
      hstored.hooks, hstored.params, hstored.cap, hstored.mode.trans hm, hstored.acc⟩
    rw [exec_drainOut, accept_runs _ rfl hm, hu]; rfl
  | writeByte | writeWord | writeMarker | writeBits | writeAlignBits =>
    obtain ⟨t, ht, e⟩ := hwriter rfl
    exact ⟨_, e, completedDone_complete _, ht.stream, ht.inp, ht.fault.trans hnone, ht.hooks, ht.params, ht.cap,
      ht.mode.trans hm, rfl⟩

/-- Settles O44: WRITE_ALIGN_BITS is one of the commands that complete. -/
theorem alignEmitsTableBytes : Obligations.AlignEmitsTableBytes := by
  intro s hinv hm haccept
  obtain ⟨t, e, hdone, hstream, _, _, _, _, _, hmode, hacc⟩ :=
    commandsCompleteAndStreamGrows .writeAlignBits s hinv hm haccept rfl (fun _ _ => by simp) (by simp)
  exact ⟨t, e, hdone, hmode, hacc, hstream⟩

/-! ## Ended by a BufferWriteError -/

/-- Only a legal writer in READY ends in a `BufferWriteError` that was not held before. -/
theorem writer_of_bufferWriteError {i : Instr} {s t : State} (h : exec i s = .next t) (hnone : s.fault = none)
    (hfault : t.fault = some .bufferWriteError) : isWriter i = true ∧ i.wellFormed = true := by
  rcases accept_next (exec_eq_accept i s ▸ h) with ⟨hm, hw, _⟩ | ⟨_, _, rfl⟩
  · refine ⟨?_, hw⟩
    have hkind : bodyFault i = .bufferWriteError := by
      rcases exec_fault hw hm h with hf | hf | hf <;> rw [hfault] at hf
      · rw [hnone] at hf; cases hf
      · cases hf
      · exact (Option.some.inj hf).symm
    cases i with
    | init | destroy | refillIn | drainOut => cases hkind
    | _ => rfl
  · cases hfault

/-- A writer that ended in a `BufferWriteError` was cut at a byte whose drain the sink took in part. -/
theorem writer_bufferWriteError {i : Instr} {s t : State} (hinv : s.Inv) (hm : s.mode = .ready) (h : exec i s = .next t)
    (hfault : t.fault = some .bufferWriteError) :
    ∃ n v u k, CutAt n (emitted s.params.alignOnBoundary s.acc i) v s u ∧ k < s.out.cap.toNat ∧ t = setAcc (accWhenCut i s)
      (raise .bufferWriteError (sinkWrite (u.buffered ++ [v]) k (pushByte v u).popSink)) := by
  have hnone : s.fault = none := hinv.fault_eq_none (by simp [hm])
  obtain ⟨hi, hw⟩ := writer_of_bufferWriteError h hnone hfault
  rw [exec_writer hi (fun _ => hinv.acc) hw hm] at h
  rcases writeAll_ends (emitted s.params.alignOnBoundary s.acc i) (hinv.ready hm).1 with ⟨_, w, e, hd⟩ | ⟨n, v, u, hcut⟩
  · rw [e] at h
    cases h
    cases hfault.symm.trans (hd.fault.trans hnone)
  · rcases hcut.cases with ⟨_, _, e⟩ | ⟨_, _, e⟩ | ⟨_, _, e⟩ | ⟨k, _, hk, e⟩ <;> rw [e] at h <;> cases h
    · cases hfault
    · cases hfault
    · exact ⟨n, v, u, k, hcut, hk, rfl⟩

/-- Settles O57: the byte at which the run was cut stands in the full buffer, after the bytes stored before it. -/
theorem bufferWriteErrorPartialEffects : Obligations.BufferWriteErrorPartialEffects := by
  intro i s t hinv hm h hfault
  obtain ⟨n, v, u, k, hcut, hk, rfl⟩ := writer_bufferWriteError hinv hm h hfault
  obtain ⟨pre, post, hsplit, hd⟩ := hcut.split
  have hpos : (pushByte v u).out.pos = u.out.cap := BitVec.eq_of_toNat_eq ((pos_succ hcut.lt).trans hcut.full)
  have hbuffered : (pushByte v u).buffered = u.buffered ++ [v] := buffered_pushByte v hcut.lt
  refine ⟨hpos, hd.cap, hd.inp, ⟨pre.length + 1, k, u.env.sink, hk, ?_, ?_⟩, rfl⟩
  · have htake : (emitted s.params.alignOnBoundary s.acc i).take (pre.length + 1) = pre ++ [v] := by
      rw [hsplit, List.take_length_add_append]; rfl
    calc s.stream ++ (emitted s.params.alignOnBoundary s.acc i).take (pre.length + 1)
        = (s.stream ++ pre) ++ [v] := by rw [htake, List.append_assoc]
      _ = u.env.sink ++ (pushByte v u).buffered := by
        rw [← hd.stream, State.stream, List.append_assoc, hbuffered]
  · exact congrArg (fun l => u.env.sink ++ l.take k) hbuffered.symm

end Sys2Proof.Machine
end

section
/-! What each command says on the ports (20_memory.md R59, R62, R65, 70_reset_and_hazards.md R175): the events of a command are
those of its own procedure, and the sink transactions among them are bounded. -/

namespace Sys2Proof.Machine

/-! ## The events of a command -/

/-- From `s` to `t` the ports said events that meet `P`, and nothing else. -/
def Says (P : PortEvent → Prop) (s t : State) : Prop := ∃ l, t.env.log = s.env.log ++ l ∧ ∀ e ∈ l, P e

theorem Says.of_log_eq {P : PortEvent → Prop} {s t : State} (h : t.env.log = s.env.log) : Says P s t :=
  ⟨[], by simp [h], by simp⟩

theorem Says.refl {P : PortEvent → Prop} (s : State) : Says P s s := .of_log_eq rfl

theorem Says.trans {P : PortEvent → Prop} {s t u : State} (h : Says P s t) (h' : Says P t u) : Says P s u := by
  obtain ⟨l, hl, hP⟩ := h
  obtain ⟨m, hm, hP'⟩ := h'
  exact ⟨l ++ m, by rw [hm, hl, List.append_assoc], fun e he => (List.mem_append.1 he).elim (hP e) (hP' e)⟩

theorem Says.mono {P Q : PortEvent → Prop} {s t : State} (h : Says P s t) (hpq : ∀ e, P e → Q e) : Says Q s t := by
  obtain ⟨l, hl, hP⟩ := h
  exact ⟨l, hl, fun e he => hpq e (hP e he)⟩

/-- One event. -/
theorem Says.event {P : PortEvent → Prop} {s t : State} {e : PortEvent} (h : t.env.log = s.env.log ++ [e]) (he : P e) :
    Says P s t :=
  ⟨[e], h, by simpa using he⟩

/-- The events of a drain: sink transactions in bounds (R59), and the end of the command. -/
def DrainEvent (cap : Nat) (e : PortEvent) : Prop := e.isSource = false ∧ e.sinkWriteOk cap

/-- The events of a refill: the read, the seek in the debug mode (R62, R105), and the end of the command. -/
def RefillEvent (debug : Bool) : PortEvent → Prop
  | .sinkWrite _ _ => False
  | .sourceRead _ _ => True
  | .sourceSeek _ => debug = true
  | .hook _ => True
  | .completed _ => True

/-- The events of INIT: the end of the command (R90). -/
def InitEvent (e : PortEvent) : Prop := RefillEvent false e ∧ e.isSource = false

/-- Fault entry says the hook and the completion, and no transaction (R148). -/
theorem raise_says {P : PortEvent → Prop} (kind : FaultKind) (s : State) (hh : P (.hook kind)) (hc : P (.completed .fault)) :
    Says P s (raise kind s) :=
  ⟨[.hook kind, .completed .fault], rfl, by simp [hh, hc]⟩

theorem raise_says_drainEvent (cap : Nat) (kind : FaultKind) (s : State) : Says (DrainEvent cap) s (raise kind s) :=
  raise_says kind s ⟨rfl, trivial⟩ ⟨rfl, trivial⟩

theorem Stored.says {bs : List Byte} {s t : State} (h : Stored bs s t) : Says (DrainEvent s.out.cap.toNat) s t := by
  obtain ⟨l, hl, _, honly⟩ := h.log
  exact ⟨l, hl, honly.facts.2⟩

/-- A sink transaction of one to `cap` bytes, answered with at most as many. -/
theorem sinkWrite_says {cap k : Nat} {bs : List Byte} (s : State) (h1 : 1 ≤ bs.length) (hcap : bs.length ≤ cap)
    (hk : k ≤ bs.length) : Says (DrainEvent cap) s (sinkWrite bs k s.popSink) :=
  .event rfl ⟨rfl, h1, hcap, hk⟩

/-- The run says events that meet `P`, however it ends. -/
def Run.Says (P : PortEvent → Prop) (s : State) (r : Run) : Prop :=
  r.Sat (Machine.Says P s) (Machine.Says P s) fun _ => True

theorem drainOr_says (kind : FaultKind) (s : State) : (drainOr kind s).Says (DrainEvent s.out.cap.toNat) s := by
  have hwrite (k : Nat) (hne : s.out.pos ≠ 0#14) (hle : s.out.pos ≤ s.out.cap) (hk : k ≤ s.out.pos.toNat) :
      Says (DrainEvent s.out.cap.toNat) s (sinkWrite s.buffered k s.popSink) := by
    have h1 : s.out.pos.toNat ≠ 0 := fun h => hne (BitVec.eq_of_toNat_eq h)
    refine sinkWrite_says s ?_ ?_ ?_ <;> rw [buffered_length]
    · omega
    · exact hle
    · exact hk
  rcases drainOr_cases kind s with ⟨_, e⟩ | ⟨_, e⟩ |
    ⟨hne, hle, ⟨_, _, e⟩ | ⟨_, _, e⟩ | ⟨k, _, e⟩ | ⟨k, _, hk, e⟩ | ⟨_, _, _, e⟩⟩ <;> rw [e]
  · exact .refl _
  · trivial
  · trivial
  · exact hwrite 0 hne hle (Nat.zero_le _)
  · exact hwrite _ hne hle (Nat.min_le_right _ _)
  · exact (hwrite k hne hle (Nat.le_of_lt hk)).trans (raise_says_drainEvent _ _ _)
  · exact hwrite _ hne hle (Nat.le_refl _)

theorem writeByte_says (v : Byte) (s : State) : (writeByte v s).Says (DrainEvent s.out.cap.toNat) s := by
  unfold writeByte
  split
  · split
    · exact drainOr_says .bufferWriteError (pushByte v s)
    · exact .refl _
  · trivial

theorem writeAll_says (bs : List Byte) (s : State) : (writeAll bs s).Says (DrainEvent s.out.cap.toNat) s := by
  rcases writeAll_cases bs s with ⟨t, e, ht⟩ | ⟨_, v, _, u, _, hu, _, e, _⟩ <;> rw [e]
  · exact ht.says
  · have hlast := writeByte_says v u
    rw [hu.cap] at hlast
    exact hlast.mono (fun _ => hu.says.trans) (fun _ => hu.says.trans) fun _ h => h

/-- A procedure under way keeps the capacity, so what follows it drains within the same bounds. -/
theorem Run.Says.andThen_drains {s : State} {r : Run} {f : State → Run} (hr : r.Says (DrainEvent s.out.cap.toNat) s)
    (hproper : r.Proper s) (hf : ∀ t, (f t).Says (DrainEvent t.out.cap.toNat) t) :
    (r.andThen f).Says (DrainEvent s.out.cap.toNat) s := by
  cases r with
  | ok t =>
    have hnext := hf t
    rw [Underway.outCap hproper] at hnext
    exact hnext.mono (fun _ => Says.trans hr) (fun _ => Says.trans hr) fun _ h => h
  | ended t => exact hr
  | stop f => trivial

theorem writeBits_says (len : Nat) (val : Word) (s : State) :
    (writeBits len val s).Says (DrainEvent s.out.cap.toNat) s := by
  rw [writeBits_eq]
  exact Run.Sat.andThen (writeAll_says _ s) fun _ ht => ht

theorem flushByte_says (s : State) : (flushByte s).Says (DrainEvent s.out.cap.toNat) s := by
  rw [flushByte_eq]
  split
  · exact Run.Sat.andThen (writeAll_says _ s) fun _ ht => ht
  · exact .refl s

theorem debugSeek_says (s : State) : (debugSeek s).Says (RefillEvent s.params.reversedDebug) s := by
  rcases debugSeek_cases s with ⟨_, e⟩ | ⟨hd, _, e⟩ | ⟨hd, _, e⟩ <;> rw [e]
  · exact .refl _
  · exact .event rfl hd
  · exact .event rfl hd

theorem refill_says (s : State) : (refill s).Says (RefillEvent s.params.reversedDebug) s := by
  have hread (data : List Byte) : Says (RefillEvent s.params.reversedDebug) s (receive data (clearIn s.popSource)) :=
    .event rfl trivial
  rcases refill_cases s with ⟨_, _, e⟩ | ⟨_, _, e⟩ | ⟨k, _, e⟩ | ⟨k, _, _, e⟩ | ⟨k, _, _, _, e⟩ <;> rw [e]
  · trivial
  · exact hread []
  · exact hread _
  · exact (hread _).trans (raise_says _ _ trivial trivial)
  · exact (debugSeek_says (rewindIn (received k s))).mono (fun _ => (hread _).trans) (fun _ => (hread _).trans) fun _ h => h

/-- The events that a command may say. -/
def CommandEvent (i : Instr) (s : State) : PortEvent → Prop :=
  match i with
  | .init _ _ => InitEvent
  | .destroy => DrainEvent s.out.cap.toNat
  | .writeByte _ => DrainEvent s.out.cap.toNat
  | .writeWord _ => DrainEvent s.out.cap.toNat
  | .writeMarker _ => DrainEvent s.out.cap.toNat
  | .writeBits _ _ => DrainEvent s.out.cap.toNat
  | .writeAlignBits => DrainEvent s.out.cap.toNat
  | .refillIn => RefillEvent s.params.reversedDebug
  | .drainOut => DrainEvent s.out.cap.toNat

theorem commandEvent_hook (i : Instr) (s : State) (kind : FaultKind) : CommandEvent i s (.hook kind) := by
  cases i with
  | init => exact ⟨trivial, rfl⟩
  | refillIn => trivial
  | _ => exact ⟨rfl, trivial⟩

theorem commandEvent_completed (i : Instr) (s : State) (c : Completion) : CommandEvent i s (.completed c) := by
  cases i with
  | init => exact ⟨trivial, rfl⟩
  | refillIn => trivial
  | _ => exact ⟨rfl, trivial⟩

theorem bodyOf_says (i : Instr) (s : State) : (bodyOf i s).Says (CommandEvent i s) s := by
  cases i with
  | init a b =>
    rcases initBody_cases a b s with ⟨_, e⟩ | ⟨_, _, e⟩ <;> rw [bodyOf, e]
    · exact raise_says _ s ⟨trivial, rfl⟩ ⟨trivial, rfl⟩
    · exact .of_log_eq rfl
  | destroy => exact Run.Sat.andThen (drainOr_says .shortWriteError s) fun _ ht => ht
  | writeByte v => exact writeByte_says v s
  | writeWord v => rw [bodyOf, writeTwo_eq]; exact writeAll_says _ s
  | writeMarker code => rw [bodyOf, writeTwo_eq]; exact writeAll_says _ s
  | writeBits len val => exact writeBits_says len.toNat val s
  | writeAlignBits => exact (writeBits_says _ _ s).andThen_drains (writeBits_proper _ _ s) flushByte_says
  | refillIn => exact refill_says s
  | drainOut => exact drainOr_says .shortWriteError s

/-- A command says the events of its procedure, its completion, or those of fault entry. -/
theorem exec_says {i : Instr} {s t : State} (h : exec i s = .next t) : Says (CommandEvent i s) s t := by
  rcases accept_next (exec_eq_accept i s ▸ h) with ⟨_, _, hrun⟩ | ⟨_, _, rfl⟩
  · have hbody := bodyOf_says i s
    rcases outcome_eq_next.1 hrun with ⟨u, hu, rfl⟩ | hu <;> rw [hu] at hbody
    · exact Says.trans hbody (.event rfl (commandEvent_completed i s .done))
    · exact hbody
  · exact raise_says _ s (commandEvent_hook i s _) (commandEvent_completed i s _)

/-! ## What follows from the events -/

theorem RefillEvent.not_sinkWrite {debug : Bool} {e : PortEvent} (h : RefillEvent debug e) (bs : List Byte) (k : Nat) :
    e ≠ .sinkWrite bs k := fun he => by rw [he] at h; exact h

theorem sinkWriteOk_of_not_sinkWrite {e : PortEvent} (cap : Nat) (h : ∀ bs k, e ≠ .sinkWrite bs k) : e.sinkWriteOk cap := by
  cases e with
  | sinkWrite bs k => exact absurd rfl (h bs k)
  | _ => trivial

theorem countSinkWrites_eq_zero {l : List PortEvent} (h : ∀ e ∈ l, ∀ bs k, e ≠ .sinkWrite bs k) : countSinkWrites l = 0 := by
  induction l with
  | nil => rfl
  | cons e l ih =>
    have hl := ih fun e he => h e (List.mem_cons_of_mem _ he)
    cases e with
    | sinkWrite bs k => exact absurd rfl (h _ List.mem_cons_self bs k)
    | _ => exact hl

section CommandEvents

variable {i : Instr} {s : State} {e : PortEvent} (he : CommandEvent i s e)
include he

theorem CommandEvent.not_sinkWrite (hi : i = .refillIn ∨ ∃ a b, i = .init a b) (bs : List Byte) (k : Nat) :
    e ≠ .sinkWrite bs k := by
  rcases hi with rfl | ⟨a, b, rfl⟩
  · exact RefillEvent.not_sinkWrite he bs k
  · exact RefillEvent.not_sinkWrite he.1 bs k

theorem CommandEvent.sinkWriteOk : e.sinkWriteOk s.out.cap.toNat := by
  cases i with
  | init a b => exact sinkWriteOk_of_not_sinkWrite _ (CommandEvent.not_sinkWrite he (.inr ⟨a, b, rfl⟩))
  | refillIn => exact sinkWriteOk_of_not_sinkWrite _ (CommandEvent.not_sinkWrite he (.inl rfl))
  | _ => exact he.2

theorem CommandEvent.isSource (hi : i ≠ .refillIn) : e.isSource = false := by
  cases i with
  | init a b => exact he.2
  | refillIn => exact absurd rfl hi
  | _ => exact he.1

theorem CommandEvent.not_seek (hdebug : s.params.reversedDebug = false) (d : Int) : e ≠ .sourceSeek d := by
  rintro rfl
  by_cases hi : i = .refillIn
  · subst hi
    cases hdebug.symm.trans he
  · cases CommandEvent.isSource he hi

end CommandEvents

/-- Settles O51: the bound is in each event that the command may say. -/
theorem sinkTransactionsInBounds : Obligations.SinkTransactionsInBounds := fun _ _ _ _ h =>
  (exec_says h).mono fun _ => CommandEvent.sinkWriteOk

/-- Settles O52: no other event is one that the command may say. -/
theorem portsAreUsedOnlyByTheirCommands : Obligations.PortsAreUsedOnlyByTheirCommands := by
  intro i s t h
  obtain ⟨l, hl, he⟩ := exec_says h
  exact ⟨l, hl, fun hi e hmem => (he e hmem).isSource hi, fun hdebug d hmem => (he _ hmem).not_seek hdebug d rfl,
    fun hi => countSinkWrites_eq_zero fun e hmem => (he e hmem).not_sinkWrite hi⟩

/-! ## How many sink transactions -/

/-- At most four sink transactions, more than two only with a capacity of 1 (R175). -/
def FewWrites (cap n : Nat) : Prop := n ≤ 4 ∧ (cap ≠ 1 → n ≤ 2)

/-- From `s` to `t` the ports said few sink transactions. -/
def SaysFew (s t : State) : Prop := ∃ l, t.env.log = s.env.log ++ l ∧ FewWrites s.out.cap.toNat (countSinkWrites l)

theorem SaysFew.of_one {s t : State} {l : List PortEvent} (h : t.env.log = s.env.log ++ l) (hl : countSinkWrites l ≤ 1) :
    SaysFew s t :=
  ⟨l, h, Nat.le_trans hl (by decide), fun _ => Nat.le_trans hl (by decide)⟩

/-- A completion is no sink transaction. -/
theorem SaysFew.complete {s t : State} (h : SaysFew s t) (c : Completion) : SaysFew s (t.complete c) := by
  obtain ⟨l, hl, hfew⟩ := h
  exact ⟨l ++ [.completed c], by simp [hl], by simpa [countSinkWrites] using hfew⟩

theorem drainOr_saysFew (kind : FaultKind) (s : State) : (drainOr kind s).Sat (SaysFew s) (SaysFew s) fun _ => True := by
  rcases drainOr_cases kind s with ⟨_, e⟩ | ⟨_, e⟩ |
    ⟨_, _, ⟨_, _, e⟩ | ⟨_, _, e⟩ | ⟨k, _, e⟩ | ⟨k, _, _, e⟩ | ⟨_, _, _, e⟩⟩ <;> rw [e]
  · exact .of_one (l := []) (by simp) (by decide)
  · trivial
  · trivial
  · exact .of_one (l := [.sinkWrite s.buffered 0]) rfl (by simp [countSinkWrites])
  · exact .of_one (l := [.sinkWrite s.buffered (min k s.out.pos.toNat)]) rfl (by simp [countSinkWrites])
  · exact .of_one (l := [.sinkWrite s.buffered k, .hook kind, .completed .fault]) (by simp) (by simp [countSinkWrites])
  · exact .of_one (l := [.sinkWrite s.buffered s.out.pos.toNat]) rfl (by simp [countSinkWrites])

/-- At most four bytes stored make few sink transactions: one per full buffer, that at which the run was cut included. -/
theorem writeAll_saysFew {bs : List Byte} {s : State} (hroom : s.out.pos.toNat < s.out.cap.toNat) (hlen : bs.length ≤ 4) :
    (writeAll bs s).Sat (SaysFew s) (SaysFew s) fun _ => True := by
  rcases writeAll_ends bs hroom with ⟨n, t, e, hd⟩ | ⟨n, v, u, hcut⟩
  · rw [e]
    obtain ⟨l, hl, hn⟩ := hd.writes
    have hcount := hd.count
    exact ⟨l, hl, drains_le hroom hlen (by rw [hn]; omega)⟩
  · obtain ⟨pre, post, _, hd⟩ := hcut.split
    obtain ⟨l, hl, hn⟩ := hd.writes
    have hfew (k : Nat) : FewWrites s.out.cap.toNat (countSinkWrites (l ++ [.sinkWrite (u.buffered ++ [v]) k])) := by
      simpa [countSinkWrites, hn, FewWrites] using drains_le hroom hlen hcut.count
    rcases hcut.cases with ⟨_, _, e⟩ | ⟨_, _, e⟩ | ⟨k, _, e⟩ | ⟨k, _, _, e⟩ <;> rw [e]
    · trivial
    · exact ⟨_, by simp [hl], hfew 0⟩
    · exact ⟨l ++ [.sinkWrite (u.buffered ++ [v]) (min k s.out.cap.toNat)], by simp [hl], hfew _⟩
    · exact ⟨l ++ [.sinkWrite (u.buffered ++ [v]) k] ++ [.hook .bufferWriteError, .completed .fault], by simp [hl],
        by simpa [countSinkWrites] using hfew k⟩

/-- INIT and REFILL_IN make no sink transaction. -/
theorem saysFew_of_none {i : Instr} {s t : State} (h : exec i s = .next t) (hi : i = .refillIn ∨ ∃ a b, i = .init a b) :
    SaysFew s t := by
  obtain ⟨l, hl, _, _, hnone⟩ := portsAreUsedOnlyByTheirCommands i s t h
  exact .of_one hl (by rw [hnone hi]; decide)

/-- A writer or a drain in READY makes few sink transactions, however it ends. -/
theorem bodyOf_saysFew {i : Instr} {s : State} (hinv : s.Inv) (hm : s.mode = .ready) (hinit : ∀ a b, i ≠ .init a b)
    (hrefill : i ≠ .refillIn) : (bodyOf i s).Sat (SaysFew s) (SaysFew s) fun _ => True := by
  have hwriter (hi : isWriter i = true) : (bodyOf i s).Sat (SaysFew s) (SaysFew s) fun _ => True := by
    rw [bodyOf_writer hi fun _ => hinv.acc]
    exact (writeAll_saysFew (hinv.ready hm).1 (emitted_length_le _ _ i)).withAccs (fun _ h => h) (fun _ h _ => h)
      fun _ h _ => h
  cases i with
  | init a b => exact absurd rfl (hinit a b)
  | refillIn => exact absurd rfl hrefill
  | destroy => exact Run.Sat.andThen (drainOr_saysFew .shortWriteError s) fun _ h => h
  | drainOut => exact drainOr_saysFew .shortWriteError s
  | writeByte | writeWord | writeMarker | writeBits | writeAlignBits => exact hwriter rfl

theorem exec_saysFew {i : Instr} {s t : State} (hinv : s.Inv) (h : exec i s = .next t) : SaysFew s t := by
  by_cases hnone : i = .refillIn ∨ ∃ a b, i = .init a b
  · exact saysFew_of_none h hnone
  · obtain ⟨hrefill, hinit⟩ := not_or.1 hnone
    have hinit : ∀ a b, i ≠ .init a b := fun a b hi => hinit ⟨a, b, hi⟩
    rcases accept_next (exec_eq_accept i s ▸ h) with ⟨hm, _, hrun⟩ | ⟨_, _, rfl⟩
    · have hbody := bodyOf_saysFew hinv (hm.trans (requiredMode_not_init hinit)) hinit hrefill
      rcases outcome_eq_next.1 hrun with ⟨u, hu, rfl⟩ | hu <;> rw [hu] at hbody
      · exact SaysFew.complete hbody .done
      · exact hbody
    · exact .of_one (l := [.hook .illegalCommand, .completed .fault]) rfl (by decide)

/-- Settles O53: INIT and REFILL_IN make none, DESTROY and DRAIN_OUT one, a writer one per full buffer. -/
theorem atMostFourDrainsPerCommand : Obligations.AtMostFourDrainsPerCommand := fun _ _ _ hinv h => exec_saysFew hinv h

end Sys2Proof.Machine
end

section
/-! The writers with room in the buffer, and WRITE_BYTE at its last offset (42_primitive_writers.md R110 to R113, 43_bit_writer.md
R121, R126): the exact next state. WRITE_WORD and WRITE_MARKER as two WRITE_BYTEs (30_encoding.md R84). -/

namespace Sys2Proof.Machine

/-! ## With room for all bytes -/

/-- The state after a writer whose bytes have room: they stand from the cursor on, `ACC` is written, the command completed. -/
def storedAtCursor (a : Acc) (bytes : List Byte) (s : State) : State :=
  { s with
    acc := a
    out := { s.out with
      pos := s.out.pos + BitVec.ofNat 14 bytes.length
      mem := Memory.store s.out.mem s.out.pos.toNat bytes }
    env := { s.env with log := s.env.log ++ [.completed .done] } }

/-- The bytes with room in the buffer are stored with no transaction. -/
theorem exec_writer_room {i : Instr} {s : State} (hi : isWriter i = true) (ha : i = .writeAlignBits → AccOk s.acc)
    (hw : i.wellFormed = true) (hm : s.mode = .ready)
    (hroom : s.out.pos.toNat + (emitted s.params.alignOnBoundary s.acc i).length < s.out.cap.toNat) :
    exec i s = .next (storedAtCursor (accWhenDone i s) (emitted s.params.alignOnBoundary s.acc i) s) := by
  rw [exec_writer hi ha hw hm, writeAll_room hroom]; rfl

theorem read_storedAtCursor (acc : Acc) (bytes : List Byte) (s : State) (a : Nat) :
    Memory.read (storedAtCursor acc bytes s).out.mem a =
      if s.out.pos.toNat ≤ a ∧ a < s.out.pos.toNat + bytes.length then bytes[a - s.out.pos.toNat]?
      else Memory.read s.out.mem a :=
  read_store bytes s.out.mem s.out.pos.toNat a

/-- Two bytes at the cursor, offset by offset. -/
theorem read_two_at (b1 b2 : Byte) (m : Memory) (p a : Nat) :
    (if p ≤ a ∧ a < p + [b1, b2].length then [b1, b2][a - p]? else Memory.read m a) =
      if a = p then some b1 else if a = p + 1 then some b2 else Memory.read m a := by
  by_cases h0 : a = p
  · simp [h0]
  · by_cases h1 : a = p + 1
    · simp [h1]
    · rw [if_neg h0, if_neg h1, if_neg (by simp; omega)]

/-- Settles O30: one byte with room. -/
theorem writeByteStoresAtCursor : Obligations.WriteByteStoresAtCursor := by
  intro v s hm hroom
  refine ⟨_, exec_writer_room (i := .writeByte v) rfl (by simp) rfl hm hroom, rfl, fun a => ?_⟩
  rw [read_storedAtCursor]
  by_cases h : a = s.out.pos.toNat
  · simp [h, emitted]
  · rw [if_neg h, if_neg (by simp [emitted]; omega)]

/-- Settles O33: two bytes with room, the high one first. -/
theorem writeWordIsBigEndian : Obligations.WriteWordIsBigEndian := by
  intro v s hm hroom
  refine ⟨_, exec_writer_room (i := .writeWord v) rfl (by simp) rfl hm hroom, rfl, fun a => ?_⟩
  rw [read_storedAtCursor]
  exact read_two_at (hi8 v) (lo8 v) s.out.mem _ a

/-- Settles O34: two bytes with room, whatever `ACC` holds. -/
theorem writeMarkerIsLiteral : Obligations.WriteMarkerIsLiteral := by
  intro code s hm hroom
  refine ⟨_, exec_writer_room (i := .writeMarker code) rfl (by simp) rfl hm hroom, rfl, fun a => ?_⟩
  rw [read_storedAtCursor]
  exact read_two_at 0xFF#8 code s.out.mem _ a

theorem writeBits_wellFormed {l : BitVec 5} {v : Word} (hl : l.toNat ≤ 16) (hv : v.toNat < 2 ^ l.toNat) :
    (Instr.writeBits l v).wellFormed = true := by
  rw [Instr.wellFormed, Bool.and_eq_true]
  exact ⟨(lenLegal_iff l).2 hl, (valueFits_iff l v).2 hv⟩

/-- Settles O38: no byte is emitted, and `ACC` is written. -/
theorem shortCodeStaysPending : Obligations.ShortCodeStaysPending := by
  intro l v s hm hv hshort
  have hpart : ¬16 ≤ l.toNat + s.acc.len.toNat := by omega
  have hlegal : (lenLegal l && valueFits l v) = true := writeBits_wellFormed (by omega) hv
  rw [exec_writeBits, accept_runs _ hlegal hm, writeBits_eq, writeBitsData, if_neg hpart,
    accAfter_part hpart]
  rfl

/-- No writer emits more bytes than have room. -/
theorem emitted_room {i : Instr} {s : State} (hroom : s.out.pos.toNat + 4 < s.out.cap.toNat) :
    s.out.pos.toNat + (emitted s.params.alignOnBoundary s.acc i).length < s.out.cap.toNat := by
  have hlen := emitted_length_le s.params.alignOnBoundary s.acc i
  omega

/-- Settles O39: with a filled window the command emits the word's two bytes, stuffed, with room for them. -/
theorem fullWindowEmitsWord : Obligations.FullWindowEmitsWord := by
  intro l v s hm hl hv _ hfull hroom
  have hbytes : emitted s.params.alignOnBoundary s.acc (.writeBits l v) =
      stuff [hi8 (letterOf l.toNat v s.acc), lo8 (letterOf l.toNat v s.acc)] := by
    rw [emitted, writeBitsData, if_pos hfull]
  have hacc : accWhenDone (.writeBits l v) s = accAfter l.toNat v s.acc := rfl
  refine ⟨_, exec_writer_room (i := .writeBits l v) rfl (by simp) (writeBits_wellFormed hl hv) hm (emitted_room hroom), ?_⟩
  rw [hbytes, hacc, accAfter_full hfull]
  exact ⟨rfl, read_storedAtCursor _ _ s⟩

/-- Settles O45: the table's bytes, stuffed, with room for them. -/
theorem alignWithRoomStoresAtCursor : Obligations.AlignWithRoomStoresAtCursor := by
  intro s ha hm hroom
  exact ⟨_, exec_writer_room (i := .writeAlignBits) rfl (fun _ => ha) rfl hm (emitted_room hroom), rfl,
    read_storedAtCursor _ _ s⟩

/-! ## The byte that fills the buffer -/

section Full

variable {v : Byte} {s : State} {k : Nat} (hfull : s.out.pos.toNat + 1 = s.out.cap.toNat) (ha : s.sinkAnswer = .take k)
include hfull ha

theorem writeByte_full_taken (hk : s.out.cap.toNat ≤ k) : writeByte v s = .ok (drained (pushByte v s)) := by
  rcases writeByte_cases v s with ⟨h, _⟩ | ⟨_, h, _⟩ |
    ⟨_, _, ⟨h, _⟩ | ⟨h, _⟩ | ⟨_, h, _⟩ | ⟨_, h, hlt, _⟩ | ⟨_, _, _, e⟩⟩
  · have h : s.out.cap.toNat ≤ s.out.pos.toNat := h
    omega
  · omega
  · cases ha.symm.trans h
  · cases ha.symm.trans h
  · cases ha.symm.trans h
  · cases ha.symm.trans h; omega
  · exact e

theorem writeByte_full_short (hk : k < s.out.cap.toNat) : writeByte v s =
    .ended (raise .bufferWriteError (sinkWrite (s.buffered ++ [v]) k (pushByte v s).popSink)) := by
  rcases writeByte_cases v s with ⟨h, _⟩ | ⟨_, h, _⟩ |
    ⟨_, _, ⟨h, _⟩ | ⟨h, _⟩ | ⟨_, h, _⟩ | ⟨_, h, _, e⟩ | ⟨_, h, hle, _⟩⟩
  · have h : s.out.cap.toNat ≤ s.out.pos.toNat := h
    omega
  · omega
  · cases ha.symm.trans h
  · cases ha.symm.trans h
  · cases ha.symm.trans h
  · cases ha.symm.trans h; exact e
  · cases ha.symm.trans h; omega

omit ha in
theorem pos_lt_of_full : s.out.pos < s.out.cap := show s.out.pos.toNat < s.out.cap.toNat by omega

omit ha in
theorem pushByte_full_pos : (pushByte v s).out.pos = s.out.cap :=
  BitVec.eq_of_toNat_eq ((pos_succ (pos_lt_of_full hfull)).trans hfull)

end Full

/-- Settles O31: the drain of the full buffer is taken whole. -/
theorem writeByteDrainsFullBuffer : Obligations.WriteByteDrainsFullBuffer := by
  intro v s k hm hfull ha hk
  have hpos := pushByte_full_pos (v := v) hfull
  have hbuffered : (pushByte v s).buffered = s.buffered ++ [v] := buffered_pushByte v (pos_lt_of_full hfull)
  have hall : (s.buffered ++ [v]).take s.out.cap.toNat = s.buffered ++ [v] := List.take_of_length_le (by simp; omega)
  refine ⟨(drained (pushByte v s)).complete .done, ?_, ?_, fun a => ?_⟩
  · rw [exec_writeByte, accept_runs _ rfl hm, writeByte_full_taken hfull ha hk]; rfl
  · simp only [drained, hbuffered, hpos]
    simp [State.complete, State.say, clearOut, sinkWrite, State.popSink, pushByte, hall]
  · show Memory.read (Memory.zeroFill (pushByte v s).out.mem (pushByte v s).out.pos.toNat) a = _
    rw [read_zeroFill, hpos]
    split
    · rfl
    · exact read_write_other _ _ (by omega)

/-- Settles O32: the drain of the full buffer is taken in part. -/
theorem bufferWriteErrorOnShortDrain : Obligations.BufferWriteErrorOnShortDrain := by
  intro v s k hm hfull ha hk
  have hpos : s.out.pos + 1#14 = s.out.cap := pushByte_full_pos (v := v) hfull
  have hrun : exec (.writeByte v) s =
      .next (raise .bufferWriteError (sinkWrite (s.buffered ++ [v]) k (pushByte v s).popSink)) := by
    rw [exec_writeByte, accept_runs _ rfl hm, writeByte_full_short hfull ha hk, outcome_ended]
  refine ⟨_, hrun, ?_, fun a => read_write s.out.mem s.out.pos.toNat a v⟩
  simp [raise, sinkWrite, State.popSink, pushByte, hpos]

/-! ## Two WRITE_BYTEs -/

theorem hi8_append (b1 b2 : Byte) : hi8 (b1 ++ b2) = b1 := by
  have h : (b1 ++ b2 : Word).toNat = b1.toNat * 2 ^ 8 + b2.toNat := append_toNat b1 b2
  have := b1.isLt; have := b2.isLt
  apply BitVec.eq_of_toNat_eq
  rw [hi8, BitVec.extractLsb'_toNat, h, Nat.shiftRight_eq_div_pow]; omega

theorem lo8_append (b1 b2 : Byte) : lo8 (b1 ++ b2) = b2 := by
  have h : (b1 ++ b2 : Word).toNat = b1.toNat * 2 ^ 8 + b2.toNat := append_toNat b1 b2
  have := b2.isLt
  apply BitVec.eq_of_toNat_eq
  rw [lo8, BitVec.extractLsb'_toNat, h, Nat.shiftRight_zero]; omega

/-- Settles O35: the first byte's procedure ended in fault entry, which ends both commands, or ran to its end, and the second
byte's goes on in that state, the one completion away. -/
theorem wordAndMarkerAreTwoBytes : Obligations.WordAndMarkerAreTwoBytes := by
  intro i b1 b2 s t hm hi h
  have hrun : exec i s = ((writeByte b1 s).andThen (writeByte b2)).outcome := by
    rcases hi with rfl | ⟨rfl, rfl⟩
    · rw [exec_writeWord, accept_runs _ rfl hm, hi8_append, lo8_append, ← writeTwo_eq]; rfl
    · rw [exec_writeMarker, accept_runs _ rfl hm, ← writeTwo_eq]; rfl
  rw [exec_writeByte, accept_runs _ rfl hm] at h
  rw [hrun]
  rcases outcome_eq_next.1 h with ⟨w, hw, rfl⟩ | hended
  · have hready : w.mode = .ready := (stored_writeByte hw).mode.trans hm
    refine ⟨fun hf => by simp [hready] at hf, fun _ u hu => ?_⟩
    have hsame : ({ w.complete .done with env := { (w.complete .done).env with
        log := (w.complete .done).env.log.dropLast } } : State) = w := by
      simp [State.complete, State.say]
    rw [hsame, exec_writeByte, accept_runs _ rfl hready] at hu
    rw [hw, andThen_ok, hu]
  · refine ⟨fun _ => by rw [hended]; rfl, fun hdone => ?_⟩
    have hnot := writeByte_doneOnlyAtEnd b1 s
    rw [hended] at hnot
    exact absurd hdone hnot

end Sys2Proof.Machine
end

section
/-! The bit stream (43_bit_writer.md R129, R131) and the frame of the bit writer: what a completed command stored, read as bits. -/

namespace Sys2Proof.Machine

/-! ## The frame -/

/-- A list of byte stores and a write of `ACC` touches the output side alone, unless a reset ended it, and completed has added
its bytes to the stream. -/
theorem withAccs_outcome {bs : List Byte} {done cut : Acc} {s t : State}
    (h : ((writeAll bs s).withAccs done cut).outcome = .next t) (hm : t.mode ≠ .uninit) :
    OutputSideOnly s t ∧ (t.completedDone → t.stream = s.stream ++ bs) := by
  have hacc (a : Acc) {u : State} (hu : OutputSideOnly s u) : OutputSideOnly s (setAcc a u) := { hu with }
  cases hrun : writeAll bs s with
  | ok u =>
    rw [hrun] at h
    cases h
    have hstored := stored_writeAll hrun
    exact ⟨(hacc done hstored.outputSideOnly).trans (complete_outputSideOnly _ _), fun _ => hstored.stream⟩
  | ended u =>
    have hmode : u.mode ≠ .uninit := fun hu => by
      rw [hrun] at h
      simp only [Run.withAccs, hu, if_true, outcome_ended, Host.Outcome.next.injEq] at h
      exact hm (h ▸ hu)
    rw [hrun] at h
    simp only [Run.withAccs, hmode, if_false, outcome_ended, Host.Outcome.next.injEq] at h
    obtain ⟨hside, hnot⟩ := (writeAll_ended hrun).resolve_left hmode
    rw [← h]
    exact ⟨hacc cut hside, fun hdone => absurd hdone hnot⟩
  | stop f => rw [hrun] at h; cases h

/-- Settles O46: a legal one is its byte stores and a write of `ACC`, one that is not legal only raises. -/
theorem bitWriterTouchesOnlyOutputSide : Obligations.BitWriterTouchesOnlyOutputSide := by
  intro i s t hi ha hm h hmode
  have hwriter : isWriter i = true := by rcases hi with ⟨_, _, rfl⟩ | rfl <;> rfl
  have hends : OutputSideOnly s t ∧ (t.completedDone → t.stream = s.stream ++ emitted s.params.alignOnBoundary s.acc i) := by
    by_cases hw : i.wellFormed = true
    · rw [exec_writer hwriter (fun _ => ha) hw hm] at h
      exact withAccs_outcome h hmode
    · rw [exec_eq_accept, accept_rejects _ fun hc => hw hc.1, rejectWord_raises (by simp [hm])] at h
      cases h
      exact ⟨raise_outputSideOnly _ s, fun hdone => absurd hdone (not_completedDone_raise _ s)⟩
  obtain ⟨hside, hstream⟩ := hends
  exact ⟨hside.inp, hside.cap, hside.params, hside.src, hside.srcPos, hside.sourceAnswers, hside.port, hside.log, hstream⟩

/-! ## Codes -/

/-- From `s` to `t` the bit stream, emitted and pending, is longer by the bits `code`; `data` are the bytes emitted, whole 16-bit
words of it (R129). -/
structure Extends (data : List Byte) (code : List Bool) (s t : State) : Prop where
  stream : t.stream = s.stream ++ stuff data
  bits : dataBits data ++ pendingBits t.acc = pendingBits s.acc ++ code
  whole : (dataBits data).length = 16 * ((s.acc.len.toNat + code.length) / 16)

theorem Extends.refl {s : State} (ha : AccOk s.acc) : Extends [] [] s s where
  stream := by simp [stuff]
  bits := by simp [dataBits]
  whole := by
    have hlen := ha.1
    rw [List.length_nil, Nat.add_zero, Nat.div_eq_of_lt (by omega)]; rfl

/-- What is pending afterwards is what is beyond the 16-bit words. -/
theorem Extends.pending {data : List Byte} {code : List Bool} {s t : State} (h : Extends data code s t) :
    t.acc.len.toNat = (s.acc.len.toNat + code.length) % 16 := by
  have hlen := congrArg List.length h.bits
  rw [List.length_append, List.length_append, h.whole, pendingBits_length, pendingBits_length] at hlen
  omega

theorem Extends.trans {data data' : List Byte} {code code' : List Bool} {s t u : State} (h : Extends data code s t)
    (h' : Extends data' code' t u) : Extends (data ++ data') (code ++ code') s u where
  stream := by rw [h'.stream, h.stream, stuff_append, List.append_assoc]
  bits := by rw [dataBits_append, List.append_assoc, h'.bits, ← List.append_assoc, h.bits, List.append_assoc]
  whole := by
    rw [dataBits_append, List.length_append, List.length_append, h.whole, h'.whole, h.pending]; omega

theorem codeBits_length (len : Nat) (val : Word) : (codeBits len val).length = len := by simp [codeBits]

/-- One code that left the block READY extends the bit stream by its bits (R129). -/
theorem writeBits_extends {l : BitVec 5} {v : Word} {s t : State} (hinv : s.Inv) (hw : (Instr.writeBits l v).wellFormed = true)
    (h : exec (.writeBits l v) s = .next t) (hready : t.mode = .ready) :
    Extends (writeBitsData l.toNat v s.acc) (codeBits l.toNat v) s t := by
  obtain ⟨hlegal, hfits⟩ := Bool.and_eq_true_iff.1 hw
  have hl := (lenLegal_iff l).1 hlegal
  have hlen := hinv.acc.1
  obtain ⟨_, w, _, _, hdone⟩ := exec_ready h hready
  obtain ⟨u, hu, rfl⟩ := writeBits_completedDone h (hdone ▸ completedDone_complete w)
  exact {
    stream := (stream_complete_setAcc _ _ u).trans hu.stream
    bits := dataBits_append_pendingBits hinv.acc hl ((valueFits_iff l v).1 hfits)
    whole := by
      rw [dataBits_length, codeBits_length, writeBitsData]
      split
      · simp only [List.length_cons, List.length_nil]; omega
      · simp only [List.length_nil]; omega }

/-- Settles O42: the step with its own data bytes. -/
theorem oneCodeExtendsBitStream : Obligations.OneCodeExtendsBitStream := by
  intro l v s t hinv _ hw h hready
  have hext := writeBits_extends hinv hw h hready
  have hpending := hext.pending
  have hwhole := hext.whole
  rw [codeBits_length] at hpending hwhole
  exact ⟨_, hext.stream, hext.bits, hwhole, (pendingBits_length _).trans hpending⟩

/-- A list of codes that left the block READY began in READY: no command leads there from elsewhere (60_exceptions.md R154). -/
theorem writeCodes_ready {cs : List (BitVec 5 × Word)} {s t : State} (h : writeCodes cs s = .next t) (hready : t.mode = .ready) :
    s.mode = .ready := by
  induction cs generalizing s with
  | nil => cases h; exact hready
  | cons c cs ih =>
    rw [writeCodes] at h
    split at h
    · next u hu => exact (exec_ready hu (ih h)).1
    · cases h
    · cases h

/-- A list of codes extends the bit stream by their bits in order. -/
theorem writeCodes_extends {cs : List (BitVec 5 × Word)} {s t : State} (hinv : s.Inv)
    (hw : ∀ c ∈ cs, (Instr.writeBits c.1 c.2).wellFormed = true) (h : writeCodes cs s = .next t) (hready : t.mode = .ready) :
    ∃ data, Extends data (cs.flatMap fun c => codeBits c.1.toNat c.2) s t := by
  induction cs generalizing s with
  | nil => cases h; exact ⟨[], .refl hinv.acc⟩
  | cons c cs ih =>
    rw [writeCodes] at h
    split at h
    · next u hu =>
      have hfirst := writeBits_extends hinv (hw c List.mem_cons_self) hu (writeCodes_ready h hready)
      obtain ⟨data, hrest⟩ := ih (exec_inv hinv hu) (fun c hc => hw c (List.mem_cons_of_mem _ hc)) h
      exact ⟨_, hfirst.trans hrest⟩
    · cases h
    · cases h

theorem codesBits_length (cs : List (BitVec 5 × Word)) :
    (cs.flatMap fun c => codeBits c.1.toNat c.2).length = (cs.map fun c => c.1.toNat).sum := by
  simp only [List.length_flatMap, codeBits_length]

/-- Settles O43: from nothing pending. -/
theorem bitStreamIsConcatenationOfCodes : Obligations.BitStreamIsConcatenationOfCodes := by
  intro cs s t hinv _ hempty hw h hready
  obtain ⟨data, hext⟩ := writeCodes_extends hinv hw h hready
  have hpending := hext.pending
  have hwhole := hext.whole
  have hbits := hext.bits
  have hzero : s.acc.len.toNat = 0 := congrArg BitVec.toNat hempty
  have hnone : pendingBits s.acc = [] := List.length_eq_zero_iff.1 ((pendingBits_length _).trans hzero)
  rw [codesBits_length, hzero, Nat.zero_add] at hpending hwhole
  rw [hnone, List.nil_append] at hbits
  exact ⟨data, hext.stream, hbits, hwhole, (pendingBits_length _).trans hpending⟩

/-! ## Alignment -/

/-- The padding ends a byte (R126). -/
theorem len_add_padLength (p : AlignOnBoundary) (a : Acc) : (a.len.toNat + padLength p a) % 8 = 0 := by
  unfold padLength alignRemainder
  split
  · next h => omega
  · omega

/-- Settles O47: the bytes of R126's table, read as bits. -/
theorem alignmentPadsWithOnes : Obligations.AlignmentPadsWithOnes := by
  intro s t hinv _ h hdone
  obtain ⟨u, hu, rfl⟩ := writeAlignBits_completedDone hinv.acc h hdone
  exact ⟨rfl, _, _, (stream_complete_setAcc _ _ u).trans hu.stream, dataBits_alignData _ hinv.acc,
    len_add_padLength _ _, rfl⟩

end Sys2Proof.Machine
end

section
/-! INIT, DESTROY, DRAIN_OUT and REFILL_IN (40_lifecycle.md, 41_buffer.md): the exact next state where they complete, and what they
leave alone however they end. -/

namespace Sys2Proof.Machine

/-! ## INIT -/

/-- Settles O17: the controller is created and the command completes. -/
theorem initCreatesController : Obligations.InitCreatesController := by
  intro a b s hm ha hb hain hbout
  exact exec_init_of_fits hm ((capsLegal_iff a b).2 ⟨ha, hb⟩) hain hbout

/-! ## DESTROY and DRAIN_OUT -/

theorem buffered_of_empty {s : State} (h : s.out.pos = 0) : s.buffered = [] :=
  List.length_eq_zero_iff.1 ((buffered_length s).trans (congrArg BitVec.toNat h))

theorem buffer_with_pos_zero {b : Buffer} (h : b.pos = 0#14) : { b with pos := 0#14 } = b := by rw [← h]

/-- The sink has the whole transaction. -/
theorem take_buffered (s : State) : s.buffered.take s.out.pos.toNat = s.buffered :=
  List.take_of_length_le (Nat.le_of_eq (buffered_length s))

theorem exec_destroy_of_drained {s u : State} (hm : s.mode = .ready) (h : drainOr .shortWriteError s = .ok u) :
    exec .destroy s = .next (State.complete .done { u with mode := .uninit }) := by
  rw [exec_destroy, accept_runs _ rfl hm, destroyBody, h]; rfl

theorem exec_drainOut_of_drained {s u : State} (hm : s.mode = .ready) (h : drainOr .shortWriteError s = .ok u) :
    exec .drainOut s = .next (u.complete .done) := by
  rw [exec_drainOut, accept_runs _ rfl hm, h]; rfl

/-- Settles O20: with and without a transaction. -/
theorem destroyFlushesThenReleases : Obligations.DestroyFlushesThenReleases := by
  intro s k hm hle hsink
  by_cases hempty : s.out.pos = 0
  · refine ⟨_, exec_destroy_of_drained hm (drainOr_of_empty hempty), ?_, fun a => ?_⟩
    · have hpos : s.out.pos = 0#14 := hempty
      simp [State.complete, State.say, hpos, buffered_of_empty hempty, buffer_with_pos_zero]
    · simp [hempty]
  · obtain ⟨ha, hk⟩ := hsink.resolve_left hempty
    refine ⟨_, exec_destroy_of_drained hm (drainOr_of_take hempty hle ha hk), ?_, fun a => ?_⟩
    · have hpos : ¬s.out.pos = 0#14 := hempty
      simp [State.complete, State.say, drained, clearOut, sinkWrite, State.popSink, hpos, take_buffered]
    · exact read_zeroFill s.out.mem s.out.pos.toNat a

/-- Settles O24: with and without a transaction. -/
theorem drainOutMovesBufferToSink : Obligations.DrainOutMovesBufferToSink := by
  intro s k hm hle
  refine ⟨fun hempty => exec_drainOut_of_drained hm (drainOr_of_empty hempty), fun hne ha hk => ?_⟩
  refine ⟨_, exec_drainOut_of_drained hm (drainOr_of_take hne hle ha hk), ?_, fun a => ?_⟩
  · simp [State.complete, State.say, drained, clearOut, sinkWrite, State.popSink, take_buffered]
  · exact read_zeroFill s.out.mem s.out.pos.toNat a

/-- Settles O21: the drain left nothing buffered and the stream as it was, so the sink has all of it. -/
theorem completedDestroyIsFinal : Obligations.CompletedDestroyIsFinal := by
  intro s t hinv hm h hdone
  obtain ⟨u, hu, rfl⟩ := destroy_completedDone hm h hdone
  obtain ⟨hstored, hempty⟩ := drainOr_eq_ok hu
  have hnone : s.fault = none := hinv.fault_eq_none (by simp [hm])
  refine ⟨rfl, hstored.fault.trans hnone, hempty, ?_⟩
  calc u.env.sink = u.stream := (stream_of_empty hempty).symm
    _ = s.stream := by rw [hstored.stream, List.append_nil]

/-- `ACC` is as in `s`, unless a reset made the storage unspecified. -/
def KeepsAcc (s t : State) : Prop := t.epoch = s.epoch → t.acc = s.acc

theorem drainOr_keepsAcc (kind : FaultKind) (s : State) :
    (drainOr kind s).Sat (KeepsAcc s) (KeepsAcc s) fun _ => True := by
  rcases drainOr_cases kind s with ⟨_, e⟩ | ⟨_, e⟩ |
    ⟨_, _, ⟨_, _, e⟩ | ⟨_, _, e⟩ | ⟨_, _, e⟩ | ⟨_, _, _, e⟩ | ⟨_, _, _, e⟩⟩ <;> rw [e]
  · exact fun _ => rfl
  · trivial
  · trivial
  · exact fun hepoch => by simp at hepoch
  · exact fun hepoch => by simp at hepoch
  · exact fun _ => rfl
  · exact fun _ => rfl

/-- Settles O23: neither the drain nor what follows it writes `ACC`. -/
theorem drainsLeaveAccumulatorAlone : Obligations.DrainsLeaveAccumulatorAlone := by
  intro i s t hi h hepoch
  have hbody : (bodyOf i s).Sat (KeepsAcc s) (KeepsAcc s) fun _ => True := by
    rcases hi with rfl | rfl
    · exact Run.Sat.andThen (drainOr_keepsAcc .shortWriteError s) fun _ h => h
    · exact drainOr_keepsAcc .shortWriteError s
  rcases accept_next (exec_eq_accept i s ▸ h) with ⟨_, _, hrun⟩ | ⟨_, _, rfl⟩
  · rcases outcome_eq_next.1 hrun with ⟨u, hu, rfl⟩ | hu <;> rw [hu] at hbody <;> exact hbody hepoch
  · rfl

/-! ## REFILL_IN -/

/-- After a full read the file's bytes stand from offset 0 on. -/
theorem read_received_full {s : State} {k : Nat} (hk : s.inp.cap.toNat ≤ k)
    (hfile : s.env.srcPos + s.inp.cap.toNat ≤ s.env.src.length) (a : Nat) :
    Memory.read (received k s).inp.mem a =
      if a < s.inp.cap.toNat then s.env.src[s.env.srcPos + a]? else Memory.read s.inp.mem a := by
  rw [read_received, sourceData_full_length hk hfile, sourceData_full hk]
  split
  · next h => rw [List.getElem?_take_of_lt h, List.getElem?_drop]
  · rfl

theorem received_inp_cap (k : Nat) (s : State) : (received k s).inp.cap = s.inp.cap := rfl

theorem received_full_srcPos {s : State} {k : Nat} (hk : s.inp.cap.toNat ≤ k)
    (hfile : s.env.srcPos + s.inp.cap.toNat ≤ s.env.src.length) :
    (received k s).env.srcPos = s.env.srcPos + s.inp.cap.toNat := by
  rw [received, receive_srcPos, sourceData_full_length hk hfile, clearIn_env, popSource_srcPos]

/-- Settles O26: outside the debug mode nothing follows the read. -/
theorem refillFillsInputBuffer : Obligations.RefillFillsInputBuffer := by
  intro s k hm hd ha hk hfile
  have hrun : exec .refillIn s = .next ((rewindIn (received k s)).complete .done) := by
    have hnone : debugSeek (rewindIn (received k s)) = .ok (rewindIn (received k s)) := if_neg (by simp [received, hd])
    rw [exec_refillIn, accept_runs _ rfl hm, refill_of_full ha hk hfile, hnone, outcome_ok]
  have hleft : s.inp.cap.toNat ≤ s.env.src.length - s.env.srcPos := by omega
  refine ⟨_, hrun, ?_, fun a => read_received_full hk hfile a⟩
  simp [State.complete, State.say, rewindIn, received, receive, sourceRead, clearIn, State.popSource, sourceData_full hk, hleft]

/-- The rewind goes back over the block just read and the one before it (R105). -/
theorem soughtBack_srcPos {s : State} (h : 2 * s.inp.cap.toNat ≤ s.env.srcPos) :
    (soughtBack s).env.srcPos = s.env.srcPos - 2 * s.inp.cap.toNat := by
  have htarget : seekTarget (rewindDelta s.inp.cap) s = ((s.env.srcPos - 2 * s.inp.cap.toNat : Nat) : Int) := by
    simp only [seekTarget, rewindDelta]; omega
  show (if 0 ≤ seekTarget (rewindDelta s.inp.cap) s then _ else _) = _
  rw [htarget, if_pos (Int.natCast_nonneg _), Int.toNat_natCast]

/-- Settles O28: in the debug mode the seek follows the read. -/
theorem reversedDebugRewinds : Obligations.ReversedDebugRewinds := by
  intro s k rest hm hd ha hk hfile hseek
  have hrun : exec .refillIn s = .next ((soughtBack (rewindIn (received k s))).complete .done) := by
    rw [exec_refillIn, accept_runs _ rfl hm, refill_of_full ha hk hfile,
      debugSeek_of_seekResets (s := rewindIn (received k s)) hd hseek]; rfl
  refine ⟨_, hrun, ?_, fun hback => ?_, fun a => read_received_full hk hfile a⟩
  · simp [State.complete, State.say, soughtBack, sourceSeek, State.popSeek, rewindIn, received, receive, sourceRead, clearIn,
      State.popSource, sourceData_full hk, rewindDelta, hseek]
  · have hpos := received_full_srcPos hk hfile
    rw [complete_srcPos, soughtBack_srcPos, rewindIn_env, rewindIn_inp, hpos, received_inp_cap]
    · omega
    · rw [rewindIn_env, rewindIn_inp, hpos, received_inp_cap]; omega

/-- The output side and `IN.cap` are as in `s`: what R103 says of REFILL_IN. -/
def InputSideOnly (s t : State) : Prop :=
  t.acc = s.acc ∧ t.out = s.out ∧ t.env.sink = s.env.sink ∧ t.env.sinkAnswers = s.env.sinkAnswers ∧ t.inp.cap = s.inp.cap

theorem refill_inputSideOnly (s : State) :
    (refill s).Sat (InputSideOnly s) (fun t => t.mode ≠ .uninit → InputSideOnly s t) fun _ => True := by
  rcases refill_cases s with ⟨_, _, e⟩ | ⟨_, _, e⟩ | ⟨k, _, e⟩ | ⟨k, _, _, e⟩ | ⟨k, _, _, _, e⟩ <;> rw [e]
  · trivial
  · exact fun hm => absurd rfl hm
  · exact fun hm => absurd rfl hm
  · exact fun _ => ⟨rfl, rfl, rfl, rfl, rfl⟩
  · rcases debugSeek_cases (rewindIn (received k s)) with ⟨_, e⟩ | ⟨_, _, e⟩ | ⟨_, _, e⟩ <;> rw [e]
    · exact ⟨rfl, rfl, rfl, rfl, rfl⟩
    · simp [InputSideOnly, soughtBack, received]
    · exact fun hm => absurd rfl hm

/-- Settles O29: by how the refill ended. -/
theorem refillTouchesOnlyInputSide : Obligations.RefillTouchesOnlyInputSide := by
  intro s t hm h hmode
  have hrefill := refill_inputSideOnly s
  rw [exec_refillIn, accept_runs _ rfl hm] at h
  rcases outcome_eq_next.1 h with ⟨u, hu, rfl⟩ | hu <;> rw [hu] at hrefill
  · exact hrefill
  · exact hrefill hmode

end Sys2Proof.Machine
end

section
/-! What arrives in a step, by mode (30_encoding.md R78, 60_exceptions.md R151, 70_reset_and_hazards.md R160), and the values that
reset and the status port show (10_state.md R20, R39). -/

namespace Sys2Proof.Machine

/-- A word at the head of the port arrives, unless the block is FAULTED and a reset stands behind it. -/
theorem arrivals_of_word {s : State} {w : CmdWord} {rest : List Stimulus} (hp : s.env.port = .word w :: rest)
    (hr : s.mode = .faulted → rest.any Stimulus.resets = false) : s.arrivals = .word w :: rest := by
  by_cases hm : s.mode = .faulted
  · have hnone : s.resetToCome = false := by rw [State.resetToCome, hp]; exact hr hm
    rw [arrivals_of_no_reset hnone, hp]
  · rw [arrivals_of_not_faulted hm, hp]

/-- FAULTED executes no command (R78, R151). -/
theorem exec_faulted {i : Instr} {s : State} (hm : s.mode = .faulted) : exec i s = .fault .notAccepted := by
  rw [exec_wrong_mode (hm ▸ (requiredMode_ne_faulted i).symm), rejectWord_faulted hm]

/-- In FAULTED a word that arrives is not accepted, whether it decodes or not. -/
theorem step_word_faulted {s : State} {w : CmdWord} {rest : List Stimulus} (hm : s.mode = .faulted)
    (h : s.arrivals = .word w :: rest) : step s = .fault .notAccepted := by
  have hm : s.popPort.mode = .faulted := hm
  cases hd : decode w with
  | ok i => rw [step_word h hd, exec_faulted hm]
  | error e => rw [step_illegal h hd, rejectWord_faulted hm]

/-- Settles O6: by what arrives. -/
theorem stepRunsDecodedCommand : Obligations.StepRunsDecodedCommand := by
  refine ⟨fun s w rest i hp hr hd => ?_, fun s w rest hp hm hr => ?_, fun s hp => step_idle (arrivals_eq_nil.2 hp)⟩
  · have ha := arrivals_of_word hp hr
    rw [step_word ha hd, popPort_eq ha]
  · exact step_word_faulted hm (arrivals_of_word hp fun _ => hr)

/-- What arrives stands on the port. -/
theorem mem_port_of_arrivals {s : State} {x : Stimulus} {rest : List Stimulus} (h : s.arrivals = x :: rest) :
    x ∈ s.env.port := by
  have hx : x ∈ s.arrivals := h ▸ List.mem_cons_self
  unfold State.arrivals at hx
  split at hx
  · exact (List.dropWhile_suffix _).subset hx
  · exact hx

/-- Settles O58: in FAULTED only a reset arrives with effect, the first to come. -/
theorem faultedIsTerminal : Obligations.FaultedIsTerminal := by
  intro s hm
  refine ⟨fun w rest hp hr => step_word_faulted hm (arrivals_of_word hp fun _ => hr), fun t h hleft => ?_,
    fun words x rest hp hx hw => ?_⟩
  · rcases step_cases s with ⟨_, e⟩ | ⟨x, _, ha, hx, _⟩ | ⟨w, rest, ha, _⟩
    · rw [e] at h; cases h; exact absurd hm hleft
    · exact resetToCome_of_mem (mem_port_of_arrivals ha) hx
    · rw [step_word_faulted hm ha] at h; cases h
  · have ha := arrivals_faulted hm hp hx hw
    exact ⟨_, step_reset ha hx, rfl, rfl, by simp [ha]⟩

/-- Settles O8: a stimulus that asserts reset arrives in any mode. -/
theorem resetFromAnyMode : Obligations.ResetFromAnyMode := by
  intro s x rest hx hp
  have hresets : x.resets = true := by rcases hx with rfl | ⟨w, rfl⟩ <;> rfl
  have ha := arrivals_of_resets hp hresets
  rw [step_reset ha hresets, popPort_eq ha]; rfl

/-- Settles O7: each register of `State.reset`, and its empty storages. -/
theorem resetValues : Obligations.ResetValues :=
  ⟨rfl, rfl, rfl, rfl, rfl, rfl, rfl, fun _ => ⟨rfl, rfl⟩⟩

/-- Settles O16: the codes of the three modes and the five kinds. -/
theorem statusPortCodes : Obligations.StatusPortCodes := by
  refine ⟨fun s => ?_, fun s => ?_, fun s => ?_⟩
  · unfold State.statusMode
    cases s.mode <;> decide
  · unfold State.statusFault
    cases s.fault with
    | none => decide
    | some kind => cases kind <;> decide
  · have hmode : s.statusMode ≠ 3#2 := by
      unfold State.statusMode
      cases s.mode <;> decide
    have hfault : s.statusFault ≠ 6#3 ∧ s.statusFault ≠ 7#3 := by
      unfold State.statusFault
      cases s.fault with
      | none => decide
      | some kind => cases kind <;> decide
    exact ⟨hmode, hfault⟩

end Sys2Proof.Machine
end
